-- ==== Sys2Proof/Word.lean ====
section
/-! DEFINITION. The words of the block: command word, response word, source byte, decoded sample (int8), output
element (int16) (00_scope.md R11, R17). -/

namespace Sys2Proof

/-- A command word (30_encoding.md R80). -/
abbrev CmdWord := BitVec 64

/-- A response word (30_encoding.md R88). -/
abbrev RespWord := BitVec 32

/-- A byte of source memory (20_memory.md R50). -/
abbrev Byte := BitVec 8

/-- A decoded sample, an int8 read with `toInt` (10_state.md R31). -/
abbrev Sample := BitVec 8

/-- An element of an output buffer, an int16 read with `toInt` (20_memory.md R57). -/
abbrev Pcm := BitVec 16

end Sys2Proof
end

