-- ==== Sys2Proof/Syntax.lean ====
section
/-! DEFINITION. The commands (30_encoding.md R86) as data, and the raw fields of a command word (R80). -/

namespace Sys2Proof

/-- The twelve commands of the opcode map (R86), each with the operands it uses (R81 to R84). -/
inductive Instr where
  /-- `INIT` (44_scheduler.md R238). -/
  | init
  /-- `SHUTDOWN` (44_scheduler.md R239). -/
  | shutdown
  /-- `LOOKUP sid` (41_channel_manager.md R154). -/
  | lookup (sid : BitVec 16)
  /-- `START_SOUND sid, ch, vol, sep, pitch` (41_channel_manager.md R141). -/
  | startSound (sid : BitVec 16) (ch vol sep pitch : BitVec 8)
  /-- `UPDATE_PARAMS ch, vol, sep` (41_channel_manager.md R148). -/
  | updateParams (ch vol sep : BitVec 8)
  /-- `STOP_SOUND ch` (41_channel_manager.md R151). -/
  | stopSound (ch : BitVec 8)
  /-- `IS_PLAYING ch` (41_channel_manager.md R152). -/
  | isPlaying (ch : BitVec 8)
  /-- `UPDATE_SOUND` (44_scheduler.md R231). -/
  | updateSound
  /-- `PRECACHE` (41_channel_manager.md R155). -/
  | precache
  /-- `SET_MUSIC arg` (44_scheduler.md R240); `true` is 1. -/
  | setMusic (arg : Bool)
  /-- `FADE_TO arg` (43_fade.md R214); `true` is 1, a fade in. -/
  | fadeTo (arg : Bool)
  /-- `IS_FADING` (43_fade.md R215). -/
  | isFading
  deriving DecidableEq, Repr

/-- The seven fields every command word is cut into (R80), before anything is known of its opcode. -/
structure Fields where
  rsv   : BitVec 8
  sid   : BitVec 16
  pitch : BitVec 8
  sep   : BitVec 8
  vol   : BitVec 8
  ch    : BitVec 8
  op    : BitVec 8
  deriving DecidableEq, Repr

end Sys2Proof
end

