-- ==== Sys2Proof/WellFormed.lean ====
section
/-! DEFINITION. When a command is well formed: the legality of its fields in the words of 30_encoding.md R85,
written without the masks of R86 (which Decode.lean holds), so that the two can be proved to agree. -/

namespace Sys2Proof

/-- The fields an opcode may use (R86, column "fields used"); `arg` is bit 0 of `ch` (R84). -/
structure Uses where
  sid   : Bool := false
  pitch : Bool := false
  sep   : Bool := false
  vol   : Bool := false
  ch    : Bool := false
  arg   : Bool := false
  deriving DecidableEq, Repr

/-- The fields each opcode uses, and none for a byte that is no opcode (R86, R87). -/
def usesOf (op : BitVec 8) : Option Uses :=
  if op = 0x01#8 then some {}
  else if op = 0x02#8 then some {}
  else if op = 0x03#8 then some { sid := true }
  else if op = 0x04#8 then some { sid := true, pitch := true, sep := true, vol := true, ch := true }
  else if op = 0x05#8 then some { sep := true, vol := true, ch := true }
  else if op = 0x06#8 then some { ch := true }
  else if op = 0x07#8 then some { ch := true }
  else if op = 0x08#8 then some {}
  else if op = 0x09#8 then some {}
  else if op = 0x0A#8 then some { arg := true }
  else if op = 0x0B#8 then some { arg := true }
  else if op = 0x0C#8 then some {}
  else none

/-- Every bit of a field the opcode does not use is 0; of `ch`, bits 7:1 where only `arg` is used (R85). -/
def Fields.unusedZero (f : Fields) (u : Uses) : Bool :=
  (u.sid || f.sid == 0#16) && (u.pitch || f.pitch == 0#8) && (u.sep || f.sep == 0#8) &&
  (u.vol || f.vol == 0#8) && (u.ch || f.ch == 0#8 || (u.arg && f.ch == 1#8))

/-- A command's fields are well formed: the opcode is in the map, `rsv` is 0, unused bits are 0 (R85). -/
def Fields.wellFormed (f : Fields) : Bool :=
  match usesOf f.op with
  | some u => f.rsv == 0#8 && f.unusedZero u
  | none   => false

/-- The fields a command stands for; what it does not use is 0 (R86). -/
def Instr.fields : Instr → Fields
  | .init                          => ⟨0, 0, 0, 0, 0, 0, 0x01⟩
  | .shutdown                      => ⟨0, 0, 0, 0, 0, 0, 0x02⟩
  | .lookup sid                    => ⟨0, sid, 0, 0, 0, 0, 0x03⟩
  | .startSound sid ch vol sep pit => ⟨0, sid, pit, sep, vol, ch, 0x04⟩
  | .updateParams ch vol sep       => ⟨0, 0, 0, sep, vol, ch, 0x05⟩
  | .stopSound ch                  => ⟨0, 0, 0, 0, 0, ch, 0x06⟩
  | .isPlaying ch                  => ⟨0, 0, 0, 0, 0, ch, 0x07⟩
  | .updateSound                   => ⟨0, 0, 0, 0, 0, 0, 0x08⟩
  | .precache                      => ⟨0, 0, 0, 0, 0, 0, 0x09⟩
  | .setMusic arg                  => ⟨0, 0, 0, 0, 0, BitVec.ofNat 8 arg.toNat, 0x0A⟩
  | .fadeTo arg                    => ⟨0, 0, 0, 0, 0, BitVec.ofNat 8 arg.toNat, 0x0B⟩
  | .isFading                      => ⟨0, 0, 0, 0, 0, 0, 0x0C⟩

/-- A command is well formed when its fields are. The operands' types already hold them to the widths of R81 to
R84, so this holds of every `Instr`; what can be ill formed is `Fields`. -/
def Instr.wellFormed (i : Instr) : Bool := i.fields.wellFormed

end Sys2Proof
end

