-- ==== Sys2Proof/Decode.lean ====
section
/-! DEFINITION. The decoder of command words (30_encoding.md R80 to R87), total, rejecting by name; the encoder;
and the spec's assembly notation (R90, R91). -/

namespace Sys2Proof

/-! ## The opcode map -/

/-- The rows of the opcode map (R86). -/
inductive Op where
  | init | shutdown | lookup | startSound | updateParams | stopSound
  | isPlaying | updateSound | precache | setMusic | fadeTo | isFading
  deriving DecidableEq, Repr

/-- The rows in the table's order. -/
def opRows : List Op :=
  [.init, .shutdown, .lookup, .startSound, .updateParams, .stopSound,
   .isPlaying, .updateSound, .precache, .setMusic, .fadeTo, .isFading]

/-- The opcode byte (R86, column "op"). -/
def opCode : Op → BitVec 8
  | .init => 0x01 | .shutdown => 0x02 | .lookup => 0x03 | .startSound => 0x04
  | .updateParams => 0x05 | .stopSound => 0x06 | .isPlaying => 0x07 | .updateSound => 0x08
  | .precache => 0x09 | .setMusic => 0x0A | .fadeTo => 0x0B | .isFading => 0x0C

/-- The match of a row (R86, column "match"). -/
def opMatch : Op → CmdWord
  | .init         => 0x0000000000000001
  | .shutdown     => 0x0000000000000002
  | .lookup       => 0x0000000000000003
  | .startSound   => 0x0000000000000004
  | .updateParams => 0x0000000000000005
  | .stopSound    => 0x0000000000000006
  | .isPlaying    => 0x0000000000000007
  | .updateSound  => 0x0000000000000008
  | .precache     => 0x0000000000000009
  | .setMusic     => 0x000000000000000A
  | .fadeTo       => 0x000000000000000B
  | .isFading     => 0x000000000000000C

/-- The mask of a row: a 1 for every bit that must equal the match (R86, column "mask"). -/
def opMask : Op → CmdWord
  | .init         => 0xFFFFFFFFFFFFFFFF
  | .shutdown     => 0xFFFFFFFFFFFFFFFF
  | .lookup       => 0xFF0000FFFFFFFFFF
  | .startSound   => 0xFF000000000000FF
  | .updateParams => 0xFFFFFFFF000000FF
  | .stopSound    => 0xFFFFFFFFFFFF00FF
  | .isPlaying    => 0xFFFFFFFFFFFF00FF
  | .updateSound  => 0xFFFFFFFFFFFFFFFF
  | .precache     => 0xFFFFFFFFFFFFFFFF
  | .setMusic     => 0xFFFFFFFFFFFFFEFF
  | .fadeTo       => 0xFFFFFFFFFFFFFEFF
  | .isFading     => 0xFFFFFFFFFFFFFFFF

/-- "A word `w` is the instruction of a row iff `(w & mask) = match`" (R86). -/
def rowMatches (w : CmdWord) (o : Op) : Bool := w &&& opMask o == opMatch o

/-- The row with this opcode byte, none for 0x00 and 0x0D .. 0xFF (R87). -/
def opOfCode (b : BitVec 8) : Option Op := opRows.find? fun o => opCode o == b

/-! ## Fields -/

/-- Cut a word into the fields of R80. -/
def fieldsOf (w : CmdWord) : Fields where
  rsv   := w.extractLsb' 56 8
  sid   := w.extractLsb' 40 16
  pitch := w.extractLsb' 32 8
  sep   := w.extractLsb' 24 8
  vol   := w.extractLsb' 16 8
  ch    := w.extractLsb' 8 8
  op    := w.extractLsb' 0 8

/-- Put the fields of R80 together into a word. -/
def pack (f : Fields) : CmdWord := f.rsv ++ f.sid ++ f.pitch ++ f.sep ++ f.vol ++ f.ch ++ f.op

/-- `arg = w[8]`, bit 0 of the `ch` field (R84). -/
def argOf (f : Fields) : Bool := f.ch.getLsbD 0

/-! ## Decoding -/

/-- Why a command word is illegal (R85). -/
inductive Reject where
  /-- The opcode is not in the map (R85, R87). -/
  | unknownOpcode
  /-- `rsv != 0` (R85). -/
  | reservedNonzero
  /-- A bit of a field the opcode does not use is 1 (R85). -/
  | unusedBits
  deriving DecidableEq, Repr

/-- The command of a row with its operands taken from the fields (R81 to R84, R89: no sign, no scale). -/
def operands (o : Op) (f : Fields) : Instr :=
  match o with
  | .init         => .init
  | .shutdown     => .shutdown
  | .lookup       => .lookup f.sid
  | .startSound   => .startSound f.sid f.ch f.vol f.sep f.pitch
  | .updateParams => .updateParams f.ch f.vol f.sep
  | .stopSound    => .stopSound f.ch
  | .isPlaying    => .isPlaying f.ch
  | .updateSound  => .updateSound
  | .precache     => .precache
  | .setMusic     => .setMusic (argOf f)
  | .fadeTo       => .fadeTo (argOf f)
  | .isFading     => .isFading

/-- The decoder: total on every word, an illegal word (R85) rejected by name. -/
def decode (w : CmdWord) : Except Reject Instr :=
  match opOfCode (fieldsOf w).op with
  | none => .error .unknownOpcode
  | some o =>
    if rowMatches w o then .ok (operands o (fieldsOf w))
    else if (fieldsOf w).rsv ≠ 0 then .error .reservedNonzero
    else .error .unusedBits

/-- The word of a command (R80, R86). -/
def encode (i : Instr) : CmdWord := pack i.fields

/-- What the decoder reads from an instruction whose bits are `w`. Every command is one 64-bit word (R80); bits
above `nbits` are 0. -/
def decodeTableWord (nbits w : Nat) : Option Instr := (decode (BitVec.ofNat 64 (w % 2 ^ nbits))).toOption

/-- The row a command belongs to. -/
def rowOf : Instr → Op
  | .init => .init
  | .shutdown => .shutdown
  | .lookup _ => .lookup
  | .startSound _ _ _ _ _ => .startSound
  | .updateParams _ _ _ => .updateParams
  | .stopSound _ => .stopSound
  | .isPlaying _ => .isPlaying
  | .updateSound => .updateSound
  | .precache => .precache
  | .setMusic _ => .setMusic
  | .fadeTo _ => .fadeTo
  | .isFading => .isFading

/-! ## Assembly notation (R90, R91) -/

/-- A line of a command sequence: the mnemonic and its `field=value` pairs in any order (R90). -/
structure AsmLine where
  mnemonic : String
  pairs    : List (String × Nat) := []
  deriving DecidableEq, Repr

/-- What an assembler refuses. -/
inductive AsmError where
  /-- No mnemonic or pseudo-instruction of that name. -/
  | unknownMnemonic
  /-- "refuses a field the mnemonic does not use" (R90). -/
  | unusedField
  /-- "and a value that does not fit the field" (R90). -/
  | valueTooWide
  /-- A field given twice; the spec does not say what it means. DESIGN CHOICE: refused (log 16). -/
  | repeatedField
  deriving DecidableEq, Repr

/-- The row of a mnemonic (R86). -/
def opOfName (m : String) : Option Op :=
  if m = "INIT" then some .init else if m = "SHUTDOWN" then some .shutdown
  else if m = "LOOKUP" then some .lookup else if m = "START_SOUND" then some .startSound
  else if m = "UPDATE_PARAMS" then some .updateParams else if m = "STOP_SOUND" then some .stopSound
  else if m = "IS_PLAYING" then some .isPlaying else if m = "UPDATE_SOUND" then some .updateSound
  else if m = "PRECACHE" then some .precache else if m = "SET_MUSIC" then some .setMusic
  else if m = "FADE_TO" then some .fadeTo else if m = "IS_FADING" then some .isFading
  else none

/-- The fields a row uses, with the width of each (R80, R84, R86). -/
def fieldWidths : Op → List (String × Nat)
  | .lookup       => [("sid", 16)]
  | .startSound   => [("sid", 16), ("ch", 8), ("vol", 8), ("sep", 8), ("pitch", 8)]
  | .updateParams => [("ch", 8), ("vol", 8), ("sep", 8)]
  | .stopSound    => [("ch", 8)]
  | .isPlaying    => [("ch", 8)]
  | .setMusic     => [("arg", 1)]
  | .fadeTo       => [("arg", 1)]
  | _             => []

/-- The value given to a field; an omitted one is 0 (R90). -/
def pairValue (ps : List (String × Nat)) (name : String) : Nat :=
  match ps.find? (fun p => p.1 == name) with
  | some p => p.2
  | none   => 0

/-- Check the pairs of a line against the fields its row uses (R90). -/
def checkPairs (ws : List (String × Nat)) : List (String × Nat) → Except AsmError Unit
  | [] => .ok ()
  | p :: ps =>
    match ws.find? (fun q => q.1 == p.1) with
    | none => .error .unusedField
    | some q =>
      if 2 ^ q.2 ≤ p.2 then .error .valueTooWide
      else if ps.any (fun r => r.1 == p.1) then .error .repeatedField
      else checkPairs ws ps

/-- The pseudo-instructions and what each expands to (R91). -/
def expandPseudo (l : AsmLine) : Except AsmError AsmLine :=
  let as (m : String) (v : Nat) : Except AsmError AsmLine :=
    if l.pairs = [] then .ok ⟨m, [("arg", v)]⟩ else .error .unusedField
  if l.mnemonic = "FADE_OUT" then as "FADE_TO" 0
  else if l.mnemonic = "FADE_IN" then as "FADE_TO" 1
  else if l.mnemonic = "MUSIC_ON" then as "SET_MUSIC" 1
  else if l.mnemonic = "MUSIC_OFF" then as "SET_MUSIC" 0
  else .ok l

/-- The command a row and its checked pairs stand for. -/
def instrOfPairs (o : Op) (ps : List (String × Nat)) : Instr :=
  operands o
    { rsv := 0, sid := BitVec.ofNat 16 (pairValue ps "sid"), pitch := BitVec.ofNat 8 (pairValue ps "pitch")
      sep := BitVec.ofNat 8 (pairValue ps "sep"), vol := BitVec.ofNat 8 (pairValue ps "vol")
      ch := BitVec.ofNat 8 (match o with
        | .setMusic | .fadeTo => pairValue ps "arg"
        | _ => pairValue ps "ch")
      op := opCode o }

/-- Assemble one line into its word (R90, R91). -/
def assemble (l : AsmLine) : Except AsmError CmdWord :=
  match expandPseudo l with
  | .error e => .error e
  | .ok l' =>
    match opOfName l'.mnemonic with
    | none => .error .unknownMnemonic
    | some o =>
      match checkPairs (fieldWidths o) l'.pairs with
      | .error e => .error e
      | .ok () => .ok (encode (instrOfPairs o l'.pairs))

end Sys2Proof
end

