-- ==== Sys2Proof/Config.lean ====
section
/-! DEFINITION. What is fixed for a run: the parameters of 00_scope.md R9, the step table (40_adpcm_decoder.md
R111) and the asset port's answers (20_memory.md R55); and the free values, which have no body, so that nothing
can be proved of what they are. -/

namespace Sys2Proof

/-- What the asset port answers on a hit: lump number, source address of the first byte, length in bytes (R55). -/
structure Hit where
  lumpNo : BitVec 32
  base   : BitVec 32
  len    : Nat
  deriving DecidableEq, Repr

/-- One answer of the asset port. A sound identifier with no entry is a miss (R55). -/
structure AssetEntry where
  sid : BitVec 16
  hit : Hit
  deriving DecidableEq, Repr

/-- The parameters of R9, under the spec's names, with the step table and the asset port. The state holds one
(`State.cfg`) and no step changes it, so every statement over all states is one over all parameters (log 1). -/
structure Config where
  /-- `NUM_CHANNELS`, 1..256 (D5). -/
  numChannels      : Nat
  /-- `OUT_RATE`, 1..65535 (D6). -/
  outRate          : Nat
  /-- `ADPCM_BLOCK_BYTES`, 5..32767 (D7). -/
  adpcmBlockBytes  : Nat
  /-- `BUFFER_FRAMES`, at least 1 (D9). -/
  bufferFrames     : Nat
  /-- `NUM_BUFFERS`, at least 1 (D10). -/
  numBuffers       : Nat
  /-- `FADE_STEP`, 1..65536 (D11). -/
  fadeStep         : Nat
  /-- `SMOOTHING_ENABLED` (D12). -/
  smoothingEnabled : Bool
  /-- `RAW_FORMAT_TAG`, not `0x8003` (D13). -/
  rawFormatTag     : BitVec 16
  /-- `STEP_TABLE`, 89 magnitudes (R111, X1). -/
  stepTable        : Vector (BitVec 16) 89
  /-- The asset port, a fixed function of the identifier (R55, D49). -/
  assets           : List AssetEntry
  deriving DecidableEq, Repr

/-- FREE VALUE: whether the sink sets up, at the draw with this number (44_scheduler.md R237, U15; log 7). -/
opaque Config.freeSetup : Nat → Bool

/-- FREE VALUE: element `i` of the music port's content, at the draw with this number (44_scheduler.md R232, U16;
log 8). -/
opaque Config.freeMusic : Nat → Nat → Pcm

/-- FREE VALUE: which empty buffer the sink returns, at the draw with this number; taken modulo how many there are
(44_scheduler.md R233, U17; log 10). -/
opaque Config.freePick : Nat → Nat

end Sys2Proof
end

