-- ==== Sys2Proof/Machine/Parameters.lean ====
section
/-! DEFINITION. What is derived from the parameters (00_scope.md R9), the constraints R9 puts on them, the constant
tables (40_adpcm_decoder.md R111, R112), and the configuration the reset state is given. -/

namespace Sys2Proof

/-- `DECODE_CAP = 1 + 2*(ADPCM_BLOCK_BYTES-4)` (R9, D8). -/
def Config.decodeCap (c : Config) : Nat := 1 + 2 * (c.adpcmBlockBytes - 4)

/-- `RAW_BLOCK_BYTES = DECODE_CAP` (R9, D8). -/
def Config.rawBlockBytes (c : Config) : Nat := c.decodeCap

/-- The constraints of R9. -/
abbrev Config.Legal (c : Config) : Prop :=
  (1 ≤ c.numChannels ∧ c.numChannels ≤ 256) ∧ (1 ≤ c.outRate ∧ c.outRate ≤ 65535) ∧
  (5 ≤ c.adpcmBlockBytes ∧ c.adpcmBlockBytes ≤ 32767) ∧ 1 ≤ c.bufferFrames ∧ 1 ≤ c.numBuffers ∧
  (1 ≤ c.fadeStep ∧ c.fadeStep ≤ 65536) ∧ c.rawFormatTag ≠ 0x8003#16

namespace Machine

/-- The step table of R111. PRESUMED: the spec takes the IMA/DVI values from general knowledge (X1; log 13). -/
def imaStepTable : Vector (BitVec 16) 89 :=
  #v[7, 8, 9, 10, 11, 12, 13, 14, 16, 17,
     19, 21, 23, 25, 28, 31, 34, 37, 41, 45,
     50, 55, 60, 66, 73, 80, 88, 97, 107, 118,
     130, 143, 157, 173, 190, 209, 230, 253, 279, 307,
     337, 371, 408, 449, 494, 544, 598, 658, 724, 796,
     876, 963, 1060, 1166, 1282, 1411, 1552, 1707, 1878, 2066,
     2272, 2499, 2749, 3024, 3327, 3660, 4026, 4428, 4871, 5358,
     5894, 6484, 7132, 7845, 8630, 9493, 10442, 11487, 12635, 13899,
     15289, 16818, 18500, 20350, 22385, 24623, 27086, 29794, 32767]

/-- `INDEX_TABLE`, indexed by the low 3 bits of a nibble (R112). -/
def indexTable : Vector Int 8 := #v[-1, -1, -1, -1, 2, 4, 6, 8]

/-- The configuration of `State.reset`: `CFG0` of 95_test_vectors.md §0, with no asset. DESIGN CHOICE (log 1); no
statement rests on it. -/
def defaultConfig : Config where
  numChannels      := 2
  outRate          := 11025
  adpcmBlockBytes  := 8
  bufferFrames     := 4
  numBuffers       := 2
  fadeStep         := 16384
  smoothingEnabled := false
  rawFormatTag     := 0x0003
  stepTable        := imaStepTable
  assets           := []

end Machine
end Sys2Proof
end

