-- ==== Sys2Proof/Machine/State.lean ====
section
/-! DEFINITION. The machine's state (10_state.md, 20_memory.md R50 to R59) as plain data, the reasons a step can
stop, and the state right after reset (10_state.md R41, 70_reset_and_hazards.md R290). -/

namespace Sys2Proof.Machine

/-- How a channel's payload is decoded (10_state.md R24). -/
inductive Format where
  | adpcm
  | raw
  deriving DecidableEq, Repr

/-- The fade state (10_state.md R36). -/
inductive FadeState where
  | none
  | fadingOut
  | fadingIn
  | silent
  deriving DecidableEq, Repr

/-- The reason of the sticky fault (60_exceptions.md R263). -/
inductive FaultReason where
  | none
  | pitchZero
  | srcBus
  deriving DecidableEq, Repr

/-- One channel record (10_state.md R23 to R31). -/
structure Channel where
  /-- R24. -/
  format       : Format
  /-- Address of the first payload byte not yet decoded (R25). -/
  srcPos       : BitVec 33
  /-- One past the last payload byte (R25). -/
  srcEnd       : BitVec 33
  /-- Playback position in the decoded block, 16 fractional bits (R26). -/
  offset       : BitVec 64
  /-- Advance per output frame, 16 fractional bits (R27). -/
  step         : BitVec 32
  /-- R28. -/
  leftVol      : BitVec 8
  /-- R28. -/
  rightVol     : BitVec 8
  /-- 0..256 (R29). -/
  smoothCoef   : BitVec 9
  /-- The one-pole filter's memory, an int8 (R30). -/
  smoothPrev   : Sample
  /-- `DECODE_CAP` samples; those at an index at or above `decodedCount` hold no value that a rule reads (R31). -/
  decodedBlock : List Sample
  /-- How many samples of `decodedBlock` are valid; 0 is "channel inactive" (R31). -/
  decodedCount : BitVec 16
  deriving DecidableEq, Repr

/-- An output buffer: which one it is, and its elements, left at even and right at odd positions (20_memory.md
R50, R57). -/
structure Buffer where
  id      : Nat
  samples : List Pcm
  deriving DecidableEq, Repr

/-- A buffer in the sink's queue with its filled sample count (44_scheduler.md R234). -/
structure Filled where
  buffer : Buffer
  count  : Nat
  deriving DecidableEq, Repr

/-- A span the asset port has named in a hit (20_memory.md R51). -/
structure Span where
  base : Nat
  len  : Nat
  deriving DecidableEq, Repr

/-- Source memory: the resident bytes, addresses strictly rising. An address not listed holds no byte (log 4). -/
abbrev Memory := List Host.Cell

/-- What the outside does next (00_scope.md R8): the host issues a command word, the sink plays a buffer
(44_scheduler.md R235), or the reset line is pulled (70_reset_and_hazards.md R290). The model's own (log 6). -/
inductive Event where
  | command (w : CmdWord)
  | sinkPlay
  | reset
  deriving DecidableEq, Repr

/-- The outside's answers still to be drawn, first answer first, and the number of the next draw. Where a list has
run out, the answer is a free value of Config at that number (logs 7 to 10). The model's own. -/
structure Draws where
  /-- Answers of `SinkSetup` (R237). -/
  setup : List Bool
  /-- Contents the music port gives (R232); an element a content does not list is free. -/
  music : List (List Pcm)
  /-- Which empty buffer a take returns (R233), modulo how many there are. -/
  picks : List Nat
  /-- How many play steps the sink makes at each next point between two core steps of `UPDATE_SOUND` (R231, R235);
  finitely many in all (R299). -/
  plays : List Nat
  /-- The number of the next draw. -/
  next  : Nat
  deriving DecidableEq, Repr

/-- The state of the block and of what stands around it. -/
structure State where
  /-- The parameters, tables and asset port, fixed for a run (00_scope.md R9, 10_state.md R20; log 1). -/
  cfg          : Config
  /-- 10_state.md R34. -/
  initialized  : Bool
  /-- 10_state.md R35. -/
  musicEnabled : Bool
  /-- 10_state.md R36. -/
  fadeState    : FadeState
  /-- 0..65536 (10_state.md R37). -/
  fadeLevel    : BitVec 17
  /-- 10_state.md R38. -/
  faulted      : Bool
  /-- 10_state.md R38. -/
  faultReason  : FaultReason
  /-- The last command's response word (10_state.md R39). -/
  resp         : RespWord
  /-- The channel file (10_state.md R23). -/
  ch           : List Channel
  /-- Source memory, read-only to the core (20_memory.md R50, R52). -/
  mem          : Memory
  /-- The spans the asset port has named in a hit of this run (20_memory.md R51; log 5). -/
  named        : List Span
  /-- The buffers in state `Empty`, the sink's free pool (20_memory.md R58). -/
  empty        : List Buffer
  /-- The buffer in state `Core`, if there is one (20_memory.md R58). -/
  core         : Option Buffer
  /-- The buffers in state `Filled`, oldest first (20_memory.md R58, 44_scheduler.md R234, R235). -/
  filled       : List Filled
  /-- What the outside does next, in order. The model's own (log 6). -/
  inputs       : List Event
  /-- The outside's answers still to be drawn. The model's own (logs 7 to 10). -/
  draws        : Draws
  /-- What the sink has played, oldest first: the observation of 00_scope.md R18. The model's own (log 6). -/
  played       : List (List Pcm)
  /-- The responses the host has read, oldest first (00_scope.md R8, R18). The model's own (log 6). -/
  responses    : List RespWord
  deriving DecidableEq, Repr

/-- Why the model stops. The block's own faults are states, not stops (60_exceptions.md R262). -/
inductive Fault where
  /-- Raised by the mixer where a channel's `offset` points at or past `decodedCount`, or past the block: such an
  element holds no value and "no rule reads them" (10_state.md R31). No run reaches it (R32). Safe (log 11). -/
  | sampleNoValue
  /-- Raised where a loop of `UPDATE_SOUND` did not end within the bound the model gives it. No state reaches it
  (44_scheduler.md R236, 70_reset_and_hazards.md R301). Safe (log 11). -/
  | endless
  deriving DecidableEq, Repr

/-- Why the model gives an instruction no meaning. -/
inductive Refusal where
  /-- Raised by an arm of `exec` whose instruction has no meaning yet; there is none left. Safe. -/
  | notModelled (mnemonic : String)
  deriving DecidableEq, Repr

/-- A channel at reset: inactive (R41). The other fields are unspecified and "no rule reads them before
`START_SOUND` writes them"; DESIGN CHOICE: zero, format code 0 (log 2). -/
def Channel.reset (c : Config) : Channel where
  format       := .adpcm
  srcPos       := 0
  srcEnd       := 0
  offset       := 0
  step         := 0
  leftVol      := 0
  rightVol     := 0
  smoothCoef   := 0
  smoothPrev   := 0
  decodedBlock := List.replicate c.decodeCap 0
  decodedCount := 0

/-- Buffer `id` at reset. Its contents are not stated; DESIGN CHOICE: zero (log 3). -/
def Buffer.reset (c : Config) (id : Nat) : Buffer := ⟨id, List.replicate (2 * c.bufferFrames) 0⟩

/-- The state right after reset of a block with parameters `c` (R41, R290): nothing resident, nothing pending. -/
def State.resetWith (c : Config) : State where
  cfg          := c
  initialized  := false
  musicEnabled := false
  fadeState    := .none
  fadeLevel    := 65536
  faulted      := false
  faultReason  := .none
  resp         := 0
  ch           := List.replicate c.numChannels (Channel.reset c)
  mem          := []
  named        := []
  empty        := (List.range c.numBuffers).map (Buffer.reset c)
  core         := none
  filled       := []
  inputs       := []
  draws        := ⟨[], [], [], [], 0⟩
  played       := []
  responses    := []

/-- The state right after reset, with the parameters of log 1. -/
def State.reset : State := State.resetWith defaultConfig

end Sys2Proof.Machine
end

