-- ==== Sys2Proof/Machine/Flags.lean ====
section
/-! DEFINITION. The status computations: the block has no flags (10_state.md R22); it has response words
(30_encoding.md R88), numeric codes for its enumerations, and the conditions the commands test. -/

namespace Sys2Proof.Machine

/-- `RESP_OK`, also Boolean false (R88). -/
def respOk : RespWord := 0x00000000

/-- Boolean true (R88). -/
def respTrue : RespWord := 0x00000001

/-- `RESP_FAIL` (R88). -/
def respFail : RespWord := 0xFFFFFFFF

/-- `RESP_ILLEGAL` (R88). -/
def respIllegal : RespWord := 0xFFFFFFFE

/-- `RESP_FAULTED` (R88). -/
def respFaulted : RespWord := 0xFFFFFFFD

/-- A Boolean answer (R88). -/
def respBool (b : Bool) : RespWord := if b then respTrue else respOk

/-- The channel index `START_SOUND` answers (R88). -/
def respChannel (ch : BitVec 8) : RespWord := ch.setWidth 32

/-- The number of buffers filled, "capped at `0xFFFFFFFC`" (R88, 44_scheduler.md R231). -/
def respCount (n : Nat) : RespWord := BitVec.ofNat 32 (min n 0xFFFFFFFC)

/-- `ADPCM = 0`, `RAW = 1` (10_state.md R24). -/
def Format.code : Format → Nat
  | .adpcm => 0
  | .raw   => 1

/-- `None = 0`, `FadingOut = 1`, `FadingIn = 2`, `Silent = 3` (10_state.md R36). -/
def FadeState.code : FadeState → BitVec 2
  | .none      => 0
  | .fadingOut => 1
  | .fadingIn  => 2
  | .silent    => 3

/-- The codes of 60_exceptions.md R263. -/
def FaultReason.code : FaultReason → BitVec 8
  | .none      => 0
  | .pitchZero => 1
  | .srcBus    => 2

/-- "A channel is *active* iff `decodedCount != 0`" (10_state.md R32). -/
def Channel.active (c : Channel) : Bool := c.decodedCount != 0

/-- What `IS_FADING` answers (43_fade.md R215). -/
def FadeState.isFading : FadeState → Bool
  | .fadingOut | .fadingIn => true
  | .none | .silent        => false

/-- The fade state a request leaves (43_fade.md R214): `true` asks for a fade in. -/
def FadeState.request (arg : Bool) (f : FadeState) : FadeState :=
  match arg, f with
  | false, .none      => .fadingOut
  | false, .fadingIn  => .fadingOut
  | false, .fadingOut => .fadingOut
  | false, .silent    => .silent
  | true,  .silent    => .fadingIn
  | true,  .fadingOut => .fadingIn
  | true,  .fadingIn  => .fadingIn
  | true,  .none      => .none

/-- The gate of the channel commands: `initialized` and `ch < NUM_CHANNELS` (41_channel_manager.md R140). -/
def gate (s : State) (ch : BitVec 8) : Bool := s.initialized && decide (ch.toNat < s.cfg.numChannels)

end Sys2Proof.Machine
end

