-- ==== Sys2Proof/Machine/Operands.lean ====
section
/-! DEFINITION. The integer operators of 00_scope.md R12, the list slice of R15, and the assembly of the operands
that stand in source memory: little-endian values (20_memory.md R53), the lump header (30_encoding.md R92, R93),
the fields of a nibble (R95, R96). Command operands are taken in Decode.lean, unsigned (R89). -/

namespace Sys2Proof.Machine

/-- `asr(a, n)`, "equal to `fdiv(a, 2^n)`" (R12). -/
def asr (a : Int) (n : Nat) : Int := a.fdiv (2 ^ n)

/-- `clamp(v, lo, hi)` (R12). -/
def clamp (v lo hi : Int) : Int := if v < lo then lo else if hi < v then hi else v

/-- `sat16(v)` (R12). -/
def sat16 (v : Int) : Int := clamp v (-32768) 32767

/-- `sext_N(v)`: the N-bit pattern `v` read as two's complement (R12). -/
def sext (w v : Nat) : Int := (BitVec.ofNat w v).toInt

/-- `xs[i:j]` (R15). -/
def slice (xs : List Byte) (i j : Nat) : List Byte := (xs.drop i).take (j - i)

/-- Byte `i` of a list that holds it. -/
def byteOf (bs : List Byte) (i : Nat) : Nat := (bs.getD i 0).toNat

/-- `LE16(bs)` (R53). -/
def le16 (bs : List Byte) : Nat := byteOf bs 0 + byteOf bs 1 * 2 ^ 8

/-- `LE32(bs)` (R53). -/
def le32 (bs : List Byte) : Nat := le16 (slice bs 0 2) + le16 (slice bs 2 4) * 2 ^ 16

/-- The fields of a lump header (R92). -/
structure LumpHeader where
  tag      : Nat
  rate     : Nat
  declared : Int
  deriving DecidableEq, Repr

/-- The header in 8 bytes: tag at 0, rate at 2, signed declared length at 4 (R92, D15, D16). -/
def lumpHeader (hdr : List Byte) : LumpHeader where
  tag      := le16 (slice hdr 0 2)
  rate     := le16 (slice hdr 2 4)
  declared := sext 32 (le32 (slice hdr 4 8))

/-- `0x8003` is ADPCM, `RAW_FORMAT_TAG` is raw, "any other tag ⇒ failure" (R93). -/
def formatOf (c : Config) (tag : Nat) : Option Format :=
  if tag = 0x8003 then some .adpcm
  else if tag = c.rawFormatTag.toNat then some .raw
  else none

/-- The two nibbles of an ADPCM data byte, low one first (R95, D18; log 13). -/
def nibbles (b : Byte) : List (BitVec 4) := [b.extractLsb' 0 4, b.extractLsb' 4 4]

/-- `n[2:0]`, the magnitude code (R96). -/
def nibbleMagnitude (n : BitVec 4) : BitVec 3 := n.extractLsb' 0 3

end Sys2Proof.Machine
end

