-- ==== Sys2Proof/Machine/Ops.lean ====
section
/-! DEFINITION. The named operations over the state: source memory and the asset port (20_memory.md R51, R55), the
channel file (R23, R150), the response and the fault (60_exceptions.md R262), the sink and its draws
(44_scheduler.md R233 to R237), reset (70_reset_and_hazards.md R290) and the host's queue. -/

namespace Sys2Proof.Machine

/-- The three outcomes of a step of this machine. -/
abbrev Result := Host.Outcome State Fault Refusal

/-! ## Source memory -/

/-- The canonical form: addresses strictly rising, all inside the 32-bit space (R50). An unlisted address holds no
byte, so no entry can equal what it reads as (log 4). -/
abbrev Memory.wf (m : Memory) : Prop :=
  m.Pairwise (fun x y => x.1 < y.1) ∧ ∀ x ∈ m, x.1 < 2 ^ 32

/-- The byte at an address, none where nothing is resident. -/
def Memory.read : Memory → Nat → Option Byte
  | [], _ => none
  | (k, b) :: rest, a => if k = a then some b else Memory.read rest a

/-- Put a byte at its place in the list. -/
def Memory.place : Memory → Nat → Byte → Memory
  | [], a, b => [(a, b)]
  | (k, c) :: rest, a, b =>
    if a < k then (a, b) :: (k, c) :: rest
    else if a = k then (a, b) :: rest
    else (k, c) :: Memory.place rest a b

/-- Make a byte resident (R292: the host's duty before a lump is started; no step of the block writes source memory,
R52). Outside the 32-bit space there is no address. -/
def Memory.write (m : Memory) (a : Nat) (b : Byte) : Memory := if a < 2 ^ 32 then Memory.place m a b else m

/-- Make consecutive bytes resident. -/
def Memory.load : Memory → Nat → List Byte → Memory
  | m, _, [] => m
  | m, a, b :: bs => Memory.load (Memory.write m a b) (a + 1) bs

/-- The address lies in the span. -/
def Span.covers (r : Span) (a : Nat) : Bool := decide (r.base ≤ a) && decide (a < r.base + r.len)

/-- The byte a read of one address gives: the address must lie in a span named in a hit (R51) and be backed
(R263, "the asset port named a span it cannot back"). -/
def byteAt (s : State) (a : Nat) : Option Byte :=
  if s.named.any (fun r => r.covers a) then Memory.read s.mem a else none

/-- The bytes at `a .. a+n-1`, none if one of them cannot be read. -/
def readBytes (s : State) (a : Nat) : Nat → Option (List Byte)
  | 0 => some []
  | n + 1 =>
    match byteAt s a, readBytes s (a + 1) n with
    | some b, some bs => some (b :: bs)
    | _, _ => none

/-- `MemRead(addr, n)` (R51): none where the read is not admitted. Reading 0 bytes reads nothing. -/
def memRead (s : State) (addr n : Nat) : Option (List Byte) :=
  if n = 0 then some []
  else if addr + n ≤ 2 ^ 32 then readBytes s addr n
  else none

/-- Keep the span of a hit among those named in this run (R51; log 5). -/
def noteSpan (s : State) (h : Hit) : State :=
  let r : Span := ⟨h.base.toNat, h.len⟩
  if r ∈ s.named then s else { s with named := s.named ++ [r] }

/-- The asset port's answer (R55): a fixed function of `sid` (log 14). -/
def assetOf (c : Config) (sid : BitVec 16) : Option Hit :=
  match c.assets.find? (fun e => e.sid == sid) with
  | some e => some e.hit
  | none   => none

/-- `AssetLookup(sid)`: the state after it, in which a hit's span counts as named (R51, R55). -/
def afterLookup (s : State) (sid : BitVec 16) : State :=
  match assetOf s.cfg sid with
  | some h => noteSpan s h
  | none   => s

/-! ## Response and fault -/

/-- `resp <- v` (00_scope.md R13). -/
def respond (s : State) (v : RespWord) : State := { s with resp := v }

/-- `raise Fault(reason)` (R262): the one way a fault is taken. What the command wrote before it is kept. There is
no trap return (R269): only `applyReset` clears `faulted`. -/
def raiseFault (s : State) (r : FaultReason) : State :=
  { s with faulted := true, faultReason := r, resp := respFaulted }

/-- The first line of the command preamble (R262): a faulted block answers `RESP_FAULTED` and does nothing else. -/
def preamble (s : State) (body : State → Result) : Result :=
  if s.faulted then .next (respond s respFaulted) else body s

/-- What an illegal word does (R262, R265). -/
def illegalWord (s : State) : Result := preamble s fun s => .next (respond s respIllegal)

/-! ## Channel file -/

/-- `ch[c]`. -/
def chan (s : State) (c : Nat) : Channel := s.ch.getD c (Channel.reset s.cfg)

/-- `ch[c] <- x`. -/
def setChan (s : State) (c : Nat) (x : Channel) : State := { s with ch := s.ch.set c x }

/-- What `Stop` does to a channel record (41_channel_manager.md R150). -/
def Channel.stopped (x : Channel) : Channel := { x with decodedCount := 0 }

/-- `Stop(c)` (41_channel_manager.md R150). -/
def stopChannel (s : State) (c : Nat) : State := setChan s c (chan s c).stopped

/-- `for c in 0 .. NUM_CHANNELS-1: Stop(c)` (44_scheduler.md R238, R239). -/
def stopAll (s : State) : State := { s with ch := s.ch.map Channel.stopped }

/-! ## Draws -/

/-- The answer of the next `SinkSetup` (44_scheduler.md R237; log 7). -/
def setupAnswer (d : Draws) : Bool :=
  match d.setup with
  | b :: _ => b
  | []     => Config.freeSetup d.next

/-- `SinkSetup` draws its answer. -/
def Draws.afterSetup (d : Draws) : Draws := { d with setup := d.setup.tail, next := d.next + 1 }

/-- Element `i` of the content the music port gives next (44_scheduler.md R232; log 8). -/
def musicElement (d : Draws) (i : Nat) : Pcm :=
  match d.music with
  | m :: _ => m.getD i (Config.freeMusic d.next i)
  | []     => Config.freeMusic d.next i

/-- The music port's content is drawn. -/
def Draws.afterMusic (d : Draws) : Draws := { d with music := d.music.tail, next := d.next + 1 }

/-- Which of `n` empty buffers the next take returns (44_scheduler.md R233; log 10). -/
def pickIndex (d : Draws) (n : Nat) : Nat :=
  (match d.picks with
   | p :: _ => p
   | []     => Config.freePick d.next) % n

/-- The sink's choice of a buffer is drawn. -/
def Draws.afterPick (d : Draws) : Draws := { d with picks := d.picks.tail, next := d.next + 1 }

/-! ## Sink -/

/-- One sink play step (44_scheduler.md R235): the buffer at the head of the queue is played, its `n` samples in
element order, and returned to the pool. With nothing queued there is no such step. -/
def playOnce (s : State) : State :=
  match s.filled with
  | [] => s
  | f :: rest =>
    { s with filled := rest, empty := s.empty ++ [f.buffer], played := s.played ++ [f.buffer.samples.take f.count] }

/-- Some play steps in a row. -/
def playSteps : Nat → State → State
  | 0, s => s
  | k + 1, s => playSteps k (playOnce s)

/-- A point between two core steps of `UPDATE_SOUND`, where "steps of the sink may run" (44_scheduler.md R231): as
many as the schedule says, while something is queued (log 9). -/
def sinkPoint (s : State) : State :=
  playSteps (min (s.draws.plays.headD 0) s.filled.length) { s with draws := { s.draws with plays := s.draws.plays.tail } }

/-- `SinkTake()` (44_scheduler.md R233): none where no buffer is `Empty`, else the buffer the sink chose, moved to
`Core`. -/
def sinkTake (s : State) : Option (Buffer × State) :=
  let i := pickIndex s.draws s.empty.length
  match s.empty[i]? with
  | none => none
  | some b => some (b, { s with empty := s.empty.eraseIdx i, core := some b, draws := s.draws.afterPick })

/-- `SinkGive(b, n)` for the buffer in `Core` (44_scheduler.md R234): to the tail of the queue. -/
def sinkGive (s : State) (n : Nat) : State :=
  match s.core with
  | none => s
  | some b => { s with core := none, filled := s.filled ++ [⟨b, n⟩] }

/-- A buffer as the sink may see it in bytes: element `i` at bytes `2i` (low) and `2i+1` (high) (20_memory.md R54). -/
def bufferBytes (buf : List Pcm) : List Byte := buf.flatMap fun x => [x.extractLsb' 0 8, x.extractLsb' 8 8]

/-- "The observation of a run": the buffers played and the responses, each oldest first (00_scope.md R18). -/
def observation (s : State) : List (List Pcm) × List RespWord := (s.played, s.responses)

/-! ## Reset and the host's queue -/

/-- Reset (70_reset_and_hazards.md R290): every piece of the block's state to its reset value. Parameters and source
memory are not state of the block (10_state.md R20, 20_memory.md R56), and what the outside does and has observed
goes on (log 15). -/
def applyReset (s : State) : State :=
  { State.resetWith s.cfg with
    mem := s.mem, inputs := s.inputs, draws := s.draws, played := s.played, responses := s.responses }

/-- The host issues a word as the very next thing (log 6). -/
def issue (s : State) (w : CmdWord) : State := { s with inputs := .command w :: s.inputs }

/-- The host reads the response of the command just executed (00_scope.md R8; log 6). -/
def answered (r : Result) : Result :=
  match r with
  | .next s    => .next { s with responses := s.responses ++ [s.resp] }
  | .fault f   => .fault f
  | .refused x => .refused x

end Sys2Proof.Machine
end

