-- ==== Sys2Proof/Machine/Decoder.lean ====
section
/-! DEFINITION. The ADPCM block decoder and the raw-PCM path (40_adpcm_decoder.md). Not commands: `START_SOUND` and
the mixer call `decodeNext`. -/

namespace Sys2Proof.Machine

/-- The decoder's accumulator and step-table index (R115). -/
structure Accum where
  acc : Int
  idx : Fin 89
  deriving DecidableEq, Repr

/-- `delta` of a nibble at a step (R116): the base `step >> 3`, the additions of bits 0, 1, 2, the sign of bit 3. -/
def nibbleDelta (step : Nat) (n : BitVec 4) : Int :=
  let d : Nat := step / 2 ^ 3 + (if n.getLsbD 0 then step / 2 ^ 2 else 0) + (if n.getLsbD 1 then step / 2 else 0) +
    (if n.getLsbD 2 then step else 0)
  if n.getLsbD 3 then -(d : Int) else d

/-- `clamp(i, 0, 88)` as an index (R116). -/
def clampIndex (i : Int) : Fin 89 := ⟨(clamp i 0 88).toNat, by unfold clamp; split <;> [decide; split <;> omega]⟩

/-- One nibble (R116): the step is looked up before the index changes. -/
def nibbleStep (tbl : Vector (BitVec 16) 89) (a : Accum) (n : BitVec 4) : Accum where
  acc := sat16 (a.acc + nibbleDelta (tbl.get a.idx).toNat n)
  idx := clampIndex (a.idx.val + indexTable.get (nibbleMagnitude n).toFin)

/-- "Emit the high byte" (R115, R116). -/
def highByte (acc : Int) : Sample := BitVec.ofInt 8 (asr acc 8)

/-- The samples of a run of nibbles. -/
def decodeNibbles (tbl : Vector (BitVec 16) 89) : Accum → List (BitVec 4) → List Sample
  | _, [] => []
  | a, n :: ns =>
    let a' := nibbleStep tbl a n
    highByte a'.acc :: decodeNibbles tbl a' ns

/-- `DecodeADPCM(blk)` (R113 to R116); the empty list is "no usable audio in this block". -/
def decodeAdpcm (tbl : Vector (BitVec 16) 89) (blk : List Byte) : List Sample :=
  if blk.length < 4 then []
  else
    let seed := sext 16 (le16 (slice blk 0 2))
    let index := byteOf blk 2
    if h : 88 < index ∨ byteOf blk 3 ≠ 0 then []
    else highByte seed :: decodeNibbles tbl ⟨seed, ⟨index, by omega⟩⟩ ((blk.drop 4).flatMap nibbles)

/-- `DecodeRaw(bs)`: each byte is its own sample (R121, 30_encoding.md R97). -/
def decodeRaw (bs : List Byte) : List Sample := bs.map fun b => b

/-- How many bytes the next block takes at most (R122). -/
def blockBytes (c : Config) : Format → Nat
  | .adpcm => c.adpcmBlockBytes
  | .raw   => c.rawBlockBytes

/-- The samples of a block in a format (R122). -/
def decodeBlock (c : Config) : Format → List Byte → List Sample
  | .adpcm, bs => decodeAdpcm c.stepTable bs
  | .raw, bs   => decodeRaw bs

/-- How much payload is left: `srcEnd - srcPos` (R122). -/
def Channel.remaining (x : Channel) : Nat := x.srcEnd.toNat - x.srcPos.toNat

/-- `decodedBlock[0 : len(s)] <- s; decodedCount <- len(s)` with the cursor moved by `n` (R122). Elements past the
new ones stay as they were (R31; log 12). -/
def Channel.take (x : Channel) (n : Nat) (smp : List Sample) : Channel :=
  { x with
    srcPos := BitVec.ofNat 33 (x.srcPos.toNat + n)
    decodedBlock := smp ++ x.decodedBlock.drop smp.length
    decodedCount := BitVec.ofNat 16 smp.length }

/-- `DecodeNext` on a channel record (R122): none where the read is not admitted (`SRC_BUS`), with nothing
written. -/
def decodeNext (s : State) (x : Channel) : Option Channel :=
  let n := min (blockBytes s.cfg x.format) x.remaining
  match memRead s x.srcPos.toNat n with
  | none => none
  | some bs => some (x.take n (decodeBlock s.cfg x.format bs))

end Sys2Proof.Machine
end

