-- ==== Sys2Proof/Machine/ChannelManager.lean ====
section
/-! DEFINITION. The channel-manager commands (41_channel_manager.md). -/

namespace Sys2Proof.Machine

/-- `StepOf(rate, pitch)` for `pitch >= 1`, with exact intermediates (R143, D21). -/
def stepOf (c : Config) (rate pitch : Nat) : Nat := (rate * pitch * 2 ^ 16) / (c.outRate * pitch)

/-- `SmoothCoefOf(rate)` (R144). -/
def smoothCoefOf (c : Config) (rate : Nat) : Nat := (256 * 201 * rate) / (201 * rate + 64 * c.outRate)

/-- The left gain of `Gains(vol, sep)` (R145). -/
def leftGain (vol sep : Nat) : Int := clamp ((((254 : Int) - sep) * vol).tdiv 127 |>.tdiv 4) 0 255

/-- The right gain of `Gains(vol, sep)` (R145). -/
def rightGain (vol sep : Nat) : Int := clamp ((((sep : Int) * vol).tdiv 127).tdiv 4) 0 255

/-- Store `Gains(vol, sep)` in a channel (R145, R148). -/
def Channel.withGains (x : Channel) (vol sep : BitVec 8) : Channel :=
  { x with
    leftVol := BitVec.ofInt 8 (leftGain vol.toNat sep.toNat)
    rightVol := BitVec.ofInt 8 (rightGain vol.toNat sep.toNat) }

/-- The payload length, "`min(declaredLength, spanLength-8)`" (R142). -/
def payloadLength (declared : Int) (len : Nat) : Int := min declared ((len : Int) - 8)

/-- The channel as step 11 of R141 leaves it, before the first decode. -/
def Channel.started (x : Channel) (c : Config) (fmt : Format) (base plen rate pitch : Nat) : Channel :=
  { x with
    format := fmt
    srcPos := BitVec.ofNat 33 (base + 8)
    srcEnd := BitVec.ofNat 33 (base + 8 + plen)
    offset := 0
    step := BitVec.ofNat 32 (stepOf c rate pitch)
    smoothCoef := BitVec.ofNat 9 (smoothCoefOf c rate)
    smoothPrev := 0 }

/-- Steps 11 to 14 of R141: set the channel up, decode its first block, apply the gains, answer the index. A first
block that decodes to nothing is no failure (R146). -/
def beginPlayback (s : State) (ch vol sep pitch : BitVec 8) (fmt : Format) (base plen rate : Nat) : State :=
  let x := (chan s ch.toNat).started s.cfg fmt base plen rate pitch.toNat
  match decodeNext s x with
  | none => raiseFault (setChan s ch.toNat x) .srcBus
  | some y => respond (setChan s ch.toNat (y.withGains vol sep)) (respChannel ch)

/-- Steps 6 to 8 of R141 on a header read, then the rest. -/
def checkHeader (s : State) (ch vol sep pitch : BitVec 8) (h : Hit) (hdr : LumpHeader) : State :=
  match formatOf s.cfg hdr.tag with
  | none => respond s respFail
  | some fmt =>
    if payloadLength hdr.declared h.len ≤ 0 then respond s respFail
    else if pitch = 0 then raiseFault s .pitchZero
    else beginPlayback s ch vol sep pitch fmt h.base.toNat (payloadLength hdr.declared h.len).toNat hdr.rate

/-- Steps 4 and 5 of R141 on the asset port's answer, then the rest. -/
def startLump (s : State) (ch vol sep pitch : BitVec 8) (h : Hit) : State :=
  if h.len < 8 then respond s respFail
  else
    match memRead s h.base.toNat 8 with
    | none => raiseFault s .srcBus
    | some hdr => checkHeader s ch vol sep pitch h (lumpHeader hdr)

/-- Steps 2 and 3 of R141, then the rest: the stop comes before the lookup (R147, C2). -/
def startChannel (s : State) (sid : BitVec 16) (ch vol sep pitch : BitVec 8) : State :=
  let s1 := afterLookup (stopChannel s ch.toNat) sid
  match assetOf s.cfg sid with
  | none => respond s1 respFail
  | some h => startLump s1 ch vol sep pitch h

/-- `START_SOUND sid, ch, vol, sep, pitch` (R141). -/
def execStartSound (sid : BitVec 16) (ch vol sep pitch : BitVec 8) (s : State) : Result :=
  preamble s fun s => .next (if gate s ch then startChannel s sid ch vol sep pitch else respond s respFail)

/-- `UPDATE_PARAMS ch, vol, sep` (R148). -/
def execUpdateParams (ch vol sep : BitVec 8) (s : State) : Result :=
  preamble s fun s => .next (respond
    (if gate s ch then setChan s ch.toNat ((chan s ch.toNat).withGains vol sep) else s) respOk)

/-- `STOP_SOUND ch` (R151). -/
def execStopSound (ch : BitVec 8) (s : State) : Result :=
  preamble s fun s => .next (respond (if gate s ch then stopChannel s ch.toNat else s) respOk)

/-- `IS_PLAYING ch` (R152). -/
def execIsPlaying (ch : BitVec 8) (s : State) : Result :=
  preamble s fun s => .next (respond s (respBool (gate s ch && (chan s ch.toNat).active)))

/-- `LOOKUP sid` (R154). -/
def execLookup (sid : BitVec 16) (s : State) : Result :=
  preamble s fun s => .next (respond (afterLookup s sid)
    (match assetOf s.cfg sid with
     | some h => h.lumpNo
     | none   => respFail))

/-- `PRECACHE` (R155). -/
def execPrecache (s : State) : Result := preamble s fun s => .next (respond s respOk)

end Sys2Proof.Machine
end

