-- ==== Sys2Proof/Machine/Fade.lean ====
section
/-! DEFINITION. The fade controller (43_fade.md): the ramp, its application to a buffer, and its two commands. -/

namespace Sys2Proof.Machine

/-- The fade's state and level (10_state.md R36, R37). -/
structure Fade where
  state : FadeState
  level : BitVec 17
  deriving DecidableEq, Repr

/-- The ramp step of one frame (R211). -/
def rampStep (c : Config) (f : Fade) : Fade :=
  match f.state with
  | .fadingOut =>
    let l := f.level.toNat - c.fadeStep
    ⟨if l = 0 then .silent else .fadingOut, BitVec.ofNat 17 l⟩
  | .fadingIn =>
    let l := min 65536 (f.level.toNat + c.fadeStep)
    ⟨if l = 65536 then .none else .fadingIn, BitVec.ofNat 17 l⟩
  | .none | .silent => f

/-- What the fade makes of one element (R212). -/
def fadeElement (f : Fade) (x : Pcm) : Pcm :=
  match f.state with
  | .silent => 0
  | .none   => x
  | .fadingOut | .fadingIn => BitVec.ofInt 16 (asr (x.toInt * f.level.toNat) 16)

/-- What `FadeBuffer` leaves. -/
structure Faded where
  fade : Fade
  buf  : List Pcm
  deriving DecidableEq, Repr

/-- `FadeBuffer(b)` (R213): frame by frame, first the ramp step, then the scaling. -/
def fadeBuffer (c : Config) : Fade → List Pcm → Faded
  | f, l :: r :: rest =>
    let f' := rampStep c f
    let out := fadeBuffer c f' rest
    { out with buf := fadeElement f' l :: fadeElement f' r :: out.buf }
  | f, buf => ⟨f, buf⟩

/-- `FADE_TO arg` (R214). -/
def execFadeTo (arg : Bool) (s : State) : Result :=
  preamble s fun s => .next (respond { s with fadeState := s.fadeState.request arg } respOk)

/-- `IS_FADING` (R215). -/
def execIsFading (s : State) : Result :=
  preamble s fun s => .next (respond s (respBool s.fadeState.isFading))

end Sys2Proof.Machine
end

