-- ==== Sys2Proof/Machine/Mixer.lean ====
section
/-! DEFINITION. The mixer (42_mixer.md): resampler, smoothing, stereo mix with saturation. Not a command: it runs
inside `UPDATE_SOUND`. -/

namespace Sys2Proof.Machine

/-- `decodedBlock[offset >> 16]` (R183), none where that element holds no value (10_state.md R31; log 11). -/
def Channel.sample (x : Channel) : Option Sample :=
  let i := x.offset.toNat / 2 ^ 16
  if i < x.decodedCount.toNat then x.decodedBlock[i]? else none

/-- The sample a frame contributes (R184): the blend of the previous smoothed value and the raw sample, or the raw
sample. -/
def smoothed (c : Config) (x : Channel) (raw : Int) : Int :=
  if c.smoothingEnabled then
    let alpha : Int := x.smoothCoef.toNat
    let beta : Int := 256 - alpha
    (x.smoothPrev.toInt * beta).tdiv 256 + (raw * alpha).tdiv 256
  else raw

/-- `ch[c].smoothPrev <- s`, only where smoothing is enabled (R184, 10_state.md R30). -/
def Channel.remember (x : Channel) (c : Config) (smp : Int) : Channel :=
  if c.smoothingEnabled then { x with smoothPrev := BitVec.ofInt 8 smp } else x

/-- One lane's add: `sat16(b + s * gain)` on store (R185). -/
def mixLane (old : Pcm) (smp : Int) (gain : BitVec 8) : Pcm := BitVec.ofInt 16 (sat16 (old.toInt + smp * gain.toNat))

/-- `offset <- offset + step` (R187). -/
def Channel.advance (x : Channel) : Channel := { x with offset := BitVec.ofNat 64 (x.offset.toNat + x.step.toNat) }

/-- The length of the decoded block in `offset`'s scale: `decodedCount << 16` (R187). -/
def Channel.blockEnd (x : Channel) : Nat := x.decodedCount.toNat * 2 ^ 16

/-- `offset <- offset - (decodedCount << 16)` (R187). -/
def Channel.wrapBlock (x : Channel) : Channel := { x with offset := BitVec.ofNat 64 (x.offset.toNat - x.blockEnd) }

/-- How a piece of mixing ended. -/
inductive Verdict where
  /-- To its end. -/
  | ok
  /-- `Fault(SRC_BUS)` (R182). -/
  | bus
  /-- A sample that holds no value was to be played (log 11). -/
  | noValue
  /-- The bound on block decodes was met; no state reaches this (44_scheduler.md R236; log 11). -/
  | endless
  deriving DecidableEq, Repr

/-- What the block crossing of a frame leaves: how it ended, whether the channel stopped, the channel. -/
structure Crossed where
  verdict : Verdict
  stopped : Bool
  chan    : Channel
  deriving DecidableEq, Repr

/-- The `while` of R182 and R187, with a bound on its turns: subtract the block's length, decode the next block,
stop if it is empty, test again. -/
def crossBlocks (s : State) : Nat → Channel → Crossed
  | 0, x => ⟨.endless, false, x⟩
  | k + 1, x =>
    if x.blockEnd ≤ x.offset.toNat then
      match decodeNext s x.wrapBlock with
      | none => ⟨.bus, false, x.wrapBlock⟩
      | some y => if y.decodedCount = 0 then ⟨.ok, true, y⟩ else crossBlocks s k y
    else ⟨.ok, false, x⟩

/-- The bound: every decode takes a byte of payload or stops the channel (44_scheduler.md R236). -/
def crossBound (x : Channel) : Nat := x.remaining + 1

/-- What the mixing of one channel leaves: how it ended, the channel, the buffer's elements. -/
structure Mixed where
  verdict : Verdict
  chan    : Channel
  buf     : List Pcm
  deriving DecidableEq, Repr

/-- The channel after a frame's sample is added and the position advanced, before the crossing test (R182, R184,
R187). -/
def Channel.played (x : Channel) (c : Config) (raw : Sample) : Channel :=
  (x.remember c (smoothed c x raw.toInt)).advance

/-- The block crossing of a frame (R187). -/
def crossFrame (s : State) (x : Channel) : Crossed := crossBlocks s (crossBound x) x

/-- `MixChannel` (R182): the frame loop of one channel over the interleaved elements, element `2k` then `2k+1`. -/
def mixChannel (s : State) : Channel → List Pcm → Mixed
  | x, l :: r :: rest =>
    match x.sample with
    | none => ⟨.noValue, x, l :: r :: rest⟩
    | some raw =>
      let smp := smoothed s.cfg x raw.toInt
      let l' := mixLane l smp x.leftVol
      let r' := mixLane r smp x.rightVol
      let cr := crossFrame s (x.played s.cfg raw)
      if cr.verdict = .ok ∧ cr.stopped = false then
        let out := mixChannel s cr.chan rest
        ⟨out.verdict, out.chan, l' :: r' :: out.buf⟩
      else ⟨cr.verdict, cr.chan, l' :: r' :: rest⟩
  | x, buf => ⟨.ok, x, buf⟩

/-- What the mixing of all channels leaves. -/
structure MixedAll where
  verdict : Verdict
  chans   : List Channel
  buf     : List Pcm
  deriving DecidableEq, Repr

/-- `MixChannels` (R181): every active channel in increasing index; a fault ends it, and the later channels are left
as they were. -/
def mixChannels (s : State) : List Channel → List Pcm → MixedAll
  | [], buf => ⟨.ok, [], buf⟩
  | x :: xs, buf =>
    if x.active then
      let m := mixChannel s x buf
      if m.verdict = .ok then
        let out := mixChannels s xs m.buf
        ⟨out.verdict, m.chan :: out.chans, out.buf⟩
      else ⟨m.verdict, m.chan :: xs, m.buf⟩
    else
      let out := mixChannels s xs buf
      ⟨out.verdict, x :: out.chans, out.buf⟩

end Sys2Proof.Machine
end

