-- ==== Sys2Proof/Machine/Scheduler.lean ====
section
/-! DEFINITION. The buffer exchange scheduler, the music port and the system commands (44_scheduler.md). -/

namespace Sys2Proof.Machine

/-! ## Filling one buffer -/

/-- The base content of a buffer (R232): the music port's draw, or silence. -/
def baseContent (s : State) : List Pcm :=
  if s.musicEnabled then (List.range (2 * s.cfg.bufferFrames)).map (musicElement s.draws)
  else List.replicate (2 * s.cfg.bufferFrames) 0

/-- The music port is asked exactly once per buffer filled while `musicEnabled`, and never otherwise (R232). -/
def afterBase (s : State) : State := if s.musicEnabled then { s with draws := s.draws.afterMusic } else s

/-- How filling a buffer ended: filled, faulted as R264 says, or stopped by the model. -/
inductive FillResult where
  | done (s : State)
  | raised (s : State)
  | stuck (f : Fault)
  deriving DecidableEq, Repr

/-- `FillBuffer(b)` for the buffer `b` in `Core` (R232): base content, channel sum, fade. On a fault the buffer stays
in `Core` with what was mixed so far (60_exceptions.md R262, R264). -/
def fillBuffer (s : State) (b : Buffer) : FillResult :=
  let s1 := afterBase s
  let m := mixChannels s1 s1.ch (baseContent s)
  match m.verdict with
  | .ok =>
    let f := fadeBuffer s1.cfg ⟨s1.fadeState, s1.fadeLevel⟩ m.buf
    .done { s1 with
      ch := m.chans, fadeState := f.fade.state, fadeLevel := f.fade.level, core := some { b with samples := f.buf } }
  | .bus => .raised (raiseFault { s1 with ch := m.chans, core := some { b with samples := m.buf } } .srcBus)
  | .noValue => .stuck .sampleNoValue
  | .endless => .stuck .endless

/-! ## `UPDATE_SOUND` -/

/-- The loop of R231, with a bound on its turns and `n` buffers given so far. Sink play steps run at the points
before each take, each fill and each give (log 9). -/
def updateLoop : Nat → State → Nat → Result
  | 0, _, _ => .fault .endless
  | k + 1, s, n =>
    match sinkTake (sinkPoint s) with
    | none => .next (respond (sinkPoint s) (respCount n))
    | some (b, s1) =>
      match fillBuffer (sinkPoint s1) b with
      | .done s2 => updateLoop k (sinkGive (sinkPoint s2) (2 * s2.cfg.bufferFrames)) (n + 1)
      | .raised s2 => .next s2
      | .stuck f => .fault f

/-- The bound: a turn takes an empty buffer, and a buffer becomes empty only by a play step, of which there are
finitely many (70_reset_and_hazards.md R299). -/
def updateBound (s : State) : Nat := s.empty.length + s.draws.plays.sum + 1

/-- `UPDATE_SOUND` (R231). -/
def execUpdateSound (s : State) : Result :=
  preamble s fun s => if s.initialized then updateLoop (updateBound s) s 0 else .next (respond s respOk)

/-! ## System commands -/

/-- `INIT` (R238). -/
def execInit (s : State) : Result :=
  preamble s fun s => .next (
    if s.initialized then respond s respOk
    else
      let s1 := { s with draws := s.draws.afterSetup }
      if setupAnswer s.draws then respond { stopAll s1 with initialized := true } respOk
      else respond s1 respFail)

/-- `SHUTDOWN` (R239). -/
def execShutdown (s : State) : Result :=
  preamble s fun s => .next (respond { stopAll s with initialized := false } respOk)

/-- `SET_MUSIC arg` (R240). -/
def execSetMusic (arg : Bool) (s : State) : Result :=
  preamble s fun s => .next (respond { s with musicEnabled := arg } respOk)

end Sys2Proof.Machine
end

