-- ==== Sys2Proof/Machine/Dispatch.lean ====
section
/-! DEFINITION. One arm per command of the opcode map (30_encoding.md R86), each one call of its meaning. -/

namespace Sys2Proof.Machine

def exec (i : Instr) (s : State) : Host.Outcome State Fault Refusal :=
  match i with
  | .init => Sys2Proof.Machine.execInit s
  | .shutdown => Sys2Proof.Machine.execShutdown s
  | .lookup sid => Sys2Proof.Machine.execLookup sid s
  | .startSound sid ch vol sep pitch => Sys2Proof.Machine.execStartSound sid ch vol sep pitch s
  | .updateParams ch vol sep => Sys2Proof.Machine.execUpdateParams ch vol sep s
  | .stopSound ch => Sys2Proof.Machine.execStopSound ch s
  | .isPlaying ch => Sys2Proof.Machine.execIsPlaying ch s
  | .updateSound => Sys2Proof.Machine.execUpdateSound s
  | .precache => Sys2Proof.Machine.execPrecache s
  | .setMusic arg => Sys2Proof.Machine.execSetMusic arg s
  | .fadeTo arg => Sys2Proof.Machine.execFadeTo arg s
  | .isFading => Sys2Proof.Machine.execIsFading s

end Sys2Proof.Machine
end

