-- ==== Sys2Proof/Machine/Sequencer.lean ====
section
/-! DEFINITION. What one step serves: the block fetches nothing (10_state.md R21); the host sequences commands
(R33), the sink plays on its own (44_scheduler.md R235), and reset comes from outside (70_reset_and_hazards.md
R290). -/

namespace Sys2Proof.Machine

/-- A command word reaches the block: the preamble and the command's own rule (60_exceptions.md R262). -/
def serveWord (w : CmdWord) (s : State) : Result :=
  match decode w with
  | .ok i    => exec i s
  | .error _ => illegalWord s

/-- One event (log 6). -/
def serve (e : Event) (s : State) : Result :=
  match e with
  | .command w => answered (serveWord w s)
  | .sinkPlay  => .next (playOnce s)
  | .reset     => .next (applyReset s)

/-- The next event, if there is one; else the block is idle (00_scope.md R18). -/
def serveNext (s : State) : Result :=
  match s.inputs with
  | []        => .next s
  | e :: rest => serve e { s with inputs := rest }

end Sys2Proof.Machine
end

