-- ==== Sys2Proof/Machine/Step.lean ====
section
/-! DEFINITION. One step of the machine, and where the next command stands. -/

namespace Sys2Proof.Machine

/-- One step: the next event from outside is served (log 6). -/
def step (s : State) : Host.Outcome State Fault Refusal := serveNext s

/-- `s` with a command whose bits are `w` as the very next thing the host issues (log 6). -/
def State.withFetchWord (s : State) (nbits w : Nat) : State := issue s (BitVec.ofNat 64 (w % 2 ^ nbits))

end Sys2Proof.Machine
end

