-- ==== Sys2Proof/Safety.lean ====
section
/-! DEFINITION. What counts as a safe state, in the terms the claims use: the ranges and relations the spec derives
for its state (10_state.md R25 to R38, 20_memory.md R58), and what the asset port owes (R55). -/

namespace Sys2Proof.Machine

/-- The ranges of one channel record: the block has its capacity and `decodedCount` stays within it (10_state.md R31),
the cursor is not past the end (R25), the coefficient is at most 255 (R29), the gains are within 41_channel_manager.md
R145. -/
abbrev Channel.InRange (c : Config) (x : Channel) : Prop :=
  x.decodedBlock.length = c.decodeCap ∧ x.decodedCount.toNat ≤ c.decodeCap ∧ x.srcPos.toNat ≤ x.srcEnd.toNat ∧
  x.smoothCoef.toNat ≤ 255 ∧ x.leftVol.toNat ≤ 127 ∧ x.rightVol.toNat ≤ 128

/-- "While active, `offset < decodedCount * 2^16`" (10_state.md R32). -/
abbrev Channel.Positioned (x : Channel) : Prop := x.decodedCount ≠ 0 → x.offset.toNat < x.decodedCount.toNat * 2 ^ 16

/-- The channel file: `NUM_CHANNELS` records in range; each positioned unless the block is faulted (a fault keeps
what was written before it, 60_exceptions.md R262, in the middle of a block crossing too). -/
abbrev State.ChannelsOk (s : State) : Prop :=
  s.ch.length = s.cfg.numChannels ∧ (∀ x ∈ s.ch, x.InRange s.cfg) ∧ (s.faulted = false → ∀ x ∈ s.ch, x.Positioned)

/-- The fade's range and the two relations of 10_state.md R37. -/
abbrev State.FadeOk (s : State) : Prop :=
  s.fadeLevel.toNat ≤ 65536 ∧ (s.fadeState = .none → s.fadeLevel.toNat = 65536) ∧
  (s.fadeState = .silent → s.fadeLevel.toNat = 0)

/-- The buffers that the three ownership states hold (20_memory.md R58). -/
def State.buffers (s : State) : List Buffer := s.empty ++ s.core.toList ++ s.filled.map Filled.buffer

/-- Every buffer of the pool is in exactly one ownership state and has all its elements (20_memory.md R50, R58), a
filled one is full (30_encoding.md R98), and no buffer is left in `Core` between commands but by a fault
(60_exceptions.md R264). -/
abbrev State.SinkOk (s : State) : Prop :=
  (s.buffers.map Buffer.id).Perm (List.range s.cfg.numBuffers) ∧
  (∀ b ∈ s.buffers, b.samples.length = 2 * s.cfg.bufferFrames) ∧
  (∀ f ∈ s.filled, f.count = 2 * s.cfg.bufferFrames) ∧
  (s.faulted = false → s.core = none)

/-- There is a reason exactly where there is a fault (60_exceptions.md R263). -/
abbrev State.FaultOk (s : State) : Prop := s.faulted = true ↔ s.faultReason ≠ .none

/-- The invariant of the machine. -/
abbrev State.Inv (s : State) : Prop :=
  s.cfg.Legal ∧ s.ChannelsOk ∧ s.FadeOk ∧ s.SinkOk ∧ s.FaultOk ∧ Memory.wf s.mem

/-- A span is inside the address space and every byte of it is resident (20_memory.md R55). -/
def Resident (m : Memory) (base len : Nat) : Prop :=
  base + len ≤ 2 ^ 32 ∧ ∀ a, base ≤ a → a < base + len → (Memory.read m a).isSome = true

/-- What the asset port owes of every hit (20_memory.md R55, 41_channel_manager.md R154). -/
def State.PortHonest (s : State) : Prop :=
  ∀ e ∈ s.cfg.assets, Resident s.mem e.hit.base.toNat e.hit.len ∧ e.hit.lumpNo.toNat < 0xFFFFFFFD

/-- What is left of an active channel's payload can be read (20_memory.md R51). -/
def State.PayloadReadable (s : State) : Prop :=
  ∀ x ∈ s.ch, x.decodedCount ≠ 0 → x.srcEnd.toNat ≤ 2 ^ 32 ∧
    ∀ a, x.srcPos.toNat ≤ a → a < x.srcEnd.toNat → (byteAt s a).isSome = true

/-- The states differ at most in which buffer is which, in what the buffers in state `Empty` hold, and in the sink's
choices still to be drawn (44_scheduler.md R233; log 10). -/
abbrev State.SameButBuffers (s t : State) : Prop :=
  t = { s with
    empty := t.empty, core := t.core, filled := t.filled, draws := { s.draws with picks := t.draws.picks } } ∧
  t.empty.length = s.empty.length ∧ t.core.map Buffer.samples = s.core.map Buffer.samples ∧
  t.filled.map (fun f => (f.buffer.samples, f.count)) = s.filled.map (fun f => (f.buffer.samples, f.count))

/-- The fields of a channel that only a start or a new gain setting writes (10_state.md R24, R25, R27 to R29). -/
abbrev Channel.SameVoice (x y : Channel) : Prop :=
  y.format = x.format ∧ y.srcEnd = x.srcEnd ∧ y.step = x.step ∧ y.leftVol = x.leftVol ∧ y.rightVol = x.rightVol ∧
  y.smoothCoef = x.smoothCoef

end Sys2Proof.Machine
end

