-- ==== Sys2Proof/Certificates/Slice0/Obligations.lean ====
section
/-! DEFINITION. The statements for the provers. Each docstring names the rule of spec/ it formalises. Where a result
is written out, the whole next state is given, so what it does not name is unchanged. -/

open Sys2Proof Sys2Proof.Machine

/-! ## Encoding -/

/-- Every command is well formed, and decoding its word gives it back, with every operand at every value
(30_encoding.md §1, §2). -/
def Obligations.DecodeOfEncodedCommand : Prop :=
  ∀ i : Instr, i.wellFormed = true ∧ decode (encode i) = .ok i

/-- A word that decodes has one command, and that command's word is it: no bit is dropped (30_encoding.md §1, §2). -/
def Obligations.EncodeOfDecodedWord : Prop :=
  ∀ (w : CmdWord) (i : Instr), decode w = .ok i → encode i = w

/-- R85, R265: the words the decoder rejects are those with an opcode outside the map, a nonzero `rsv` or a 1 in an
unused field; the row's mask and match say the same; such a word writes `RESP_ILLEGAL` and nothing else. -/
def Obligations.IllegalWordsAnswerIllegal : Prop :=
  (∀ w : CmdWord, (∃ r, decode w = .error r) ↔ (fieldsOf w).wellFormed = false) ∧
  (∀ (w : CmdWord) (o : Op), (fieldsOf w).op = opCode o →
    (w &&& opMask o = opMatch o ↔ (fieldsOf w).wellFormed = true)) ∧
  (∀ (w : CmdWord) (s : State) (r : Reject), decode w = .error r → s.faulted = false →
    serveWord w s = .next { s with resp := 0xFFFFFFFE }) ∧
  decode 0x0000000000000000 = .error .unknownOpcode ∧ decode 0x0100000000000008 = .error .reservedNonzero

/-- R86: the twelve rows of the opcode map; a word is the command of a row iff `(w & mask) = match`; at most one row
matches. -/
def Obligations.OpcodeMapRowsMatch : Prop :=
  opRows.map (fun o => (opCode o, opMatch o, opMask o)) =
    [(0x01, 0x0000000000000001, 0xFFFFFFFFFFFFFFFF), (0x02, 0x0000000000000002, 0xFFFFFFFFFFFFFFFF),
     (0x03, 0x0000000000000003, 0xFF0000FFFFFFFFFF), (0x04, 0x0000000000000004, 0xFF000000000000FF),
     (0x05, 0x0000000000000005, 0xFFFFFFFF000000FF), (0x06, 0x0000000000000006, 0xFFFFFFFFFFFF00FF),
     (0x07, 0x0000000000000007, 0xFFFFFFFFFFFF00FF), (0x08, 0x0000000000000008, 0xFFFFFFFFFFFFFFFF),
     (0x09, 0x0000000000000009, 0xFFFFFFFFFFFFFFFF), (0x0A, 0x000000000000000A, 0xFFFFFFFFFFFFFEFF),
     (0x0B, 0x000000000000000B, 0xFFFFFFFFFFFFFEFF), (0x0C, 0x000000000000000C, 0xFFFFFFFFFFFFFFFF)] ∧
  (∀ (w : CmdWord) (o : Op), (∃ i, decode w = .ok i ∧ rowOf i = o) ↔ w &&& opMask o = opMatch o) ∧
  (∀ (w : CmdWord) (o o' : Op), w &&& opMask o = opMatch o → w &&& opMask o' = opMatch o' → o = o')

/-- R81 to R84, R89: the operands of a decoded command are the word's field bits, unsigned and unscaled; a field the
command does not use is 0. -/
def Obligations.OperandsAreTheFieldBits : Prop :=
  ∀ (w : CmdWord) (i : Instr), decode w = .ok i →
    i.fields = ⟨0, w.extractLsb' 40 16, w.extractLsb' 32 8, w.extractLsb' 24 8, w.extractLsb' 16 8,
      w.extractLsb' 8 8, w.extractLsb' 0 8⟩

/-- One word of every row and four illegal words, read by the decoder: those of 95_test_vectors.md §2.6, §2.8, §2.9 and
§3, but for `STOP_SOUND ch=1`, whose word is written out from 30_encoding.md §1 and §2. -/
def Obligations.SpecWordsDecode : Prop :=
  decode 0x0000000000000001 = .ok .init ∧ decode 0x0000000000000002 = .ok .shutdown ∧
  decode 0x00FFFF0000000003 = .ok (.lookup 0xFFFF) ∧
  decode 0x00000580807F0004 = .ok (.startSound 5 0 127 128 128) ∧
  decode 0x0000000001010505 = .ok (.updateParams 5 1 1) ∧ decode 0x0000000000000106 = .ok (.stopSound 1) ∧
  decode 0x000000000000C807 = .ok (.isPlaying 200) ∧ decode 0x0000000000000008 = .ok .updateSound ∧
  decode 0x0000000000000009 = .ok .precache ∧ decode 0x000000000000010A = .ok (.setMusic true) ∧
  decode 0x000000000000000B = .ok (.fadeTo false) ∧ decode 0x000000000000000C = .ok .isFading ∧
  decode 0x0000000000000000 = .error .unknownOpcode ∧ decode 0x0100000000000008 = .error .reservedNonzero ∧
  decode 0x0000000000010006 = .error .unusedBits ∧ decode 0x000000000000020B = .error .unusedBits

/-- R87: the opcodes outside the map are exactly 0x00 and 0x0D .. 0xFF, and no other word is rejected for its
opcode. -/
def Obligations.UnknownOpcodeBytes : Prop :=
  ∀ w : CmdWord, decode w = .error .unknownOpcode ↔ (w.toNat % 256 = 0 ∨ 13 ≤ w.toNat % 256)

/-- R90, R91: a line is its mnemonic's command with the values given, an omitted field 0; a field the mnemonic does not
use and a value that does not fit its field are refused; the pseudo-instructions are their expansions and take no field;
no other mnemonic is accepted. A line without a repeated field is accepted or refused by these clauses alone (that a
repeated one is refused is the model's choice, log 16, and no part of this). -/
def Obligations.AssembledWordDecodes : Prop :=
  let rows : List (String × List (String × Nat) × ((String → Nat) → Instr)) :=
    [("INIT", [], fun _ => .init), ("SHUTDOWN", [], fun _ => .shutdown),
     ("LOOKUP", [("sid", 16)], fun v => .lookup (BitVec.ofNat 16 (v "sid"))),
     ("START_SOUND", [("sid", 16), ("ch", 8), ("vol", 8), ("sep", 8), ("pitch", 8)], fun v =>
       .startSound (BitVec.ofNat 16 (v "sid")) (BitVec.ofNat 8 (v "ch")) (BitVec.ofNat 8 (v "vol"))
         (BitVec.ofNat 8 (v "sep")) (BitVec.ofNat 8 (v "pitch"))),
     ("UPDATE_PARAMS", [("ch", 8), ("vol", 8), ("sep", 8)], fun v =>
       .updateParams (BitVec.ofNat 8 (v "ch")) (BitVec.ofNat 8 (v "vol")) (BitVec.ofNat 8 (v "sep"))),
     ("STOP_SOUND", [("ch", 8)], fun v => .stopSound (BitVec.ofNat 8 (v "ch"))),
     ("IS_PLAYING", [("ch", 8)], fun v => .isPlaying (BitVec.ofNat 8 (v "ch"))),
     ("UPDATE_SOUND", [], fun _ => .updateSound), ("PRECACHE", [], fun _ => .precache),
     ("SET_MUSIC", [("arg", 1)], fun v => .setMusic (decide (v "arg" = 1))),
     ("FADE_TO", [("arg", 1)], fun v => .fadeTo (decide (v "arg" = 1))), ("IS_FADING", [], fun _ => .isFading)]
  (∀ r ∈ rows, ∀ ps : List (String × Nat),
    ((∀ p ∈ ps, ∃ q ∈ r.2.1, q.1 = p.1 ∧ p.2 < 2 ^ q.2) → (ps.map Prod.fst).Nodup →
      ∃ v : String → Nat, (∀ p ∈ ps, v p.1 = p.2) ∧ (∀ name, name ∉ ps.map Prod.fst → v name = 0) ∧
        assemble ⟨r.1, ps⟩ = .ok (encode (r.2.2 v))) ∧
    ((∃ p ∈ ps, p.1 ∉ r.2.1.map Prod.fst) → ∃ e, assemble ⟨r.1, ps⟩ = .error e) ∧
    ((∃ p ∈ ps, ∃ q ∈ r.2.1, q.1 = p.1 ∧ 2 ^ q.2 ≤ p.2) → ∃ e, assemble ⟨r.1, ps⟩ = .error e)) ∧
  (∀ l : AsmLine, l.mnemonic ∉ rows.map Prod.fst → l.mnemonic ∉ ["FADE_OUT", "FADE_IN", "MUSIC_ON", "MUSIC_OFF"] →
    assemble l = .error .unknownMnemonic) ∧
  (∀ (l : AsmLine) (w : CmdWord), assemble l = .ok w → ∃ i, decode w = .ok i ∧ encode i = w) ∧
  (∀ r ∈ [("FADE_OUT", Instr.fadeTo false), ("FADE_IN", .fadeTo true), ("MUSIC_ON", .setMusic true),
      ("MUSIC_OFF", .setMusic false)],
    assemble ⟨r.1, []⟩ = .ok (encode r.2) ∧ ∀ ps, ps ≠ [] → ∃ e, assemble ⟨r.1, ps⟩ = .error e)

/-! ## The step -/

/-- A step runs the command the host's next word decodes to; around it, the event is taken off the queue and the host
reads the response (log 6). -/
def Obligations.StepRunsDecodedCommand : Prop :=
  ∀ (s : State) (w : CmdWord) (rest : List Event) (i : Instr), s.inputs = .command w :: rest → decode w = .ok i →
    step s = answered (exec i { s with inputs := rest }) ∧
    (∀ t, exec i { s with inputs := rest } = .next t → step s = .next { t with responses := t.responses ++ [t.resp] }) ∧
    (∀ f, exec i { s with inputs := rest } = .fault f → step s = .fault f)

/-- The word `withFetchWord` places is the command the very next step runs, on the state as it was (log 6). -/
def Obligations.FetchedWordRunsNext : Prop :=
  ∀ (s t : State) (i : Instr), exec i s = .next t →
    step (s.withFetchWord 64 (encode i).toNat) = .next { t with responses := t.responses ++ [t.resp] }

/-- What a step does for the outside's other moves (log 6): nothing where there is none; for an illegal word the
response alone (R265); for a sink play the head of the queue played and its buffer empty (R235), or nothing where no
buffer is filled. -/
def Obligations.StepServesOutsideMoves : Prop :=
  (∀ s : State, s.inputs = [] → step s = .next s) ∧
  (∀ (s : State) (w : CmdWord) (rest : List Event) (r : Reject), s.inputs = .command w :: rest → s.faulted = false →
    decode w = .error r →
    step s = .next { s with inputs := rest, resp := 0xFFFFFFFE, responses := s.responses ++ [0xFFFFFFFE] }) ∧
  (∀ (s : State) (rest : List Event), s.inputs = .sinkPlay :: rest → s.filled = [] →
    step s = .next { s with inputs := rest }) ∧
  (∀ (s : State) (rest : List Event) (f : Filled) (fs : List Filled), s.inputs = .sinkPlay :: rest → s.filled = f :: fs →
    step s = .next { s with
      inputs := rest, filled := fs, empty := s.empty ++ [f.buffer], played := s.played ++ [f.buffer.samples.take f.count] })

/-- R290, R41: what reset leaves, in the values the spec gives. Parameters and source memory stay (10_state.md R20,
20_memory.md R56); that the outside's queue, draws and observations stay is the model's choice (log 15). -/
def Obligations.ResetLeavesResetState : Prop :=
  ∀ (s : State) (rest : List Event), s.inputs = .reset :: rest →
    ∃ t, step s = .next t ∧
      t.initialized = false ∧ t.musicEnabled = false ∧ t.fadeState = .none ∧ t.fadeLevel.toNat = 65536 ∧
      t.faulted = false ∧ t.faultReason = .none ∧ t.resp = 0 ∧
      t.ch.length = s.cfg.numChannels ∧ (∀ x ∈ t.ch, x.decodedCount = 0) ∧
      t.empty.map Buffer.id = List.range s.cfg.numBuffers ∧ t.core = none ∧ t.filled = [] ∧
      t.cfg = s.cfg ∧ t.mem = s.mem ∧ t.inputs = rest ∧ t.draws = s.draws ∧ t.played = s.played ∧
      t.responses = s.responses

/-! ## Faults -/

/-- R262: a faulted block answers `RESP_FAULTED` to every command and to every word, legal or not, with no other
effect; raising a fault sets the three fields and keeps the rest. -/
def Obligations.FaultedBlockAnswersFaulted : Prop :=
  (∀ (i : Instr) (s : State), s.faulted = true → exec i s = .next { s with resp := 0xFFFFFFFD }) ∧
  (∀ (w : CmdWord) (s : State), s.faulted = true → serveWord w s = .next { s with resp := 0xFFFFFFFD }) ∧
  (∀ (s : State) (r : FaultReason),
    raiseFault s r = { s with faulted := true, faultReason := r, resp := 0xFFFFFFFD })

/-- R262, R290: a fault stays, with its reason, through every step but a reset. -/
def Obligations.FaultStaysUntilReset : Prop :=
  ∀ s t : State, s.faulted = true → s.inputs.head? ≠ some .reset → step s = .next t →
    t.faulted = true ∧ t.faultReason = s.faultReason

/-- R263: a command that faults the block is `START_SOUND` with pitch 0 (`PITCH_ZERO`), or `START_SOUND` or
`UPDATE_SOUND` (`SRC_BUS`), and it answers `RESP_FAULTED`. -/
def Obligations.FaultCauses : Prop :=
  ∀ (i : Instr) (s t : State), exec i s = .next t → s.faulted = false → t.faulted = true →
    t.resp = 0xFFFFFFFD ∧
    ((t.faultReason = .pitchZero ∧ ∃ sid ch vol sep, i = .startSound sid ch vol sep 0) ∨
     (t.faultReason = .srcBus ∧ (i = .updateSound ∨ ∃ sid ch vol sep pitch, i = .startSound sid ch vol sep pitch)))

/-- 41_channel_manager.md R141, 42_mixer.md R182: `SRC_BUS` is raised "only if the asset port breaks its duty": from a
state where it keeps it (R55) and every active channel's payload can be read, every step keeps both and raises no
`SRC_BUS`. -/
def Obligations.HonestPortNoBusFault : Prop :=
  ∀ s t : State, s.Inv → s.PortHonest → s.PayloadReadable → step s = .next t →
    t.PortHonest ∧ t.PayloadReadable ∧ (t.faultReason = .srcBus → s.faultReason = .srcBus)

/-! ## System commands -/

/-- R238: `INIT`, for each answer of the sink (a free draw). -/
def Obligations.InitResult : Prop :=
  ∀ s : State, s.faulted = false →
    (s.initialized = true → exec .init s = .next { s with resp := 0 }) ∧
    (s.initialized = false → setupAnswer s.draws = false →
      exec .init s = .next { s with resp := 0xFFFFFFFF, draws := s.draws.afterSetup }) ∧
    (s.initialized = false → setupAnswer s.draws = true →
      exec .init s = .next { s with
        resp := 0, draws := s.draws.afterSetup, initialized := true,
        ch := s.ch.map fun x => { x with decodedCount := 0 } })

/-- R239: `SHUTDOWN` and its word; the fade, the music flag and the sink's buffers are kept, as is all else. -/
def Obligations.ShutdownResult : Prop :=
  decode (pack ⟨0, 0, 0, 0, 0, 0, 0x02⟩) = .ok .shutdown ∧
  ∀ s : State, s.faulted = false →
    exec .shutdown s = .next { s with
      resp := 0, initialized := false, ch := s.ch.map fun x => { x with decodedCount := 0 } }

/-- R240: `SET_MUSIC`. -/
def Obligations.SetMusicResult : Prop :=
  ∀ (s : State) (arg : Bool), s.faulted = false →
    exec (.setMusic arg) s = .next { s with musicEnabled := arg, resp := 0 }

/-! ## Channel-manager commands -/

/-- R154: `LOOKUP`. Besides the response, the span of a hit counts as named from then on (R51; log 5). -/
def Obligations.LookupResult : Prop :=
  ∀ (s : State) (sid : BitVec 16), s.faulted = false →
    (assetOf s.cfg sid = none → exec (.lookup sid) s = .next { s with resp := 0xFFFFFFFF }) ∧
    (∀ h : Hit, assetOf s.cfg sid = some h →
      exec (.lookup sid) s = .next { s with
        resp := h.lumpNo,
        named := if (⟨h.base.toNat, h.len⟩ : Span) ∈ s.named then s.named
          else s.named ++ [⟨h.base.toNat, h.len⟩] })

/-- R92, R53: the fields of a lump header, byte by byte. R141: every path of `START_SOUND` past the gate, in the order of
its steps, for the channel record `x` that `ch` selects. The stop of step 2 stays whatever follows; a hit's span counts
as named (R51; log 5). -/
def Obligations.StartSoundSteps : Prop :=
  (∀ b0 b1 b2 b3 b4 b5 b6 b7 : Byte, lumpHeader [b0, b1, b2, b3, b4, b5, b6, b7] =
    ⟨b0.toNat + 256 * b1.toNat, b2.toNat + 256 * b3.toNat,
      (BitVec.ofNat 32 (b4.toNat + 2 ^ 8 * b5.toNat + 2 ^ 16 * b6.toNat + 2 ^ 24 * b7.toNat)).toInt⟩) ∧
  ∀ (s : State) (sid : BitVec 16) (ch vol sep pitch : BitVec 8) (x : Channel),
    s.faulted = false → s.initialized = true → ch.toNat < s.cfg.numChannels → s.ch[ch.toNat]? = some x →
    let stopped : State := { s with ch := s.ch.set ch.toNat { x with decodedCount := 0 } }
    -- step 3
    (assetOf s.cfg sid = none → exec (.startSound sid ch vol sep pitch) s = .next { stopped with resp := 0xFFFFFFFF }) ∧
    (∀ h : Hit, assetOf s.cfg sid = some h →
      let s2 : State := { stopped with
        named := if (⟨h.base.toNat, h.len⟩ : Span) ∈ s.named then s.named else s.named ++ [⟨h.base.toNat, h.len⟩] }
      -- step 4
      (h.len < 8 → exec (.startSound sid ch vol sep pitch) s = .next { s2 with resp := 0xFFFFFFFF }) ∧
      -- step 5
      (8 ≤ h.len → memRead s2 h.base.toNat 8 = none →
        exec (.startSound sid ch vol sep pitch) s =
          .next { s2 with faulted := true, faultReason := .srcBus, resp := 0xFFFFFFFD }) ∧
      (∀ hdr : List Byte, 8 ≤ h.len → memRead s2 h.base.toNat 8 = some hdr →
        -- step 6
        ((lumpHeader hdr).tag ≠ 0x8003 → (lumpHeader hdr).tag ≠ s.cfg.rawFormatTag.toNat →
          exec (.startSound sid ch vol sep pitch) s = .next { s2 with resp := 0xFFFFFFFF }) ∧
        (∀ fmt : Format,
          (((lumpHeader hdr).tag = 0x8003 ∧ fmt = .adpcm) ∨
           ((lumpHeader hdr).tag ≠ 0x8003 ∧ (lumpHeader hdr).tag = s.cfg.rawFormatTag.toNat ∧ fmt = .raw)) →
          -- step 7
          (min (lumpHeader hdr).declared ((h.len : Int) - 8) ≤ 0 →
            exec (.startSound sid ch vol sep pitch) s = .next { s2 with resp := 0xFFFFFFFF }) ∧
          (0 < min (lumpHeader hdr).declared ((h.len : Int) - 8) →
            -- step 8
            (pitch = 0 →
              exec (.startSound sid ch vol sep pitch) s =
                .next { s2 with faulted := true, faultReason := .pitchZero, resp := 0xFFFFFFFD }) ∧
            (pitch ≠ 0 →
              -- steps 9 to 11
              let y : Channel := { x with
                decodedCount := 0
                format := fmt
                srcPos := BitVec.ofNat 33 (h.base.toNat + 8)
                srcEnd := BitVec.ofNat 33
                  (h.base.toNat + 8 + (min (lumpHeader hdr).declared ((h.len : Int) - 8)).toNat)
                offset := 0
                step := BitVec.ofNat 32
                  ((lumpHeader hdr).rate * pitch.toNat * 65536 / (s.cfg.outRate * pitch.toNat))
                smoothCoef := BitVec.ofNat 9
                  (256 * 201 * (lumpHeader hdr).rate / (201 * (lumpHeader hdr).rate + 64 * s.cfg.outRate))
                smoothPrev := 0 }
              -- step 12
              (decodeNext s2 y = none →
                exec (.startSound sid ch vol sep pitch) s =
                  .next { s2 with
                    ch := s.ch.set ch.toNat y, faulted := true, faultReason := .srcBus, resp := 0xFFFFFFFD }) ∧
              -- steps 12 to 14
              (∀ z : Channel, decodeNext s2 y = some z →
                exec (.startSound sid ch vol sep pitch) s =
                  .next { s2 with
                    ch := s.ch.set ch.toNat { z with
                      leftVol := BitVec.ofInt 8 (leftGain vol.toNat sep.toNat)
                      rightVol := BitVec.ofInt 8 (rightGain vol.toNat sep.toNat) }
                    resp := BitVec.ofNat 32 ch.toNat }))))))

/-- R148 with the formula of R145: `UPDATE_PARAMS` on a valid channel, active or not. -/
def Obligations.UpdateParamsResult : Prop :=
  ∀ (s : State) (ch vol sep : BitVec 8) (x : Channel), s.faulted = false →
    (s.initialized = true → ch.toNat < s.cfg.numChannels → s.ch[ch.toNat]? = some x →
      exec (.updateParams ch vol sep) s = .next { s with
        resp := 0
        ch := s.ch.set ch.toNat { x with
          leftVol := BitVec.ofInt 8 (max 0 (min 255 ((((254 - (sep.toNat : Int)) * vol.toNat).tdiv 127).tdiv 4)))
          rightVol := BitVec.ofInt 8 (max 0 (min 255 ((((sep.toNat : Int) * vol.toNat).tdiv 127).tdiv 4))) } }) ∧
    ((s.initialized = false ∨ s.cfg.numChannels ≤ ch.toNat) →
      exec (.updateParams ch vol sep) s = .next { s with resp := 0 })

/-- R151: `STOP_SOUND` and its word: `decodedCount` of the channel (`Stop`, R150) and the response, nothing else. -/
def Obligations.StopSoundResult : Prop :=
  (∀ ch : BitVec 8, decode (pack ⟨0, 0, 0, 0, 0, ch, 0x06⟩) = .ok (.stopSound ch)) ∧
  ∀ (s : State) (ch : BitVec 8) (x : Channel), s.faulted = false →
    (s.initialized = true → ch.toNat < s.cfg.numChannels → s.ch[ch.toNat]? = some x →
      exec (.stopSound ch) s = .next { s with resp := 0, ch := s.ch.set ch.toNat { x with decodedCount := 0 } }) ∧
    ((s.initialized = false ∨ s.cfg.numChannels ≤ ch.toNat) → exec (.stopSound ch) s = .next { s with resp := 0 })

/-- R152: `IS_PLAYING` and its word. -/
def Obligations.IsPlayingResult : Prop :=
  (∀ ch : BitVec 8, decode (pack ⟨0, 0, 0, 0, 0, ch, 0x07⟩) = .ok (.isPlaying ch)) ∧
  ∀ (s : State) (ch : BitVec 8) (x : Channel), s.faulted = false →
    (s.initialized = true → ch.toNat < s.cfg.numChannels → s.ch[ch.toNat]? = some x →
      exec (.isPlaying ch) s = .next { s with resp := if x.decodedCount = 0 then 0 else 1 }) ∧
    ((s.initialized = false ∨ s.cfg.numChannels ≤ ch.toNat) → exec (.isPlaying ch) s = .next { s with resp := 0 })

/-- R155: `PRECACHE` and its word: it answers 0 and changes nothing. -/
def Obligations.PrecacheResult : Prop :=
  decode (pack ⟨0, 0, 0, 0, 0, 0, 0x09⟩) = .ok .precache ∧
  ∀ s : State, s.faulted = false → exec .precache s = .next { s with resp := 0 }

/-- R140, R266: with the block not initialized or the index invalid, the gated commands write nothing but their
sentinel; `UPDATE_SOUND` tests `initialized` alone; `LOOKUP` and `PRECACHE` touch no channel and do not test it. -/
def Obligations.GateClosedAnswersSentinel : Prop :=
  (∀ (s : State) (sid : BitVec 16) (ch vol sep pitch : BitVec 8), s.faulted = false →
    (s.initialized = false ∨ s.cfg.numChannels ≤ ch.toNat) →
    exec (.startSound sid ch vol sep pitch) s = .next { s with resp := 0xFFFFFFFF } ∧
    exec (.updateParams ch vol sep) s = .next { s with resp := 0 } ∧
    exec (.stopSound ch) s = .next { s with resp := 0 } ∧
    exec (.isPlaying ch) s = .next { s with resp := 0 }) ∧
  (∀ s : State, s.faulted = false → s.initialized = false → exec .updateSound s = .next { s with resp := 0 }) ∧
  (∀ (s t : State) (i : Instr) (v : Bool), ((∃ sid, i = .lookup sid) ∨ i = .precache) → exec i s = .next t →
    t.ch = s.ch ∧ exec i { s with initialized := v } = .next { t with initialized := v })

/-- 41_channel_manager.md §2: "Failure at any validation step leaves the channel inactive and returns a sentinel
failure value": after a `START_SOUND` past the gate that does not answer the channel index, the channel is inactive,
whatever played on it before (R147). -/
def Obligations.FailedStartLeavesInactive : Prop :=
  ∀ (s t : State) (sid : BitVec 16) (ch vol sep pitch : BitVec 8), s.faulted = false → s.initialized = true →
    ch.toNat < s.cfg.numChannels → exec (.startSound sid ch vol sep pitch) s = .next t →
    t.resp ≠ BitVec.ofNat 32 ch.toNat → ∀ y, t.ch[ch.toNat]? = some y → y.decodedCount = 0

/-- R146: with a header that passes and a payload that can be read, a first ADPCM block that is truncated (shorter than 4
bytes) or rejected (an index above 88, a reserved byte that is not 0) makes `START_SOUND` answer the index, and
`IS_PLAYING` answers 0 right after. -/
def Obligations.RejectedFirstBlockIsNoFailure : Prop :=
  ∀ (s : State) (sid : BitVec 16) (ch vol sep pitch : BitVec 8) (h : Hit) (hdr blk : List Byte),
    s.faulted = false → s.initialized = true → ch.toNat < s.cfg.numChannels → s.ch.length = s.cfg.numChannels →
    pitch ≠ 0 → assetOf s.cfg sid = some h → 8 ≤ h.len →
    memRead (noteSpan s h) h.base.toNat 8 = some hdr → (lumpHeader hdr).tag = 0x8003 →
    0 < min (lumpHeader hdr).declared ((h.len : Int) - 8) →
    memRead (noteSpan s h) (h.base.toNat + 8)
      (min s.cfg.adpcmBlockBytes (min (lumpHeader hdr).declared ((h.len : Int) - 8)).toNat) = some blk →
    (blk.length < 4 ∨ 88 < (blk.getD 2 0).toNat ∨ blk.getD 3 0 ≠ 0) →
    ∃ t, exec (.startSound sid ch vol sep pitch) s = .next t ∧ t.resp = BitVec.ofNat 32 ch.toNat ∧
      exec (.isPlaying ch) t = .next { t with resp := 0 }

/-! ## Fade commands -/

/-- R214: `FADE_TO` in every fade state, and its words; `fadeLevel` is not written. -/
def Obligations.FadeToResult : Prop :=
  (∀ arg : Bool, decode (pack ⟨0, 0, 0, 0, 0, if arg then 1 else 0, 0x0B⟩) = .ok (.fadeTo arg)) ∧
  ∀ s : State, s.faulted = false →
    ((s.fadeState = .none ∨ s.fadeState = .fadingIn) →
      exec (.fadeTo false) s = .next { s with fadeState := .fadingOut, resp := 0 }) ∧
    ((s.fadeState = .fadingOut ∨ s.fadeState = .silent) → exec (.fadeTo false) s = .next { s with resp := 0 }) ∧
    ((s.fadeState = .silent ∨ s.fadeState = .fadingOut) →
      exec (.fadeTo true) s = .next { s with fadeState := .fadingIn, resp := 0 }) ∧
    ((s.fadeState = .fadingIn ∨ s.fadeState = .none) → exec (.fadeTo true) s = .next { s with resp := 0 })

/-- R215: `IS_FADING` and its word. -/
def Obligations.IsFadingResult : Prop :=
  decode (pack ⟨0, 0, 0, 0, 0, 0, 0x0C⟩) = .ok .isFading ∧
  ∀ s : State, s.faulted = false →
    ((s.fadeState = .fadingOut ∨ s.fadeState = .fadingIn) → exec .isFading s = .next { s with resp := 1 }) ∧
    ((s.fadeState = .none ∨ s.fadeState = .silent) → exec .isFading s = .next { s with resp := 0 })

/-! ## `UPDATE_SOUND` -/

/-- 44_scheduler.md §1 with §2, 20_memory.md §4: on an initialized block whose channels' payload can be read,
`UPDATE_SOUND` completes for every finite schedule of the sink's plays (R299; that a schedule is a finite list is the
model's choice, log 9): no buffer is left `Empty` or in `Core`; it answers the number `n` of
buffers filled; and the buffers in give order, played or queued, are those of before followed by `n` new ones, each
full. -/
def Obligations.UpdateSoundFillsEveryEmptyBuffer : Prop :=
  ∀ s : State, s.Inv → s.PayloadReadable → s.faulted = false → s.initialized = true →
    ∃ (t : State) (new : List (List Pcm)), exec .updateSound s = .next t ∧
      t.faulted = false ∧ t.empty = [] ∧ t.core = none ∧
      t.resp = BitVec.ofNat 32 (min new.length 0xFFFFFFFC) ∧
      t.played ++ t.filled.map (fun f => f.buffer.samples.take f.count) =
        s.played ++ s.filled.map (fun f => f.buffer.samples.take f.count) ++ new ∧
      (∀ b ∈ new, b.length = 2 * s.cfg.bufferFrames)

/-- R231, R233, R234, R235, R264: what the sink does at a point between two core steps, at a take and at a give; and the
loop of `UPDATE_SOUND`, turn by turn. At a point the sink plays as many buffers from the head of the queue as its schedule
says and the queue holds (log 9); a take answers none exactly where no buffer is empty, and else the buffer of the draw
(log 10), moved to `Core`; a give appends the core's buffer to the queue. A turn that finds no empty buffer answers the
count; a turn that fills gives the buffer and goes on with one more; a turn whose fill faults ends the command there, with
the buffer left in `Core`, the queue as it was, `SRC_BUS` recorded and `RESP_FAULTED` answered. -/
def Obligations.UpdateSoundTurns : Prop :=
  (∀ s : State,
    let k := min (s.draws.plays.headD 0) s.filled.length
    sinkPoint s = { s with
      filled := s.filled.drop k
      empty := s.empty ++ (s.filled.take k).map Filled.buffer
      played := s.played ++ (s.filled.take k).map (fun f => f.buffer.samples.take f.count)
      draws := { s.draws with plays := s.draws.plays.tail } }) ∧
  (∀ s : State, (sinkTake s = none ↔ s.empty = []) ∧
    ∀ (b : Buffer) (t : State), sinkTake s = some (b, t) →
      ∃ i, i < s.empty.length ∧ s.empty[i]? = some b ∧
        (∀ p ps, s.draws.picks = p :: ps → i = p % s.empty.length) ∧
        (s.draws.picks = [] → i = Config.freePick s.draws.next % s.empty.length) ∧
        t = { s with
          empty := s.empty.eraseIdx i, core := some b
          draws := { s.draws with picks := s.draws.picks.tail, next := s.draws.next + 1 } }) ∧
  (∀ (s : State) (b : Buffer) (n : Nat), s.core = some b →
    sinkGive s n = { s with core := none, filled := s.filled ++ [⟨b, n⟩] }) ∧
  (∀ s : State, s.faulted = false → s.initialized = false → exec .updateSound s = .next { s with resp := 0 }) ∧
  (∀ s : State, s.faulted = false → s.initialized = true → exec .updateSound s = updateLoop (updateBound s) s 0) ∧
  (∀ (s : State) (n : Nat), (sinkPoint s).empty = [] →
    updateLoop (updateBound s) s n = .next { sinkPoint s with resp := BitVec.ofNat 32 (min n 0xFFFFFFFC) }) ∧
  (∀ (s s1 s2 : State) (b : Buffer) (n : Nat), sinkTake (sinkPoint s) = some (b, s1) →
    fillBuffer (sinkPoint s1) b = .done s2 →
    updateLoop (updateBound s) s n =
      updateLoop (updateBound (sinkGive (sinkPoint s2) (2 * s2.cfg.bufferFrames)))
        (sinkGive (sinkPoint s2) (2 * s2.cfg.bufferFrames)) (n + 1)) ∧
  (∀ (s s1 s2 : State) (b : Buffer) (n : Nat), sinkTake (sinkPoint s) = some (b, s1) →
    fillBuffer (sinkPoint s1) b = .raised s2 →
    updateLoop (updateBound s) s n = .next s2 ∧
    (let m := mixChannels (sinkPoint s1) s1.ch (baseContent (sinkPoint s1))
     m.verdict = .bus ∧
     s2 = { sinkPoint s1 with
       faulted := true, faultReason := .srcBus, resp := 0xFFFFFFFD
       ch := m.chans, core := some ⟨b.id, m.buf⟩
       draws := if s1.musicEnabled then
           { (sinkPoint s1).draws with music := s1.draws.music.tail, next := s1.draws.next + 1 }
         else (sinkPoint s1).draws }))

/-- 70_reset_and_hazards.md R298: "Buffers already `Filled` keep the mix they were given with": through every step but a
reset, what has been played and what is queued, in give order, only grows at its end. -/
def Obligations.FilledBuffersKeepTheirMix : Prop :=
  ∀ s t : State, s.inputs.head? ≠ some .reset → step s = .next t →
    ∃ new : List (List Pcm), t.played ++ t.filled.map (fun f => f.buffer.samples.take f.count) =
      s.played ++ s.filled.map (fun f => f.buffer.samples.take f.count) ++ new

/-- R236, R301: every command ends, in every state: no step meets the model's bound on a loop, and none is refused. -/
def Obligations.EveryCommandEnds : Prop :=
  ∀ (i : Instr) (s : State), exec i s ≠ .fault .endless ∧ ∀ m, exec i s ≠ .refused (.notModelled m)

/-- R233: which empty buffer a take returns (the draw of log 10) is unobservable: two states that differ at most in which
buffer is which, in what empty buffers hold and in the sink's choices to come take the same step, whatever it is, to two
states that again differ at most so, with the same buffers played and the same responses. -/
def Obligations.BufferChoiceUnobservable : Prop :=
  ∀ s s' : State, s.SameButBuffers s' →
    (∀ t, step s = .next t →
      ∃ t', step s' = .next t' ∧ t.SameButBuffers t' ∧ t'.played = t.played ∧ t'.responses = t.responses) ∧
    (∀ f, step s = .fault f → step s' = .fault f)

/-! ## Who writes what -/

/-- 10_state.md R33 to R39, R40 (column "written by"), 20_memory.md R52, R58: no command writes a global field but the
ones the rules name for it. (`FADE_TO` writes no level: 43_fade.md R214; log 17.) -/
def Obligations.GlobalFieldWriters : Prop :=
  ∀ (i : Instr) (s t : State), exec i s = .next t →
    t.cfg = s.cfg ∧ t.mem = s.mem ∧ t.inputs = s.inputs ∧ t.responses = s.responses ∧ t.ch.length = s.ch.length ∧
    (t.initialized ≠ s.initialized → i = .init ∨ i = .shutdown) ∧
    (t.musicEnabled ≠ s.musicEnabled → ∃ arg, i = .setMusic arg) ∧
    (t.fadeState ≠ s.fadeState → i = .updateSound ∨ ∃ arg, i = .fadeTo arg) ∧
    (t.fadeLevel ≠ s.fadeLevel → i = .updateSound) ∧
    (t.faulted ≠ s.faulted ∨ t.faultReason ≠ s.faultReason →
      i = .updateSound ∨ ∃ sid ch vol sep pitch, i = .startSound sid ch vol sep pitch) ∧
    (t.named ≠ s.named → (∃ sid, i = .lookup sid) ∨ ∃ sid ch vol sep pitch, i = .startSound sid ch vol sep pitch) ∧
    (t.empty ≠ s.empty ∨ t.core ≠ s.core ∨ t.filled ≠ s.filled ∨ t.played ≠ s.played → i = .updateSound) ∧
    (t.draws ≠ s.draws → i = .init ∨ i = .updateSound)

/-- 10_state.md R24 to R31 ("written by"): the fields of channel `c` that each command can write. -/
def Obligations.ChannelFieldWriters : Prop :=
  ∀ (i : Instr) (s t : State) (c : Nat) (x : Channel), exec i s = .next t → s.ch[c]? = some x →
    ∃ y, t.ch[c]? = some y ∧
      ((∀ sid ch vol sep pitch, i = .startSound sid ch vol sep pitch → ch.toNat ≠ c) →
        (y.format = x.format ∧ y.srcEnd = x.srcEnd ∧ y.step = x.step ∧ y.smoothCoef = x.smoothCoef) ∧
        ((∀ ch vol sep, i = .updateParams ch vol sep → ch.toNat ≠ c) →
          y.leftVol = x.leftVol ∧ y.rightVol = x.rightVol) ∧
        ((i = .updateSound → x.decodedCount = 0) →
          y.srcPos = x.srcPos ∧ y.offset = x.offset ∧ y.smoothPrev = x.smoothPrev ∧ y.decodedBlock = x.decodedBlock ∧
          (y.decodedCount = x.decodedCount ∨ y.decodedCount = 0)))

/-- 20_memory.md R52, R56, 10_state.md R20: every byte of source memory and the configuration are the same after every
step, a reset included. -/
def Obligations.SourceMemoryConstant : Prop :=
  ∀ s t : State, step s = .next t → t.cfg = s.cfg ∧ ∀ a, Memory.read t.mem a = Memory.read s.mem a

/-! ## Source memory and the decoder -/

/-- R51: when a read is admitted and what it gives. That a byte must be resident is the model's reading of "a span it
cannot back" (R263; log 4). -/
def Obligations.MemReadAdmission : Prop :=
  ∀ (s : State) (a n : Nat),
    ((∃ bs, memRead s a n = some bs) ↔
      n = 0 ∨ (a + n ≤ 2 ^ 32 ∧ ∀ k, a ≤ k → k < a + n →
        (∃ r ∈ s.named, r.base ≤ k ∧ k < r.base + r.len) ∧ Memory.read s.mem k ≠ none)) ∧
    (∀ bs, memRead s a n = some bs → bs.length = n ∧ ∀ k, k < n → bs[k]? = Memory.read s.mem (a + k))

/-- R114, R117: the header check, the sample count, and that the result fits `decodedBlock`. R94, R95, R115, R116: which
samples: the high byte of the little-endian signed seed, then that of the accumulator after each nibble, the low nibble
of a data byte before its high one (X2, log 13), from the seed and the index of byte 2 on. -/
def Obligations.AdpcmSampleCount : Prop :=
  ∀ (tbl : Vector (BitVec 16) 89) (blk : List Byte),
    (blk.length < 4 → decodeAdpcm tbl blk = []) ∧
    (88 < (blk.getD 2 0).toNat ∨ blk.getD 3 0 ≠ 0 → decodeAdpcm tbl blk = []) ∧
    (4 ≤ blk.length → (blk.getD 2 0).toNat ≤ 88 → blk.getD 3 0 = 0 →
      (decodeAdpcm tbl blk).length = 1 + 2 * (blk.length - 4) ∧
      ∃ acc : Nat → Accum,
        (acc 0).acc = (BitVec.ofNat 16 ((blk.getD 0 0).toNat + 256 * (blk.getD 1 0).toNat)).toInt ∧
        (acc 0).idx.val = (blk.getD 2 0).toNat ∧
        (∀ k, acc (2 * k + 1) = nibbleStep tbl (acc (2 * k)) ((blk.getD (4 + k) 0).extractLsb' 0 4)) ∧
        (∀ k, acc (2 * k + 2) = nibbleStep tbl (acc (2 * k + 1)) ((blk.getD (4 + k) 0).extractLsb' 4 4)) ∧
        ∀ j, j < 1 + 2 * (blk.length - 4) → (decodeAdpcm tbl blk)[j]? = some (BitVec.ofInt 8 ((acc j).acc / 256))) ∧
    (∀ c : Config, blk.length ≤ c.adpcmBlockBytes → (decodeAdpcm tbl blk).length ≤ 1 + 2 * (c.adpcmBlockBytes - 4))

/-- R116, R112: one nibble on an accumulator and an index, in plain arithmetic. -/
def Obligations.NibbleStepResult : Prop :=
  ∀ (tbl : Vector (BitVec 16) 89) (acc : Int) (idx : Fin 89) (n : BitVec 4),
    let step : Int := (tbl.get idx).toNat
    let mag : Int := step / 8 + (if n.toNat % 2 = 1 then step / 4 else 0) +
      (if n.toNat / 2 % 2 = 1 then step / 2 else 0) + (if n.toNat / 4 % 2 = 1 then step else 0)
    let delta : Int := if 8 ≤ n.toNat then -mag else mag
    let code : Int := n.toNat % 8
    (nibbleStep tbl ⟨acc, idx⟩ n).acc = max (-32768) (min 32767 (acc + delta)) ∧
    ((nibbleStep tbl ⟨acc, idx⟩ n).idx.val : Int) =
      max 0 (min 88 ((idx.val : Int) + if code < 4 then -1 else 2 * (code - 3)))

/-- R118: after every nibble the accumulator is an int16, the index is in 0..88, `|delta| <= 61436`, and the sample
emitted is the accumulator's floor by 256, an int8; for any step table whose entries are at most 32767. -/
def Obligations.AdpcmRanges : Prop :=
  ∀ (tbl : Vector (BitVec 16) 89) (a : Accum) (n : BitVec 4), (∀ i, (tbl.get i).toNat ≤ 32767) →
    -32768 ≤ (nibbleStep tbl a n).acc ∧ (nibbleStep tbl a n).acc ≤ 32767 ∧ (nibbleStep tbl a n).idx.val ≤ 88 ∧
    |nibbleDelta (tbl.get a.idx).toNat n| ≤ 61436 ∧
    (highByte (nibbleStep tbl a n).acc).toInt = (nibbleStep tbl a n).acc / 256

/-- R122: `DecodeNext`, in both formats. -/
def Obligations.DecodeNextResult : Prop :=
  ∀ (s : State) (x : Channel), s.cfg.Legal →
    let rem := x.srcEnd.toNat - x.srcPos.toNat
    let n := min (if x.format = .adpcm then s.cfg.adpcmBlockBytes else 1 + 2 * (s.cfg.adpcmBlockBytes - 4)) rem
    (memRead s x.srcPos.toNat n = none → decodeNext s x = none) ∧
    (∀ bs, memRead s x.srcPos.toNat n = some bs →
      let smp : List Sample := if x.format = .adpcm then decodeAdpcm s.cfg.stepTable bs else bs
      ∃ y, decodeNext s x = some y ∧ y.srcPos.toNat = x.srcPos.toNat + n ∧
        y.decodedBlock = smp ++ x.decodedBlock.drop smp.length ∧ y.decodedCount.toNat = smp.length ∧
        y = { x with srcPos := y.srcPos, decodedBlock := y.decodedBlock, decodedCount := y.decodedCount } ∧
        (rem = 0 → y.decodedCount = 0))

/-! ## Formulas of the channel manager -/

/-- R143: for every pitch from 1 on, `StepOf` is `fdiv(rate * 2^16, OUT_RATE)`; it fits 32 bits. -/
def Obligations.StepIgnoresPitch : Prop :=
  ∀ (c : Config) (rate pitch : Nat), 1 ≤ c.outRate → 1 ≤ pitch → rate ≤ 65535 →
    stepOf c rate pitch = rate * 65536 / c.outRate ∧ stepOf c rate pitch ≤ 4294901760

/-- R144: the coefficient's formula; its divisor is at least 64 and the result at most 255. -/
def Obligations.SmoothCoefBound : Prop :=
  ∀ (c : Config) (rate : Nat), 1 ≤ c.outRate →
    smoothCoefOf c rate = 256 * 201 * rate / (201 * rate + 64 * c.outRate) ∧
    64 ≤ 201 * rate + 64 * c.outRate ∧ smoothCoefOf c rate ≤ 255

/-- R145: the gains of every 8-bit `vol` and `sep`: the truncating formula, which floor division would give too, within
0..127 and 0..128. -/
def Obligations.GainsBound : Prop :=
  ∀ vol sep : BitVec 8,
    leftGain vol.toNat sep.toNat = max 0 (min 255 ((((254 - (sep.toNat : Int)) * vol.toNat).tdiv 127).tdiv 4)) ∧
    rightGain vol.toNat sep.toNat = max 0 (min 255 ((((sep.toNat : Int) * vol.toNat).tdiv 127).tdiv 4)) ∧
    leftGain vol.toNat sep.toNat = max 0 (min 255 ((254 - (sep.toNat : Int)) * vol.toNat / 127 / 4)) ∧
    rightGain vol.toNat sep.toNat = max 0 (min 255 ((sep.toNat : Int) * vol.toNat / 127 / 4)) ∧
    leftGain vol.toNat sep.toNat ≤ 127 ∧ rightGain vol.toNat sep.toNat ≤ 128

/-! ## Mixer -/

/-- R185: one lane's add saturates to int16 on store, and never wraps. -/
def Obligations.LaneSaturates : Prop :=
  ∀ (old : Pcm) (smp : Int) (gain : BitVec 8),
    (mixLane old smp gain).toInt = max (-32768) (min 32767 (old.toInt + smp * gain.toNat))

/-- R184: the smoothed sample, which stays an int8 and becomes `smoothPrev`; without smoothing the raw sample, and the
channel's memory is not written. -/
def Obligations.SmoothedStaysInt8 : Prop :=
  ∀ (c : Config) (x : Channel) (raw : Sample), x.smoothCoef.toNat ≤ 256 →
    -128 ≤ smoothed c x raw.toInt ∧ smoothed c x raw.toInt ≤ 127 ∧
    (c.smoothingEnabled = true →
      smoothed c x raw.toInt = (x.smoothPrev.toInt * (256 - (x.smoothCoef.toNat : Int))).tdiv 256 +
        (raw.toInt * x.smoothCoef.toNat).tdiv 256 ∧
      (x.remember c (smoothed c x raw.toInt)).smoothPrev.toInt = smoothed c x raw.toInt) ∧
    (c.smoothingEnabled = false →
      smoothed c x raw.toInt = raw.toInt ∧ x.remember c (smoothed c x raw.toInt) = x)

/-- R181 to R184: a frame of an active channel plays the sample under its position, adds it to both lanes, and advances;
where the block crossing leaves it playing it goes on with the next frame, where it stops or meets a read that is not
admitted (`bus`) the rest of the buffer stays; and channels are mixed in increasing index, the inactive ones passed over,
up to one whose pass ends so, after which the later ones are left as they were (60_exceptions.md R262). -/
def Obligations.MixFrameResult : Prop :=
  (∀ (s : State) (x : Channel) (l r : Pcm) (rest : List Pcm), x.InRange s.cfg → x.Positioned → x.decodedCount ≠ 0 →
    ∃ raw : Sample, x.decodedBlock[x.offset.toNat / 65536]? = some raw ∧
      let smp := smoothed s.cfg x raw.toInt
      let y : Channel := { x with
        offset := BitVec.ofNat 64 (x.offset.toNat + x.step.toNat)
        smoothPrev := if s.cfg.smoothingEnabled then BitVec.ofInt 8 smp else x.smoothPrev }
      let cr := crossFrame s y
      (cr.verdict = .ok → cr.stopped = false →
        mixChannel s x (l :: r :: rest) =
          ⟨(mixChannel s cr.chan rest).verdict, (mixChannel s cr.chan rest).chan,
           mixLane l smp x.leftVol :: mixLane r smp x.rightVol :: (mixChannel s cr.chan rest).buf⟩) ∧
      (cr.verdict = .ok → cr.stopped = true →
        mixChannel s x (l :: r :: rest) = ⟨.ok, cr.chan, mixLane l smp x.leftVol :: mixLane r smp x.rightVol :: rest⟩) ∧
      (cr.verdict = .bus →
        mixChannel s x (l :: r :: rest) =
          ⟨.bus, cr.chan, mixLane l smp x.leftVol :: mixLane r smp x.rightVol :: rest⟩)) ∧
  (∀ (s : State) (x : Channel) (xs : List Channel) (buf : List Pcm),
    (x.decodedCount = 0 → mixChannels s (x :: xs) buf =
      ⟨(mixChannels s xs buf).verdict, x :: (mixChannels s xs buf).chans, (mixChannels s xs buf).buf⟩) ∧
    (x.decodedCount ≠ 0 → (mixChannel s x buf).verdict = .ok →
      let out := mixChannels s xs (mixChannel s x buf).buf
      mixChannels s (x :: xs) buf = ⟨out.verdict, (mixChannel s x buf).chan :: out.chans, out.buf⟩) ∧
    (x.decodedCount ≠ 0 → (mixChannel s x buf).verdict = .bus →
      mixChannels s (x :: xs) buf = ⟨.bus, (mixChannel s x buf).chan :: xs, (mixChannel s x buf).buf⟩))

/-- R187: the block crossing is the `while` of the rule, with no bound on its turns: below the block's end nothing
happens; at or past it the block's length is subtracted and the next block decoded, an empty one stops the channel, and
with any other the test is made again. -/
def Obligations.CrossingRepeatsWhile : Prop :=
  ∀ (s : State) (x : Channel),
    let wrapped : Channel := { x with offset := BitVec.ofNat 64 (x.offset.toNat - x.decodedCount.toNat * 65536) }
    (x.offset.toNat < x.decodedCount.toNat * 65536 → crossFrame s x = ⟨.ok, false, x⟩) ∧
    (x.decodedCount.toNat * 65536 ≤ x.offset.toNat →
      (decodeNext s wrapped = none → crossFrame s x = ⟨.bus, false, wrapped⟩) ∧
      (∀ y, decodeNext s wrapped = some y →
        (y.decodedCount = 0 → crossFrame s x = ⟨.ok, true, y⟩) ∧
        (y.decodedCount ≠ 0 → crossFrame s x = crossFrame s y)))

/-- R189, first corner case: a channel whose step is 0 never moves and never reaches the end of its payload. -/
def Obligations.ZeroStepNeverEnds : Prop :=
  ∀ (s : State) (x : Channel) (buf : List Pcm), x.InRange s.cfg → x.Positioned → x.decodedCount ≠ 0 → x.step = 0 →
    (mixChannel s x buf).verdict = .ok ∧
    (mixChannel s x buf).chan = { x with smoothPrev := (mixChannel s x buf).chan.smoothPrev }

/-- 42_mixer.md §1: a channel's own state after its pass does not depend on what the buffer held: neither the base nor
another channel's contribution reaches it. -/
def Obligations.ChannelIgnoresBufferContent : Prop :=
  ∀ (s : State) (x : Channel) (buf buf' : List Pcm), buf.length = buf'.length →
    (mixChannel s x buf).chan = (mixChannel s x buf').chan ∧ (mixChannel s x buf).verdict = (mixChannel s x buf').verdict

/-! ## Fade -/

/-- R211: the ramp step of a frame, and that it comes before the frame's samples are scaled (R212), frame by frame. -/
def Obligations.RampStepResult : Prop :=
  ∀ (c : Config) (l : BitVec 17), l.toNat ≤ 65536 →
    ((rampStep c ⟨.fadingOut, l⟩).level.toNat = max 0 (l.toNat - c.fadeStep) ∧
      (rampStep c ⟨.fadingOut, l⟩).state = if l.toNat ≤ c.fadeStep then .silent else .fadingOut) ∧
    ((rampStep c ⟨.fadingIn, l⟩).level.toNat = min 65536 (l.toNat + c.fadeStep) ∧
      (rampStep c ⟨.fadingIn, l⟩).state = if 65536 ≤ l.toNat + c.fadeStep then .none else .fadingIn) ∧
    rampStep c ⟨.none, l⟩ = ⟨.none, l⟩ ∧ rampStep c ⟨.silent, l⟩ = ⟨.silent, l⟩ ∧
    ∀ (st : FadeState) (e0 e1 : Pcm) (rest : List Pcm),
      let f := rampStep c ⟨st, l⟩
      fadeBuffer c ⟨st, l⟩ (e0 :: e1 :: rest) =
        ⟨(fadeBuffer c f rest).fade, fadeElement f e0 :: fadeElement f e1 :: (fadeBuffer c f rest).buf⟩

/-- R212: what the fade makes of an element: zero in `Silent`, itself in `None`, else the floor of its product with the
level by 65536, which lies between 0 and it. -/
def Obligations.FadedElementBetween : Prop :=
  ∀ (f : Fade) (x : Pcm), f.level.toNat ≤ 65536 →
    (f.state = .silent → fadeElement f x = 0) ∧ (f.state = .none → fadeElement f x = x) ∧
    (f.state = .fadingOut ∨ f.state = .fadingIn → (fadeElement f x).toInt = x.toInt * f.level.toNat / 65536) ∧
    min 0 x.toInt ≤ (fadeElement f x).toInt ∧ (fadeElement f x).toInt ≤ max 0 x.toInt

/-- R213: a fade-out from full reaches `Silent` on frame number `ceil(65536 / FADE_STEP)` counted from 1, and on no
earlier one. -/
def Obligations.FadeOutLength : Prop :=
  ∀ (c : Config) (k : Nat), 1 ≤ c.fadeStep →
    (((rampStep c)^[k] ⟨.fadingOut, 65536⟩).state = .silent ↔ (65536 + c.fadeStep - 1) / c.fadeStep ≤ k)

/-- R212, R213: a buffer under `Silent` is zeroed whole and the fade stays; under `None` it passes through. -/
def Obligations.SilentAndPassThroughBuffers : Prop :=
  ∀ (c : Config) (l : BitVec 17) (buf : List Pcm),
    (∀ m, buf.length = 2 * m → fadeBuffer c ⟨.silent, l⟩ buf = ⟨⟨.silent, l⟩, List.replicate (2 * m) 0⟩) ∧
    fadeBuffer c ⟨.none, l⟩ buf = ⟨⟨.none, l⟩, buf⟩

/-! ## Filling a buffer -/

/-- R232: with no channel active and no fade, a filled buffer is its base content: what the music port gives (free
values), asked once, or silence, with the port not asked. Its earlier content never shows. -/
def Obligations.BaseContentReachesBuffer : Prop :=
  ∀ (s : State) (b : Buffer), (∀ x ∈ s.ch, x.decodedCount = 0) → s.fadeState = .none →
    (s.musicEnabled = true →
      fillBuffer s b = .done { s with
        draws := s.draws.afterMusic
        core := some ⟨b.id, (List.range (2 * s.cfg.bufferFrames)).map (musicElement s.draws)⟩ }) ∧
    (s.musicEnabled = false →
      fillBuffer s b = .done { s with core := some ⟨b.id, List.replicate (2 * s.cfg.bufferFrames) 0⟩ })

/-- R232, R216: a buffer that is filled is its base content, then mixed, then faded; and the fade has no influence on
playback: the same channels and draws are left whatever the fade's state and level. -/
def Obligations.FillBufferOrder : Prop :=
  ∀ (s t : State) (b : Buffer), fillBuffer s b = .done t →
    (mixChannels s s.ch (baseContent s)).verdict = .ok ∧
    t.ch = (mixChannels s s.ch (baseContent s)).chans ∧
    (let f := fadeBuffer s.cfg ⟨s.fadeState, s.fadeLevel⟩ (mixChannels s s.ch (baseContent s)).buf
     t.core = some ⟨b.id, f.buf⟩ ∧ t.fadeState = f.fade.state ∧ t.fadeLevel = f.fade.level) ∧
    ∀ (f : FadeState) (l : BitVec 17),
      ∃ t', fillBuffer { s with fadeState := f, fadeLevel := l } b = .done t' ∧ t'.ch = t.ch ∧ t'.draws = t.draws

/-! ## The invariant -/

/-- 10_state.md §5, 70_reset_and_hazards.md §1: the reset state of every legal configuration, and `State.reset`, meet
the invariant. -/
def Obligations.ResetMeetsInvariant : Prop :=
  (∀ c : Config, c.Legal → (State.resetWith c).Inv) ∧ State.reset.Inv

/-- 10_state.md R25, R31, R32, R37, 20_memory.md R58: from every state that meets the invariant, a step answers a next
state, and it meets it: channels stay in range and positioned, the fade keeps its relations, every buffer has exactly
one owner and all its elements, and source memory keeps its canonical form. -/
def Obligations.StepKeepsInvariant : Prop :=
  ∀ s : State, s.Inv → ∃ t, step s = .next t ∧ t.Inv
end

