-- ==== Sys2Proof/Laws/State.lean ====
section
/-! SUPPORT. One lemma per field per named update of the state: what it writes and what it leaves, so that later
proofs never unfold a record update. -/

namespace Sys2Proof.Machine

/-! `respond` -/
@[simp] theorem respond_cfg (s : State) (v : RespWord) : (respond s v).cfg = s.cfg := rfl
@[simp] theorem respond_initialized (s : State) (v : RespWord) : (respond s v).initialized = s.initialized := rfl
@[simp] theorem respond_musicEnabled (s : State) (v : RespWord) : (respond s v).musicEnabled = s.musicEnabled := rfl
@[simp] theorem respond_fadeState (s : State) (v : RespWord) : (respond s v).fadeState = s.fadeState := rfl
@[simp] theorem respond_fadeLevel (s : State) (v : RespWord) : (respond s v).fadeLevel = s.fadeLevel := rfl
@[simp] theorem respond_faulted (s : State) (v : RespWord) : (respond s v).faulted = s.faulted := rfl
@[simp] theorem respond_faultReason (s : State) (v : RespWord) : (respond s v).faultReason = s.faultReason := rfl
@[simp] theorem respond_resp (s : State) (v : RespWord) : (respond s v).resp = v := rfl
@[simp] theorem respond_ch (s : State) (v : RespWord) : (respond s v).ch = s.ch := rfl
@[simp] theorem respond_mem (s : State) (v : RespWord) : (respond s v).mem = s.mem := rfl
@[simp] theorem respond_named (s : State) (v : RespWord) : (respond s v).named = s.named := rfl
@[simp] theorem respond_empty (s : State) (v : RespWord) : (respond s v).empty = s.empty := rfl
@[simp] theorem respond_core (s : State) (v : RespWord) : (respond s v).core = s.core := rfl
@[simp] theorem respond_filled (s : State) (v : RespWord) : (respond s v).filled = s.filled := rfl
@[simp] theorem respond_inputs (s : State) (v : RespWord) : (respond s v).inputs = s.inputs := rfl
@[simp] theorem respond_draws (s : State) (v : RespWord) : (respond s v).draws = s.draws := rfl
@[simp] theorem respond_played (s : State) (v : RespWord) : (respond s v).played = s.played := rfl
@[simp] theorem respond_responses (s : State) (v : RespWord) : (respond s v).responses = s.responses := rfl


/-! `raiseFault` -/
@[simp] theorem raiseFault_cfg (s : State) (r : FaultReason) : (raiseFault s r).cfg = s.cfg := rfl
@[simp] theorem raiseFault_initialized (s : State) (r : FaultReason) : (raiseFault s r).initialized = s.initialized := rfl
@[simp] theorem raiseFault_musicEnabled (s : State) (r : FaultReason) : (raiseFault s r).musicEnabled = s.musicEnabled := rfl
@[simp] theorem raiseFault_fadeState (s : State) (r : FaultReason) : (raiseFault s r).fadeState = s.fadeState := rfl
@[simp] theorem raiseFault_fadeLevel (s : State) (r : FaultReason) : (raiseFault s r).fadeLevel = s.fadeLevel := rfl
@[simp] theorem raiseFault_faulted (s : State) (r : FaultReason) : (raiseFault s r).faulted = true := rfl
@[simp] theorem raiseFault_faultReason (s : State) (r : FaultReason) : (raiseFault s r).faultReason = r := rfl
@[simp] theorem raiseFault_resp (s : State) (r : FaultReason) : (raiseFault s r).resp = respFaulted := rfl
@[simp] theorem raiseFault_ch (s : State) (r : FaultReason) : (raiseFault s r).ch = s.ch := rfl
@[simp] theorem raiseFault_mem (s : State) (r : FaultReason) : (raiseFault s r).mem = s.mem := rfl
@[simp] theorem raiseFault_named (s : State) (r : FaultReason) : (raiseFault s r).named = s.named := rfl
@[simp] theorem raiseFault_empty (s : State) (r : FaultReason) : (raiseFault s r).empty = s.empty := rfl
@[simp] theorem raiseFault_core (s : State) (r : FaultReason) : (raiseFault s r).core = s.core := rfl
@[simp] theorem raiseFault_filled (s : State) (r : FaultReason) : (raiseFault s r).filled = s.filled := rfl
@[simp] theorem raiseFault_inputs (s : State) (r : FaultReason) : (raiseFault s r).inputs = s.inputs := rfl
@[simp] theorem raiseFault_draws (s : State) (r : FaultReason) : (raiseFault s r).draws = s.draws := rfl
@[simp] theorem raiseFault_played (s : State) (r : FaultReason) : (raiseFault s r).played = s.played := rfl
@[simp] theorem raiseFault_responses (s : State) (r : FaultReason) : (raiseFault s r).responses = s.responses := rfl


/-! `setChan` -/
@[simp] theorem setChan_cfg (s : State) (c : Nat) (x : Channel) : (setChan s c x).cfg = s.cfg := rfl
@[simp] theorem setChan_initialized (s : State) (c : Nat) (x : Channel) : (setChan s c x).initialized = s.initialized := rfl
@[simp] theorem setChan_musicEnabled (s : State) (c : Nat) (x : Channel) : (setChan s c x).musicEnabled = s.musicEnabled := rfl
@[simp] theorem setChan_fadeState (s : State) (c : Nat) (x : Channel) : (setChan s c x).fadeState = s.fadeState := rfl
@[simp] theorem setChan_fadeLevel (s : State) (c : Nat) (x : Channel) : (setChan s c x).fadeLevel = s.fadeLevel := rfl
@[simp] theorem setChan_faulted (s : State) (c : Nat) (x : Channel) : (setChan s c x).faulted = s.faulted := rfl
@[simp] theorem setChan_faultReason (s : State) (c : Nat) (x : Channel) : (setChan s c x).faultReason = s.faultReason := rfl
@[simp] theorem setChan_resp (s : State) (c : Nat) (x : Channel) : (setChan s c x).resp = s.resp := rfl
@[simp] theorem setChan_ch (s : State) (c : Nat) (x : Channel) : (setChan s c x).ch = s.ch.set c x := rfl
@[simp] theorem setChan_mem (s : State) (c : Nat) (x : Channel) : (setChan s c x).mem = s.mem := rfl
@[simp] theorem setChan_named (s : State) (c : Nat) (x : Channel) : (setChan s c x).named = s.named := rfl
@[simp] theorem setChan_empty (s : State) (c : Nat) (x : Channel) : (setChan s c x).empty = s.empty := rfl
@[simp] theorem setChan_core (s : State) (c : Nat) (x : Channel) : (setChan s c x).core = s.core := rfl
@[simp] theorem setChan_filled (s : State) (c : Nat) (x : Channel) : (setChan s c x).filled = s.filled := rfl
@[simp] theorem setChan_inputs (s : State) (c : Nat) (x : Channel) : (setChan s c x).inputs = s.inputs := rfl
@[simp] theorem setChan_draws (s : State) (c : Nat) (x : Channel) : (setChan s c x).draws = s.draws := rfl
@[simp] theorem setChan_played (s : State) (c : Nat) (x : Channel) : (setChan s c x).played = s.played := rfl
@[simp] theorem setChan_responses (s : State) (c : Nat) (x : Channel) : (setChan s c x).responses = s.responses := rfl


/-! `stopChannel` -/
@[simp] theorem stopChannel_cfg (s : State) (c : Nat) : (stopChannel s c).cfg = s.cfg := rfl
@[simp] theorem stopChannel_initialized (s : State) (c : Nat) : (stopChannel s c).initialized = s.initialized := rfl
@[simp] theorem stopChannel_musicEnabled (s : State) (c : Nat) : (stopChannel s c).musicEnabled = s.musicEnabled := rfl
@[simp] theorem stopChannel_fadeState (s : State) (c : Nat) : (stopChannel s c).fadeState = s.fadeState := rfl
@[simp] theorem stopChannel_fadeLevel (s : State) (c : Nat) : (stopChannel s c).fadeLevel = s.fadeLevel := rfl
@[simp] theorem stopChannel_faulted (s : State) (c : Nat) : (stopChannel s c).faulted = s.faulted := rfl
@[simp] theorem stopChannel_faultReason (s : State) (c : Nat) : (stopChannel s c).faultReason = s.faultReason := rfl
@[simp] theorem stopChannel_resp (s : State) (c : Nat) : (stopChannel s c).resp = s.resp := rfl
@[simp] theorem stopChannel_ch (s : State) (c : Nat) : (stopChannel s c).ch = s.ch.set c (chan s c).stopped := rfl
@[simp] theorem stopChannel_mem (s : State) (c : Nat) : (stopChannel s c).mem = s.mem := rfl
@[simp] theorem stopChannel_named (s : State) (c : Nat) : (stopChannel s c).named = s.named := rfl
@[simp] theorem stopChannel_empty (s : State) (c : Nat) : (stopChannel s c).empty = s.empty := rfl
@[simp] theorem stopChannel_core (s : State) (c : Nat) : (stopChannel s c).core = s.core := rfl
@[simp] theorem stopChannel_filled (s : State) (c : Nat) : (stopChannel s c).filled = s.filled := rfl
@[simp] theorem stopChannel_inputs (s : State) (c : Nat) : (stopChannel s c).inputs = s.inputs := rfl
@[simp] theorem stopChannel_draws (s : State) (c : Nat) : (stopChannel s c).draws = s.draws := rfl
@[simp] theorem stopChannel_played (s : State) (c : Nat) : (stopChannel s c).played = s.played := rfl
@[simp] theorem stopChannel_responses (s : State) (c : Nat) : (stopChannel s c).responses = s.responses := rfl


/-! `stopAll` -/
@[simp] theorem stopAll_cfg (s : State) : (stopAll s).cfg = s.cfg := rfl
@[simp] theorem stopAll_initialized (s : State) : (stopAll s).initialized = s.initialized := rfl
@[simp] theorem stopAll_musicEnabled (s : State) : (stopAll s).musicEnabled = s.musicEnabled := rfl
@[simp] theorem stopAll_fadeState (s : State) : (stopAll s).fadeState = s.fadeState := rfl
@[simp] theorem stopAll_fadeLevel (s : State) : (stopAll s).fadeLevel = s.fadeLevel := rfl
@[simp] theorem stopAll_faulted (s : State) : (stopAll s).faulted = s.faulted := rfl
@[simp] theorem stopAll_faultReason (s : State) : (stopAll s).faultReason = s.faultReason := rfl
@[simp] theorem stopAll_resp (s : State) : (stopAll s).resp = s.resp := rfl
@[simp] theorem stopAll_ch (s : State) : (stopAll s).ch = s.ch.map Channel.stopped := rfl
@[simp] theorem stopAll_mem (s : State) : (stopAll s).mem = s.mem := rfl
@[simp] theorem stopAll_named (s : State) : (stopAll s).named = s.named := rfl
@[simp] theorem stopAll_empty (s : State) : (stopAll s).empty = s.empty := rfl
@[simp] theorem stopAll_core (s : State) : (stopAll s).core = s.core := rfl
@[simp] theorem stopAll_filled (s : State) : (stopAll s).filled = s.filled := rfl
@[simp] theorem stopAll_inputs (s : State) : (stopAll s).inputs = s.inputs := rfl
@[simp] theorem stopAll_draws (s : State) : (stopAll s).draws = s.draws := rfl
@[simp] theorem stopAll_played (s : State) : (stopAll s).played = s.played := rfl
@[simp] theorem stopAll_responses (s : State) : (stopAll s).responses = s.responses := rfl


/-! `issue` -/
@[simp] theorem issue_cfg (s : State) (w : CmdWord) : (issue s w).cfg = s.cfg := rfl
@[simp] theorem issue_initialized (s : State) (w : CmdWord) : (issue s w).initialized = s.initialized := rfl
@[simp] theorem issue_musicEnabled (s : State) (w : CmdWord) : (issue s w).musicEnabled = s.musicEnabled := rfl
@[simp] theorem issue_fadeState (s : State) (w : CmdWord) : (issue s w).fadeState = s.fadeState := rfl
@[simp] theorem issue_fadeLevel (s : State) (w : CmdWord) : (issue s w).fadeLevel = s.fadeLevel := rfl
@[simp] theorem issue_faulted (s : State) (w : CmdWord) : (issue s w).faulted = s.faulted := rfl
@[simp] theorem issue_faultReason (s : State) (w : CmdWord) : (issue s w).faultReason = s.faultReason := rfl
@[simp] theorem issue_resp (s : State) (w : CmdWord) : (issue s w).resp = s.resp := rfl
@[simp] theorem issue_ch (s : State) (w : CmdWord) : (issue s w).ch = s.ch := rfl
@[simp] theorem issue_mem (s : State) (w : CmdWord) : (issue s w).mem = s.mem := rfl
@[simp] theorem issue_named (s : State) (w : CmdWord) : (issue s w).named = s.named := rfl
@[simp] theorem issue_empty (s : State) (w : CmdWord) : (issue s w).empty = s.empty := rfl
@[simp] theorem issue_core (s : State) (w : CmdWord) : (issue s w).core = s.core := rfl
@[simp] theorem issue_filled (s : State) (w : CmdWord) : (issue s w).filled = s.filled := rfl
@[simp] theorem issue_inputs (s : State) (w : CmdWord) : (issue s w).inputs = .command w :: s.inputs := rfl
@[simp] theorem issue_draws (s : State) (w : CmdWord) : (issue s w).draws = s.draws := rfl
@[simp] theorem issue_played (s : State) (w : CmdWord) : (issue s w).played = s.played := rfl
@[simp] theorem issue_responses (s : State) (w : CmdWord) : (issue s w).responses = s.responses := rfl


/-! `noteSpan` -/
@[simp] theorem noteSpan_cfg (s : State) (h : Hit) : (noteSpan s h).cfg = s.cfg := by unfold noteSpan; dsimp only; split <;> rfl
@[simp] theorem noteSpan_initialized (s : State) (h : Hit) : (noteSpan s h).initialized = s.initialized := by unfold noteSpan; dsimp only; split <;> rfl
@[simp] theorem noteSpan_musicEnabled (s : State) (h : Hit) : (noteSpan s h).musicEnabled = s.musicEnabled := by unfold noteSpan; dsimp only; split <;> rfl
@[simp] theorem noteSpan_fadeState (s : State) (h : Hit) : (noteSpan s h).fadeState = s.fadeState := by unfold noteSpan; dsimp only; split <;> rfl
@[simp] theorem noteSpan_fadeLevel (s : State) (h : Hit) : (noteSpan s h).fadeLevel = s.fadeLevel := by unfold noteSpan; dsimp only; split <;> rfl
@[simp] theorem noteSpan_faulted (s : State) (h : Hit) : (noteSpan s h).faulted = s.faulted := by unfold noteSpan; dsimp only; split <;> rfl
@[simp] theorem noteSpan_faultReason (s : State) (h : Hit) : (noteSpan s h).faultReason = s.faultReason := by unfold noteSpan; dsimp only; split <;> rfl
@[simp] theorem noteSpan_resp (s : State) (h : Hit) : (noteSpan s h).resp = s.resp := by unfold noteSpan; dsimp only; split <;> rfl
@[simp] theorem noteSpan_ch (s : State) (h : Hit) : (noteSpan s h).ch = s.ch := by unfold noteSpan; dsimp only; split <;> rfl
@[simp] theorem noteSpan_mem (s : State) (h : Hit) : (noteSpan s h).mem = s.mem := by unfold noteSpan; dsimp only; split <;> rfl
@[simp] theorem noteSpan_empty (s : State) (h : Hit) : (noteSpan s h).empty = s.empty := by unfold noteSpan; dsimp only; split <;> rfl
@[simp] theorem noteSpan_core (s : State) (h : Hit) : (noteSpan s h).core = s.core := by unfold noteSpan; dsimp only; split <;> rfl
@[simp] theorem noteSpan_filled (s : State) (h : Hit) : (noteSpan s h).filled = s.filled := by unfold noteSpan; dsimp only; split <;> rfl
@[simp] theorem noteSpan_inputs (s : State) (h : Hit) : (noteSpan s h).inputs = s.inputs := by unfold noteSpan; dsimp only; split <;> rfl
@[simp] theorem noteSpan_draws (s : State) (h : Hit) : (noteSpan s h).draws = s.draws := by unfold noteSpan; dsimp only; split <;> rfl
@[simp] theorem noteSpan_played (s : State) (h : Hit) : (noteSpan s h).played = s.played := by unfold noteSpan; dsimp only; split <;> rfl
@[simp] theorem noteSpan_responses (s : State) (h : Hit) : (noteSpan s h).responses = s.responses := by unfold noteSpan; dsimp only; split <;> rfl


/-! `afterLookup` -/
@[simp] theorem afterLookup_cfg (s : State) (sid : BitVec 16) : (afterLookup s sid).cfg = s.cfg := by unfold afterLookup; split <;> simp
@[simp] theorem afterLookup_initialized (s : State) (sid : BitVec 16) : (afterLookup s sid).initialized = s.initialized := by unfold afterLookup; split <;> simp
@[simp] theorem afterLookup_musicEnabled (s : State) (sid : BitVec 16) : (afterLookup s sid).musicEnabled = s.musicEnabled := by unfold afterLookup; split <;> simp
@[simp] theorem afterLookup_fadeState (s : State) (sid : BitVec 16) : (afterLookup s sid).fadeState = s.fadeState := by unfold afterLookup; split <;> simp
@[simp] theorem afterLookup_fadeLevel (s : State) (sid : BitVec 16) : (afterLookup s sid).fadeLevel = s.fadeLevel := by unfold afterLookup; split <;> simp
@[simp] theorem afterLookup_faulted (s : State) (sid : BitVec 16) : (afterLookup s sid).faulted = s.faulted := by unfold afterLookup; split <;> simp
@[simp] theorem afterLookup_faultReason (s : State) (sid : BitVec 16) : (afterLookup s sid).faultReason = s.faultReason := by unfold afterLookup; split <;> simp
@[simp] theorem afterLookup_resp (s : State) (sid : BitVec 16) : (afterLookup s sid).resp = s.resp := by unfold afterLookup; split <;> simp
@[simp] theorem afterLookup_ch (s : State) (sid : BitVec 16) : (afterLookup s sid).ch = s.ch := by unfold afterLookup; split <;> simp
@[simp] theorem afterLookup_mem (s : State) (sid : BitVec 16) : (afterLookup s sid).mem = s.mem := by unfold afterLookup; split <;> simp
@[simp] theorem afterLookup_empty (s : State) (sid : BitVec 16) : (afterLookup s sid).empty = s.empty := by unfold afterLookup; split <;> simp
@[simp] theorem afterLookup_core (s : State) (sid : BitVec 16) : (afterLookup s sid).core = s.core := by unfold afterLookup; split <;> simp
@[simp] theorem afterLookup_filled (s : State) (sid : BitVec 16) : (afterLookup s sid).filled = s.filled := by unfold afterLookup; split <;> simp
@[simp] theorem afterLookup_inputs (s : State) (sid : BitVec 16) : (afterLookup s sid).inputs = s.inputs := by unfold afterLookup; split <;> simp
@[simp] theorem afterLookup_draws (s : State) (sid : BitVec 16) : (afterLookup s sid).draws = s.draws := by unfold afterLookup; split <;> simp
@[simp] theorem afterLookup_played (s : State) (sid : BitVec 16) : (afterLookup s sid).played = s.played := by unfold afterLookup; split <;> simp
@[simp] theorem afterLookup_responses (s : State) (sid : BitVec 16) : (afterLookup s sid).responses = s.responses := by unfold afterLookup; split <;> simp


/-! `playOnce` -/
@[simp] theorem playOnce_cfg (s : State) : (playOnce s).cfg = s.cfg := by unfold playOnce; split <;> rfl
@[simp] theorem playOnce_initialized (s : State) : (playOnce s).initialized = s.initialized := by unfold playOnce; split <;> rfl
@[simp] theorem playOnce_musicEnabled (s : State) : (playOnce s).musicEnabled = s.musicEnabled := by unfold playOnce; split <;> rfl
@[simp] theorem playOnce_fadeState (s : State) : (playOnce s).fadeState = s.fadeState := by unfold playOnce; split <;> rfl
@[simp] theorem playOnce_fadeLevel (s : State) : (playOnce s).fadeLevel = s.fadeLevel := by unfold playOnce; split <;> rfl
@[simp] theorem playOnce_faulted (s : State) : (playOnce s).faulted = s.faulted := by unfold playOnce; split <;> rfl
@[simp] theorem playOnce_faultReason (s : State) : (playOnce s).faultReason = s.faultReason := by unfold playOnce; split <;> rfl
@[simp] theorem playOnce_resp (s : State) : (playOnce s).resp = s.resp := by unfold playOnce; split <;> rfl
@[simp] theorem playOnce_ch (s : State) : (playOnce s).ch = s.ch := by unfold playOnce; split <;> rfl
@[simp] theorem playOnce_mem (s : State) : (playOnce s).mem = s.mem := by unfold playOnce; split <;> rfl
@[simp] theorem playOnce_named (s : State) : (playOnce s).named = s.named := by unfold playOnce; split <;> rfl
@[simp] theorem playOnce_core (s : State) : (playOnce s).core = s.core := by unfold playOnce; split <;> rfl
@[simp] theorem playOnce_inputs (s : State) : (playOnce s).inputs = s.inputs := by unfold playOnce; split <;> rfl
@[simp] theorem playOnce_draws (s : State) : (playOnce s).draws = s.draws := by unfold playOnce; split <;> rfl
@[simp] theorem playOnce_responses (s : State) : (playOnce s).responses = s.responses := by unfold playOnce; split <;> rfl


/-! `playSteps` -/
@[simp] theorem playSteps_cfg (k : Nat) (s : State) : (playSteps k s).cfg = s.cfg := by induction k generalizing s with
  | zero => rfl
  | succ k ih => rw [playSteps, ih, playOnce_cfg]
@[simp] theorem playSteps_initialized (k : Nat) (s : State) : (playSteps k s).initialized = s.initialized := by induction k generalizing s with
  | zero => rfl
  | succ k ih => rw [playSteps, ih, playOnce_initialized]
@[simp] theorem playSteps_musicEnabled (k : Nat) (s : State) : (playSteps k s).musicEnabled = s.musicEnabled := by induction k generalizing s with
  | zero => rfl
  | succ k ih => rw [playSteps, ih, playOnce_musicEnabled]
@[simp] theorem playSteps_fadeState (k : Nat) (s : State) : (playSteps k s).fadeState = s.fadeState := by induction k generalizing s with
  | zero => rfl
  | succ k ih => rw [playSteps, ih, playOnce_fadeState]
@[simp] theorem playSteps_fadeLevel (k : Nat) (s : State) : (playSteps k s).fadeLevel = s.fadeLevel := by induction k generalizing s with
  | zero => rfl
  | succ k ih => rw [playSteps, ih, playOnce_fadeLevel]
@[simp] theorem playSteps_faulted (k : Nat) (s : State) : (playSteps k s).faulted = s.faulted := by induction k generalizing s with
  | zero => rfl
  | succ k ih => rw [playSteps, ih, playOnce_faulted]
@[simp] theorem playSteps_faultReason (k : Nat) (s : State) : (playSteps k s).faultReason = s.faultReason := by induction k generalizing s with
  | zero => rfl
  | succ k ih => rw [playSteps, ih, playOnce_faultReason]
@[simp] theorem playSteps_resp (k : Nat) (s : State) : (playSteps k s).resp = s.resp := by induction k generalizing s with
  | zero => rfl
  | succ k ih => rw [playSteps, ih, playOnce_resp]
@[simp] theorem playSteps_ch (k : Nat) (s : State) : (playSteps k s).ch = s.ch := by induction k generalizing s with
  | zero => rfl
  | succ k ih => rw [playSteps, ih, playOnce_ch]
@[simp] theorem playSteps_mem (k : Nat) (s : State) : (playSteps k s).mem = s.mem := by induction k generalizing s with
  | zero => rfl
  | succ k ih => rw [playSteps, ih, playOnce_mem]
@[simp] theorem playSteps_named (k : Nat) (s : State) : (playSteps k s).named = s.named := by induction k generalizing s with
  | zero => rfl
  | succ k ih => rw [playSteps, ih, playOnce_named]
@[simp] theorem playSteps_core (k : Nat) (s : State) : (playSteps k s).core = s.core := by induction k generalizing s with
  | zero => rfl
  | succ k ih => rw [playSteps, ih, playOnce_core]
@[simp] theorem playSteps_inputs (k : Nat) (s : State) : (playSteps k s).inputs = s.inputs := by induction k generalizing s with
  | zero => rfl
  | succ k ih => rw [playSteps, ih, playOnce_inputs]
@[simp] theorem playSteps_draws (k : Nat) (s : State) : (playSteps k s).draws = s.draws := by induction k generalizing s with
  | zero => rfl
  | succ k ih => rw [playSteps, ih, playOnce_draws]
@[simp] theorem playSteps_responses (k : Nat) (s : State) : (playSteps k s).responses = s.responses := by induction k generalizing s with
  | zero => rfl
  | succ k ih => rw [playSteps, ih, playOnce_responses]


/-! `sinkPoint` -/
@[simp] theorem sinkPoint_cfg (s : State) : (sinkPoint s).cfg = s.cfg := by unfold sinkPoint; rw [playSteps_cfg]
@[simp] theorem sinkPoint_initialized (s : State) : (sinkPoint s).initialized = s.initialized := by unfold sinkPoint; rw [playSteps_initialized]
@[simp] theorem sinkPoint_musicEnabled (s : State) : (sinkPoint s).musicEnabled = s.musicEnabled := by unfold sinkPoint; rw [playSteps_musicEnabled]
@[simp] theorem sinkPoint_fadeState (s : State) : (sinkPoint s).fadeState = s.fadeState := by unfold sinkPoint; rw [playSteps_fadeState]
@[simp] theorem sinkPoint_fadeLevel (s : State) : (sinkPoint s).fadeLevel = s.fadeLevel := by unfold sinkPoint; rw [playSteps_fadeLevel]
@[simp] theorem sinkPoint_faulted (s : State) : (sinkPoint s).faulted = s.faulted := by unfold sinkPoint; rw [playSteps_faulted]
@[simp] theorem sinkPoint_faultReason (s : State) : (sinkPoint s).faultReason = s.faultReason := by unfold sinkPoint; rw [playSteps_faultReason]
@[simp] theorem sinkPoint_resp (s : State) : (sinkPoint s).resp = s.resp := by unfold sinkPoint; rw [playSteps_resp]
@[simp] theorem sinkPoint_ch (s : State) : (sinkPoint s).ch = s.ch := by unfold sinkPoint; rw [playSteps_ch]
@[simp] theorem sinkPoint_mem (s : State) : (sinkPoint s).mem = s.mem := by unfold sinkPoint; rw [playSteps_mem]
@[simp] theorem sinkPoint_named (s : State) : (sinkPoint s).named = s.named := by unfold sinkPoint; rw [playSteps_named]
@[simp] theorem sinkPoint_core (s : State) : (sinkPoint s).core = s.core := by unfold sinkPoint; rw [playSteps_core]
@[simp] theorem sinkPoint_inputs (s : State) : (sinkPoint s).inputs = s.inputs := by unfold sinkPoint; rw [playSteps_inputs]
@[simp] theorem sinkPoint_draws (s : State) : (sinkPoint s).draws = { s.draws with plays := s.draws.plays.tail } := by unfold sinkPoint; rw [playSteps_draws]
@[simp] theorem sinkPoint_responses (s : State) : (sinkPoint s).responses = s.responses := by unfold sinkPoint; rw [playSteps_responses]


/-! `sinkGive` -/
@[simp] theorem sinkGive_cfg (s : State) (n : Nat) : (sinkGive s n).cfg = s.cfg := by unfold sinkGive; split <;> rfl
@[simp] theorem sinkGive_initialized (s : State) (n : Nat) : (sinkGive s n).initialized = s.initialized := by unfold sinkGive; split <;> rfl
@[simp] theorem sinkGive_musicEnabled (s : State) (n : Nat) : (sinkGive s n).musicEnabled = s.musicEnabled := by unfold sinkGive; split <;> rfl
@[simp] theorem sinkGive_fadeState (s : State) (n : Nat) : (sinkGive s n).fadeState = s.fadeState := by unfold sinkGive; split <;> rfl
@[simp] theorem sinkGive_fadeLevel (s : State) (n : Nat) : (sinkGive s n).fadeLevel = s.fadeLevel := by unfold sinkGive; split <;> rfl
@[simp] theorem sinkGive_faulted (s : State) (n : Nat) : (sinkGive s n).faulted = s.faulted := by unfold sinkGive; split <;> rfl
@[simp] theorem sinkGive_faultReason (s : State) (n : Nat) : (sinkGive s n).faultReason = s.faultReason := by unfold sinkGive; split <;> rfl
@[simp] theorem sinkGive_resp (s : State) (n : Nat) : (sinkGive s n).resp = s.resp := by unfold sinkGive; split <;> rfl
@[simp] theorem sinkGive_ch (s : State) (n : Nat) : (sinkGive s n).ch = s.ch := by unfold sinkGive; split <;> rfl
@[simp] theorem sinkGive_mem (s : State) (n : Nat) : (sinkGive s n).mem = s.mem := by unfold sinkGive; split <;> rfl
@[simp] theorem sinkGive_named (s : State) (n : Nat) : (sinkGive s n).named = s.named := by unfold sinkGive; split <;> rfl
@[simp] theorem sinkGive_empty (s : State) (n : Nat) : (sinkGive s n).empty = s.empty := by unfold sinkGive; split <;> rfl
@[simp] theorem sinkGive_core (s : State) (n : Nat) : (sinkGive s n).core = none := by unfold sinkGive; split <;> first | rfl | assumption
@[simp] theorem sinkGive_inputs (s : State) (n : Nat) : (sinkGive s n).inputs = s.inputs := by unfold sinkGive; split <;> rfl
@[simp] theorem sinkGive_draws (s : State) (n : Nat) : (sinkGive s n).draws = s.draws := by unfold sinkGive; split <;> rfl
@[simp] theorem sinkGive_played (s : State) (n : Nat) : (sinkGive s n).played = s.played := by unfold sinkGive; split <;> rfl
@[simp] theorem sinkGive_responses (s : State) (n : Nat) : (sinkGive s n).responses = s.responses := by unfold sinkGive; split <;> rfl


/-! `afterBase` -/
@[simp] theorem afterBase_cfg (s : State) : (afterBase s).cfg = s.cfg := by unfold afterBase; split <;> rfl
@[simp] theorem afterBase_initialized (s : State) : (afterBase s).initialized = s.initialized := by unfold afterBase; split <;> rfl
@[simp] theorem afterBase_musicEnabled (s : State) : (afterBase s).musicEnabled = s.musicEnabled := by unfold afterBase; split <;> rfl
@[simp] theorem afterBase_fadeState (s : State) : (afterBase s).fadeState = s.fadeState := by unfold afterBase; split <;> rfl
@[simp] theorem afterBase_fadeLevel (s : State) : (afterBase s).fadeLevel = s.fadeLevel := by unfold afterBase; split <;> rfl
@[simp] theorem afterBase_faulted (s : State) : (afterBase s).faulted = s.faulted := by unfold afterBase; split <;> rfl
@[simp] theorem afterBase_faultReason (s : State) : (afterBase s).faultReason = s.faultReason := by unfold afterBase; split <;> rfl
@[simp] theorem afterBase_resp (s : State) : (afterBase s).resp = s.resp := by unfold afterBase; split <;> rfl
@[simp] theorem afterBase_ch (s : State) : (afterBase s).ch = s.ch := by unfold afterBase; split <;> rfl
@[simp] theorem afterBase_mem (s : State) : (afterBase s).mem = s.mem := by unfold afterBase; split <;> rfl
@[simp] theorem afterBase_named (s : State) : (afterBase s).named = s.named := by unfold afterBase; split <;> rfl
@[simp] theorem afterBase_empty (s : State) : (afterBase s).empty = s.empty := by unfold afterBase; split <;> rfl
@[simp] theorem afterBase_core (s : State) : (afterBase s).core = s.core := by unfold afterBase; split <;> rfl
@[simp] theorem afterBase_filled (s : State) : (afterBase s).filled = s.filled := by unfold afterBase; split <;> rfl
@[simp] theorem afterBase_inputs (s : State) : (afterBase s).inputs = s.inputs := by unfold afterBase; split <;> rfl
@[simp] theorem afterBase_played (s : State) : (afterBase s).played = s.played := by unfold afterBase; split <;> rfl
@[simp] theorem afterBase_responses (s : State) : (afterBase s).responses = s.responses := by unfold afterBase; split <;> rfl


/-! `applyReset` -/
@[simp] theorem applyReset_cfg (s : State) : (applyReset s).cfg = s.cfg := rfl
@[simp] theorem applyReset_initialized (s : State) : (applyReset s).initialized = (State.resetWith s.cfg).initialized := rfl
@[simp] theorem applyReset_musicEnabled (s : State) : (applyReset s).musicEnabled = (State.resetWith s.cfg).musicEnabled := rfl
@[simp] theorem applyReset_fadeState (s : State) : (applyReset s).fadeState = (State.resetWith s.cfg).fadeState := rfl
@[simp] theorem applyReset_fadeLevel (s : State) : (applyReset s).fadeLevel = (State.resetWith s.cfg).fadeLevel := rfl
@[simp] theorem applyReset_faulted (s : State) : (applyReset s).faulted = (State.resetWith s.cfg).faulted := rfl
@[simp] theorem applyReset_faultReason (s : State) : (applyReset s).faultReason = (State.resetWith s.cfg).faultReason := rfl
@[simp] theorem applyReset_resp (s : State) : (applyReset s).resp = (State.resetWith s.cfg).resp := rfl
@[simp] theorem applyReset_ch (s : State) : (applyReset s).ch = (State.resetWith s.cfg).ch := rfl
@[simp] theorem applyReset_mem (s : State) : (applyReset s).mem = s.mem := rfl
@[simp] theorem applyReset_named (s : State) : (applyReset s).named = (State.resetWith s.cfg).named := rfl
@[simp] theorem applyReset_empty (s : State) : (applyReset s).empty = (State.resetWith s.cfg).empty := rfl
@[simp] theorem applyReset_core (s : State) : (applyReset s).core = (State.resetWith s.cfg).core := rfl
@[simp] theorem applyReset_filled (s : State) : (applyReset s).filled = (State.resetWith s.cfg).filled := rfl
@[simp] theorem applyReset_inputs (s : State) : (applyReset s).inputs = s.inputs := rfl
@[simp] theorem applyReset_draws (s : State) : (applyReset s).draws = s.draws := rfl
@[simp] theorem applyReset_played (s : State) : (applyReset s).played = s.played := rfl
@[simp] theorem applyReset_responses (s : State) : (applyReset s).responses = s.responses := rfl


end Sys2Proof.Machine
end

