-- ==== Sys2Proof/Laws/Memory.lean ====
section
/-! SUPPORT. Source memory (20_memory.md R50, R51): a read after a write, the canonical form is kept, what a read of
several bytes gives, and when it is the same in two states. -/

namespace Sys2Proof.Machine

theorem Memory.read_place_same (m : Memory) (a : Nat) (b : Byte) : Memory.read (Memory.place m a b) a = some b := by
  induction m with
  | nil => simp [Memory.place, Memory.read]
  | cons kc rest ih =>
    obtain ⟨k, c⟩ := kc
    simp only [Memory.place]
    split_ifs with h1 h2
    · simp [Memory.read]
    · simp [Memory.read]
    · simp [Memory.read, ih, Ne.symm h2]

theorem Memory.read_place_other (m : Memory) {a a' : Nat} (b : Byte) (h : a' ≠ a) :
    Memory.read (Memory.place m a b) a' = Memory.read m a' := by
  induction m with
  | nil => simp [Memory.place, Memory.read, Ne.symm h]
  | cons kc rest ih =>
    obtain ⟨k, c⟩ := kc
    simp only [Memory.place]
    split_ifs with h1 h2
    · simp [Memory.read, Ne.symm h]
    · subst h2; simp [Memory.read, Ne.symm h]
    · simp [Memory.read, ih]

theorem Memory.mem_place {m : Memory} {a : Nat} {b : Byte} {x : Host.Cell} (h : x ∈ Memory.place m a b) :
    x = (a, b) ∨ x ∈ m := by
  induction m with
  | nil => simpa [Memory.place] using h
  | cons kc rest ih =>
    obtain ⟨k, c⟩ := kc
    simp only [Memory.place] at h
    split_ifs at h with h1 h2
    · simpa using h
    · rcases List.mem_cons.1 h with h | h
      · exact .inl h
      · exact .inr (List.mem_cons_of_mem _ h)
    · rcases List.mem_cons.1 h with h | h
      · exact .inr (h ▸ List.mem_cons_self)
      · exact (ih h).imp_right (List.mem_cons_of_mem _)

theorem Memory.place_sorted {m : Memory} (a : Nat) (b : Byte) (h : m.Pairwise (fun x y => x.1 < y.1)) :
    (Memory.place m a b).Pairwise (fun x y => x.1 < y.1) := by
  induction m with
  | nil => simp [Memory.place]
  | cons kc rest ih =>
    obtain ⟨k, c⟩ := kc
    obtain ⟨hk, hr⟩ := List.pairwise_cons.1 h
    simp only [Memory.place]
    split_ifs with h1 h2
    · refine List.pairwise_cons.2 ⟨?_, h⟩
      intro y hy
      rcases List.mem_cons.1 hy with rfl | hy
      · exact h1
      · exact h1.trans (hk y hy)
    · subst h2; exact List.pairwise_cons.2 ⟨hk, hr⟩
    · refine List.pairwise_cons.2 ⟨?_, ih hr⟩
      intro y hy
      rcases Memory.mem_place hy with rfl | hy
      · show k < a; omega
      · exact hk y hy

/-- Making a byte resident keeps the canonical form. -/
theorem Memory.write_wf {m : Memory} (a : Nat) (b : Byte) (h : Memory.wf m) : Memory.wf (Memory.write m a b) := by
  unfold Memory.write
  split_ifs with ha
  · refine ⟨Memory.place_sorted a b h.1, fun x hx => ?_⟩
    rcases Memory.mem_place hx with rfl | hx
    · exact ha
    · exact h.2 x hx
  · exact h

/-- Making bytes resident keeps the canonical form. -/
theorem Memory.load_wf {m : Memory} (a : Nat) (bs : List Byte) (h : Memory.wf m) : Memory.wf (Memory.load m a bs) := by
  induction bs generalizing m a with
  | nil => exact h
  | cons b bs ih => exact ih (a + 1) (Memory.write_wf a b h)

theorem Memory.read_write_other (m : Memory) {a a' : Nat} (b : Byte) (h : a' ≠ a) :
    Memory.read (Memory.write m a b) a' = Memory.read m a' := by
  unfold Memory.write
  split_ifs
  · exact Memory.read_place_other m b h
  · rfl

theorem reset_mem_wf (c : Config) : Memory.wf (State.resetWith c).mem := by simp [Memory.wf, State.resetWith]

/-- What a read of one byte gives depends on the spans named and on source memory alone. -/
theorem byteAt_congr {s t : State} (hn : t.named = s.named) (hm : t.mem = s.mem) (a : Nat) : byteAt t a = byteAt s a := by
  simp [byteAt, hn, hm]

theorem readBytes_congr {s t : State} (hn : t.named = s.named) (hm : t.mem = s.mem) (a n : Nat) :
    readBytes t a n = readBytes s a n := by
  induction n generalizing a with
  | zero => rfl
  | succ n ih => simp [readBytes, byteAt_congr hn hm, ih]

/-- What `MemRead` gives depends on the spans named and on source memory alone (R61: a read has no other effect). -/
theorem memRead_congr {s t : State} (hn : t.named = s.named) (hm : t.mem = s.mem) (a n : Nat) :
    memRead t a n = memRead s a n := by
  simp [memRead, readBytes_congr hn hm]

theorem readBytes_length {s : State} {a n : Nat} {bs : List Byte} (h : readBytes s a n = some bs) : bs.length = n := by
  induction n generalizing a bs with
  | zero => simp [readBytes] at h; simp [← h]
  | succ n ih =>
    simp only [readBytes] at h
    split at h
    · rename_i hb hbs
      cases h
      simp [ih hbs]
    · cases h

/-- An admitted read gives exactly the bytes asked for. -/
theorem memRead_length {s : State} {a n : Nat} {bs : List Byte} (h : memRead s a n = some bs) : bs.length = n := by
  unfold memRead at h
  split_ifs at h with h0
  · cases h; simp [h0]
  · exact readBytes_length h

theorem readBytes_isSome {s : State} {a n : Nat} :
    (readBytes s a n).isSome = true ↔ ∀ k, a ≤ k → k < a + n → (byteAt s k).isSome = true := by
  induction n generalizing a with
  | zero => simp [readBytes]; omega
  | succ n ih =>
    have hcons : (readBytes s a (n + 1)).isSome = true ↔
        (byteAt s a).isSome = true ∧ (readBytes s (a + 1) n).isSome = true := by
      simp only [readBytes]
      cases byteAt s a <;> cases readBytes s (a + 1) n <;> simp
    rw [hcons, ih]
    constructor
    · rintro ⟨h0, h1⟩ k hk hk'
      rcases Nat.eq_or_lt_of_le hk with rfl | hlt
      · exact h0
      · exact h1 k hlt (by omega)
    · intro h
      exact ⟨h a le_rfl (by omega), fun k hk hk' => h k (by omega) (by omega)⟩

/-- When a read is admitted (R51). -/
theorem memRead_isSome {s : State} {a n : Nat} :
    (memRead s a n).isSome = true ↔
      n = 0 ∨ (a + n ≤ 2 ^ 32 ∧ ∀ k, a ≤ k → k < a + n → (byteAt s k).isSome = true) := by
  unfold memRead
  split_ifs with h0 h1
  · simp [h0]
  · simp only [readBytes_isSome]; tauto
  · refine ⟨fun h => by simp at h, fun h => ?_⟩
    rcases h with h | h
    · exact absurd h h0
    · exact absurd h.1 h1

/-- A span once named stays named. -/
theorem noteSpan_named_mono (s : State) (h : Hit) {r : Span} (hr : r ∈ s.named) : r ∈ (noteSpan s h).named := by
  unfold noteSpan
  dsimp only
  split_ifs
  · exact hr
  · simp [hr]

/-- The span of a hit is named. -/
theorem noteSpan_named_self (s : State) (h : Hit) : (⟨h.base.toNat, h.len⟩ : Span) ∈ (noteSpan s h).named := by
  unfold noteSpan
  dsimp only
  split_ifs with hm
  · exact hm
  · simp

theorem afterLookup_named_mono (s : State) (sid : BitVec 16) {r : Span} (hr : r ∈ s.named) :
    r ∈ (afterLookup s sid).named := by
  unfold afterLookup
  split
  · exact noteSpan_named_mono s _ hr
  · exact hr

/-- A byte that could be read can be read when more spans are named. -/
theorem byteAt_mono {s t : State} (hn : ∀ r ∈ s.named, r ∈ t.named) (hm : t.mem = s.mem) {a : Nat}
    (h : (byteAt s a).isSome = true) : (byteAt t a).isSome = true := by
  unfold byteAt at h ⊢
  split_ifs at h with hs
  · have ht : t.named.any (fun r => r.covers a) = true := by
      obtain ⟨r, hr, hc⟩ := List.any_eq_true.1 hs
      exact List.any_eq_true.2 ⟨r, hn r hr, hc⟩
    rw [if_pos ht, hm]; exact h
  · simp at h

end Sys2Proof.Machine
end

