-- ==== Sys2Proof/Laws/Decoder.lean ====
section
/-! SUPPORT. The block decoder (40_adpcm_decoder.md): how many samples a block gives, the ranges of the accumulator,
and everything `decodeNext` can do. -/

namespace Sys2Proof.Machine

theorem clamp_ge {v lo hi : Int} (h : lo ≤ hi) : lo ≤ clamp v lo hi := by unfold clamp; split_ifs <;> omega

theorem clamp_le {v lo hi : Int} (h : lo ≤ hi) : clamp v lo hi ≤ hi := by unfold clamp; split_ifs <;> omega

theorem sat16_range (v : Int) : -32768 ≤ sat16 v ∧ sat16 v ≤ 32767 := ⟨clamp_ge (by decide), clamp_le (by decide)⟩

theorem decodeNibbles_length (tbl : Vector (BitVec 16) 89) (a : Accum) (ns : List (BitVec 4)) :
    (decodeNibbles tbl a ns).length = ns.length := by
  induction ns generalizing a with
  | nil => rfl
  | cons n ns ih => simp [decodeNibbles, ih]

theorem flatMap_nibbles_length (bs : List Byte) : (bs.flatMap nibbles).length = 2 * bs.length := by
  induction bs with
  | nil => rfl
  | cons b bs ih => simp only [List.flatMap_cons, List.length_append, ih, List.length_cons]; simp [nibbles]; omega

/-- Either nothing, or `1 + 2*(L-4)` samples (R113). -/
theorem decodeAdpcm_length (tbl : Vector (BitVec 16) 89) (blk : List Byte) :
    decodeAdpcm tbl blk = [] ∨ (decodeAdpcm tbl blk).length = 1 + 2 * (blk.length - 4) := by
  unfold decodeAdpcm
  split_ifs
  · exact .inl rfl
  · dsimp only
    split_ifs
    · exact .inl rfl
    · right
      rw [List.length_cons, decodeNibbles_length, flatMap_nibbles_length, List.length_drop]
      omega

/-- A block of at most the format's block size decodes to at most `DECODE_CAP` samples (R117, R121). -/
theorem decodeBlock_length_le (c : Config) (f : Format) (bs : List Byte) (h : bs.length ≤ blockBytes c f) :
    (decodeBlock c f bs).length ≤ c.decodeCap := by
  cases f with
  | adpcm =>
    simp only [blockBytes] at h
    rcases decodeAdpcm_length c.stepTable bs with h0 | h1
    · simp [decodeBlock, h0]
    · simp only [decodeBlock, h1, Config.decodeCap]; omega
  | raw => simpa [decodeBlock, decodeRaw, blockBytes, Config.rawBlockBytes] using h

/-- Nothing decodes to nothing. -/
theorem decodeBlock_nil (c : Config) (f : Format) : decodeBlock c f [] = [] := by
  cases f <;> simp [decodeBlock, decodeRaw, decodeAdpcm]

/-- Everything `decodeNext` can do (R122): read the next bytes and keep their samples. -/
theorem decodeNext_cases {s : State} {x y : Channel} (h : decodeNext s x = some y) :
    ∃ bs, memRead s x.srcPos.toNat (min (blockBytes s.cfg x.format) x.remaining) = some bs ∧
      bs.length = min (blockBytes s.cfg x.format) x.remaining ∧
      y = x.take (min (blockBytes s.cfg x.format) x.remaining) (decodeBlock s.cfg x.format bs) := by
  unfold decodeNext at h
  dsimp only at h
  split at h
  · cases h
  · rename_i bs hbs
    cases h
    exact ⟨bs, hbs, memRead_length hbs, rfl⟩

theorem decodeNext_congr {s t : State} (hc : t.cfg = s.cfg) (hn : t.named = s.named) (hm : t.mem = s.mem) (x : Channel) :
    decodeNext t x = decodeNext s x := by
  simp [decodeNext, memRead_congr hn hm, hc]

theorem take_srcPos (x : Channel) {n : Nat} (hn : n ≤ x.remaining) (smp : List Sample) :
    (x.take n smp).srcPos.toNat = x.srcPos.toNat + n := by
  unfold Channel.remaining at hn
  have h1 := x.srcEnd.isLt
  have h2 := x.srcPos.isLt
  simp only [Channel.take, BitVec.toNat_ofNat]
  apply Nat.mod_eq_of_lt
  omega

/-- Each decode takes its bytes off what remains. -/
theorem decodeNext_remaining {s : State} {x y : Channel} (h : decodeNext s x = some y) :
    y.remaining = x.remaining - min (blockBytes s.cfg x.format) x.remaining := by
  obtain ⟨bs, -, -, rfl⟩ := decodeNext_cases h
  have := take_srcPos x (Nat.min_le_right (blockBytes s.cfg x.format) x.remaining) (decodeBlock s.cfg x.format bs)
  unfold Channel.remaining at *
  rw [this]
  simp only [Channel.take]
  omega

/-- A decode that leaves the channel active took at least one byte (44_scheduler.md R236). -/
theorem decodeNext_progress {s : State} {x y : Channel} (h : decodeNext s x = some y) (hy : y.decodedCount ≠ 0) :
    y.remaining < x.remaining := by
  have hrem := decodeNext_remaining h
  obtain ⟨bs, -, hlen, rfl⟩ := decodeNext_cases h
  rcases Nat.eq_zero_or_pos (min (blockBytes s.cfg x.format) x.remaining) with h0 | hpos
  · rw [h0] at hlen
    have : bs = [] := List.length_eq_zero_iff.1 hlen
    simp [this, decodeBlock_nil, Channel.take] at hy
  · have : 0 < x.remaining := by omega
    omega

/-- At the end of the payload a decode gives nothing (R122). -/
theorem decodeNext_at_end {s : State} {x y : Channel} (h : decodeNext s x = some y) (hx : x.remaining = 0) :
    y.decodedCount = 0 := by
  by_contra hy
  have := decodeNext_progress h hy
  omega

theorem decodeNext_sameVoice {s : State} {x y : Channel} (h : decodeNext s x = some y) : x.SameVoice y := by
  obtain ⟨bs, -, -, rfl⟩ := decodeNext_cases h
  simp [Channel.take, Channel.SameVoice]

theorem decodeNext_offset {s : State} {x y : Channel} (h : decodeNext s x = some y) : y.offset = x.offset := by
  obtain ⟨bs, -, -, rfl⟩ := decodeNext_cases h
  rfl

theorem decodeNext_smoothPrev {s : State} {x y : Channel} (h : decodeNext s x = some y) : y.smoothPrev = x.smoothPrev := by
  obtain ⟨bs, -, -, rfl⟩ := decodeNext_cases h
  rfl

theorem decodeCap_le {c : Config} (h : c.Legal) : c.decodeCap ≤ 65527 := by
  unfold Config.decodeCap; omega

theorem mul_decodedCount_lt (x : Channel) : x.decodedCount.toNat * 2 ^ 16 < 2 ^ 32 := by
  have := x.decodedCount.isLt
  omega

/-- A decode keeps the ranges of a channel (10_state.md R25, R31). -/
theorem decodeNext_inRange {s : State} {x y : Channel} (hc : s.cfg.Legal) (h : decodeNext s x = some y)
    (hx : x.InRange s.cfg) : y.InRange s.cfg := by
  obtain ⟨bs, -, hlen, rfl⟩ := decodeNext_cases h
  obtain ⟨h1, h2, h3, h4, h5, h6⟩ := hx
  have hle := decodeBlock_length_le s.cfg x.format bs (by omega)
  have hcap := decodeCap_le hc
  have hpos := take_srcPos x (Nat.min_le_right (blockBytes s.cfg x.format) x.remaining) (decodeBlock s.cfg x.format bs)
  refine ⟨?_, ?_, ?_, h4, h5, h6⟩
  · simp only [Channel.take, List.length_append, List.length_drop, h1]; omega
  · simp only [Channel.take, BitVec.toNat_ofNat]
    exact (Nat.mod_le _ _).trans hle
  · rw [hpos]
    simp only [Channel.take, Channel.remaining]
    omega

/-- After a decode every counted sample is there. -/
theorem decodeNext_count_le {s : State} {x y : Channel} (h : decodeNext s x = some y) :
    y.decodedCount.toNat ≤ y.decodedBlock.length := by
  obtain ⟨bs, -, hlen, rfl⟩ := decodeNext_cases h
  simp only [Channel.take, BitVec.toNat_ofNat, List.length_append]
  exact (Nat.mod_le _ _).trans (Nat.le_add_right _ _)

end Sys2Proof.Machine
end

