-- ==== Sys2Proof/Laws/Encoding.lean ====
section
/-! SUPPORT. The bits of a packed command word (30_encoding.md R80), and cutting and packing undo each other. -/

namespace Sys2Proof

/-- Which field each bit of a word belongs to (R80). -/
theorem pack_getLsbD (f : Fields) (k : Nat) :
    (pack f).getLsbD k =
      if k < 8 then f.op.getLsbD k else if k < 16 then f.ch.getLsbD (k - 8) else if k < 24 then f.vol.getLsbD (k - 16)
      else if k < 32 then f.sep.getLsbD (k - 24) else if k < 40 then f.pitch.getLsbD (k - 32)
      else if k < 56 then f.sid.getLsbD (k - 40) else f.rsv.getLsbD (k - 56) := by
  show (f.rsv ++ f.sid ++ f.pitch ++ f.sep ++ f.vol ++ f.ch ++ f.op : BitVec (8 + 16 + 8 + 8 + 8 + 8 + 8)).getLsbD k = _
  simp only [BitVec.getLsbD_append, Nat.sub_sub]
  split_ifs <;> first | rfl | omega

/-- Cutting a packed word gives the fields back. -/
theorem fieldsOf_pack (f : Fields) : fieldsOf (pack f) = f := by
  obtain ⟨rsv, sid, pitch, sep, vol, ch, op⟩ := f
  simp only [fieldsOf, Fields.mk.injEq]
  refine ⟨?_, ?_, ?_, ?_, ?_, ?_, ?_⟩ <;>
    · apply BitVec.eq_of_getLsbD_eq
      intro k hk
      simp only [BitVec.getLsbD_extractLsb', pack_getLsbD, hk, decide_true, Bool.true_and]
      split_ifs <;> first | omega | (congr 1; omega)

/-- Packing a word's fields gives the word back. -/
theorem pack_fieldsOf (w : CmdWord) : pack (fieldsOf w) = w := by
  apply BitVec.eq_of_getLsbD_eq
  intro k hk
  simp only [pack_getLsbD, fieldsOf, BitVec.getLsbD_extractLsb']
  have sub (a n : Nat) (h : k - a < n) (h' : a ≤ k) : (decide (k - a < n) && w.getLsbD (a + (k - a))) = w.getLsbD k := by
    rw [Nat.add_sub_cancel' h']; simp [h]
  split_ifs with h1 h2 h3 h4 h5 h6
  · simp [h1]
  · exact sub 8 8 (by omega) (by omega)
  · exact sub 16 8 (by omega) (by omega)
  · exact sub 24 8 (by omega) (by omega)
  · exact sub 32 8 (by omega) (by omega)
  · exact sub 40 16 (by omega) (by omega)
  · exact sub 56 8 (by omega) (by omega)

end Sys2Proof
end

