-- ==== Sys2Proof/Laws/Fade.lean ====
section
/-! SUPPORT. The fade controller (43_fade.md): the ramp's numbers, the relations it keeps (10_state.md R37), and what
a buffer looks like after it. -/

namespace Sys2Proof.Machine

/-- The relations of 10_state.md R37 on a state and a level. -/
abbrev Fade.Ok (f : Fade) : Prop :=
  f.level.toNat ≤ 65536 ∧ (f.state = .none → f.level.toNat = 65536) ∧ (f.state = .silent → f.level.toNat = 0)

theorem rampStep_out {c : Config} {l : BitVec 17} :
    (rampStep c ⟨.fadingOut, l⟩).level.toNat = l.toNat - c.fadeStep ∧
    ((rampStep c ⟨.fadingOut, l⟩).state = if l.toNat - c.fadeStep = 0 then .silent else .fadingOut) := by
  have := l.isLt
  refine ⟨?_, rfl⟩
  simp only [rampStep, BitVec.toNat_ofNat]
  omega

theorem rampStep_in {c : Config} {l : BitVec 17} :
    (rampStep c ⟨.fadingIn, l⟩).level.toNat = min 65536 (l.toNat + c.fadeStep) ∧
    ((rampStep c ⟨.fadingIn, l⟩).state = if min 65536 (l.toNat + c.fadeStep) = 65536 then .none else .fadingIn) := by
  refine ⟨?_, rfl⟩
  simp only [rampStep, BitVec.toNat_ofNat]
  omega

theorem rampStep_still {c : Config} {l : BitVec 17} :
    rampStep c ⟨.none, l⟩ = ⟨.none, l⟩ ∧ rampStep c ⟨.silent, l⟩ = ⟨.silent, l⟩ := ⟨rfl, rfl⟩

/-- The ramp step keeps the relations of R37. -/
theorem rampStep_ok (c : Config) {f : Fade} (h : f.Ok) : (rampStep c f).Ok := by
  obtain ⟨st, l⟩ := f
  obtain ⟨h1, h2, h3⟩ := h
  dsimp only at h1 h2 h3
  cases st with
  | none => exact ⟨h1, h2, h3⟩
  | silent => exact ⟨h1, h2, h3⟩
  | fadingOut =>
    obtain ⟨e1, e2⟩ := rampStep_out (c := c) (l := l)
    refine ⟨by omega, ?_, ?_⟩ <;> rw [e2] <;> split_ifs <;> simp <;> omega
  | fadingIn =>
    obtain ⟨e1, e2⟩ := rampStep_in (c := c) (l := l)
    refine ⟨by omega, ?_, ?_⟩ <;> rw [e2] <;> split_ifs <;> simp <;> omega

theorem fadeBuffer_frame (c : Config) (f : Fade) (l r : Pcm) (rest : List Pcm) :
    fadeBuffer c f (l :: r :: rest) =
      ⟨(fadeBuffer c (rampStep c f) rest).fade,
       fadeElement (rampStep c f) l :: fadeElement (rampStep c f) r :: (fadeBuffer c (rampStep c f) rest).buf⟩ := by
  rw [fadeBuffer]

theorem fadeBuffer_short {c : Config} {f : Fade} {buf : List Pcm} (h : ∀ l r rest, buf = l :: r :: rest → False) :
    fadeBuffer c f buf = ⟨f, buf⟩ := by
  rw [fadeBuffer]; exact h

theorem fadeBuffer_ok (c : Config) (f : Fade) (buf : List Pcm) (h : f.Ok) : (fadeBuffer c f buf).fade.Ok := by
  induction f, buf using fadeBuffer.induct c with
  | case1 f l r rest f' ih => rw [fadeBuffer_frame]; exact ih (rampStep_ok c h)
  | case2 f buf hs => rw [fadeBuffer_short hs]; exact h

theorem fadeBuffer_length (c : Config) (f : Fade) (buf : List Pcm) : (fadeBuffer c f buf).buf.length = buf.length := by
  induction f, buf using fadeBuffer.induct c with
  | case1 f l r rest f' ih => rw [fadeBuffer_frame]; simpa using ih
  | case2 f buf hs => rw [fadeBuffer_short hs]

/-- A request keeps the relations of R37 (R214). -/
theorem request_ok (arg : Bool) {f : Fade} (h : f.Ok) : (⟨f.state.request arg, f.level⟩ : Fade).Ok := by
  obtain ⟨st, l⟩ := f
  obtain ⟨h1, h2, h3⟩ := h
  cases arg <;> cases st <;> simp_all [FadeState.request, Fade.Ok]

end Sys2Proof.Machine
end

