-- ==== Sys2Proof/Laws/Mixer.lean ====
section
/-! SUPPORT. The mixer (42_mixer.md): a block crossing always ends, everything it can do, and what mixing a channel
leaves: its voice, the buffer's length, the ranges, the position. -/

namespace Sys2Proof.Machine

theorem wrapBlock_remaining (x : Channel) : x.wrapBlock.remaining = x.remaining := rfl

theorem wrapBlock_sameVoice (x : Channel) : x.SameVoice x.wrapBlock := by simp [Channel.wrapBlock, Channel.SameVoice]

theorem wrapBlock_inRange {c : Config} {x : Channel} (h : x.InRange c) : x.wrapBlock.InRange c := h

theorem Channel.SameVoice.refl (x : Channel) : x.SameVoice x := by simp [Channel.SameVoice]

theorem Channel.SameVoice.trans {x y z : Channel} (h : x.SameVoice y) (h' : y.SameVoice z) : x.SameVoice z := by
  obtain ⟨a, b, c, d, e, f⟩ := h
  obtain ⟨a', b', c', d', e', f'⟩ := h'
  exact ⟨a'.trans a, b'.trans b, c'.trans c, d'.trans d, e'.trans e, f'.trans f⟩

/-- The block crossing ends within its bound, in every state (R187, 44_scheduler.md R236). -/
theorem crossBlocks_ends (s : State) (k : Nat) (x : Channel) (h : x.remaining < k) :
    (crossBlocks s k x).verdict ≠ .endless := by
  induction k generalizing x with
  | zero => omega
  | succ k ih =>
    simp only [crossBlocks]
    split_ifs with hx
    · split
      · simp
      · rename_i y hy
        split_ifs with h0
        · simp
        · have := decodeNext_progress hy h0
          rw [wrapBlock_remaining] at this
          exact ih y (by omega)
    · simp

/-- Everything a block crossing keeps, however it ends. -/
theorem crossBlocks_keeps {P : Channel → Prop} (s : State) (hw : ∀ x, P x → P x.wrapBlock)
    (hd : ∀ x y, decodeNext s x = some y → P x → P y) (k : Nat) (x : Channel) (hx : P x) :
    P (crossBlocks s k x).chan := by
  induction k generalizing x with
  | zero => exact hx
  | succ k ih =>
    simp only [crossBlocks]
    split_ifs
    · split
      · exact hw x hx
      · rename_i y hy
        have hy' := hd _ y hy (hw x hx)
        split_ifs
        · exact hy'
        · exact ih y hy'
    · exact hx

theorem crossBlocks_sameVoice (s : State) (k : Nat) (x : Channel) : x.SameVoice (crossBlocks s k x).chan :=
  crossBlocks_keeps (P := fun y => x.SameVoice y) s (fun y h => h.trans (wrapBlock_sameVoice y))
    (fun _ _ hd h => h.trans (decodeNext_sameVoice hd)) k x (.refl x)

theorem crossBlocks_smoothPrev (s : State) (k : Nat) (x : Channel) :
    (crossBlocks s k x).chan.smoothPrev = x.smoothPrev :=
  crossBlocks_keeps (P := fun y => y.smoothPrev = x.smoothPrev) s (fun _ h => h)
    (fun _ _ hd h => (decodeNext_smoothPrev hd).trans h) k x rfl

theorem crossBlocks_inRange (s : State) (hc : s.cfg.Legal) (k : Nat) (x : Channel) (hx : x.InRange s.cfg) :
    (crossBlocks s k x).chan.InRange s.cfg :=
  crossBlocks_keeps (P := fun y => y.InRange s.cfg) s (fun _ h => h) (fun _ _ hd h => decodeNext_inRange hc hd h) k x hx

/-- How a block crossing that ends well leaves the channel: stopped with no sample, or positioned (R187). -/
theorem crossBlocks_ok {s : State} {k : Nat} {x : Channel} (h : (crossBlocks s k x).verdict = .ok) :
    ((crossBlocks s k x).stopped = true ∧ (crossBlocks s k x).chan.decodedCount = 0) ∨
    ((crossBlocks s k x).stopped = false ∧
      (crossBlocks s k x).chan.offset.toNat < (crossBlocks s k x).chan.decodedCount.toNat * 2 ^ 16) := by
  induction k generalizing x with
  | zero => simp [crossBlocks] at h
  | succ k ih =>
    simp only [crossBlocks] at h ⊢
    split_ifs at h ⊢ with hx
    · split at h
      · cases h
      · rename_i y hy
        split_ifs at h ⊢ with h0
        · exact .inl ⟨rfl, h0⟩
        · exact ih h
    · exact .inr ⟨rfl, Nat.lt_of_not_le hx⟩

/-- A crossing fails on the bus only where a decode did (R182). -/
theorem crossBlocks_bus {s : State} {P : Channel → Prop} (hw : ∀ x, P x → P x.wrapBlock)
    (hd : ∀ x y, decodeNext s x = some y → P x → P y) (hs : ∀ x, P x → decodeNext s x ≠ none)
    (k : Nat) (x : Channel) (hx : P x) : (crossBlocks s k x).verdict ≠ .bus := by
  induction k generalizing x with
  | zero => simp [crossBlocks]
  | succ k ih =>
    simp only [crossBlocks]
    split_ifs
    · split
      · rename_i hn; exact absurd hn (hs _ (hw x hx))
      · rename_i y hy
        have hy' := hd _ y hy (hw x hx)
        split_ifs
        · simp
        · exact ih y hy'
    · simp

theorem crossBlocks_noValue (s : State) (k : Nat) (x : Channel) : (crossBlocks s k x).verdict ≠ .noValue := by
  induction k generalizing x with
  | zero => simp [crossBlocks]
  | succ k ih =>
    simp only [crossBlocks]
    split_ifs
    · split
      · simp
      · split_ifs
        · simp
        · exact ih _
    · simp

theorem remember_sameVoice (x : Channel) (c : Config) (smp : Int) : x.SameVoice (x.remember c smp) := by
  unfold Channel.remember; split_ifs <;> simp [Channel.SameVoice]

theorem remember_inRange {c c' : Config} {x : Channel} {smp : Int} (h : x.InRange c) : (x.remember c' smp).InRange c := by
  unfold Channel.remember; split_ifs <;> exact h

@[simp] theorem remember_remaining (x : Channel) (c : Config) (smp : Int) : (x.remember c smp).remaining = x.remaining := by
  unfold Channel.remember; split_ifs <;> rfl

theorem played_sameVoice (x : Channel) (c : Config) (raw : Sample) : x.SameVoice (x.played c raw) :=
  remember_sameVoice x c (smoothed c x raw.toInt)

theorem played_inRange {c c' : Config} {x : Channel} {raw : Sample} (h : x.InRange c) : (x.played c' raw).InRange c :=
  remember_inRange (smp := smoothed c' x raw.toInt) h

theorem crossFrame_ends (s : State) (x : Channel) : (crossFrame s x).verdict ≠ .endless :=
  crossBlocks_ends s _ x (Nat.lt_succ_self _)

theorem crossFrame_noValue (s : State) (x : Channel) : (crossFrame s x).verdict ≠ .noValue := crossBlocks_noValue s _ x

/-! ## One channel -/

/-- A frame whose sample holds no value stops the model. -/
theorem mixChannel_noSample {s : State} {x : Channel} {l r : Pcm} {rest : List Pcm} (h : x.sample = none) :
    mixChannel s x (l :: r :: rest) = ⟨.noValue, x, l :: r :: rest⟩ := by
  rw [mixChannel, h]

/-- A frame after which the channel plays on (R182). -/
theorem mixChannel_goesOn {s : State} {x : Channel} {l r : Pcm} {rest : List Pcm} {raw : Sample}
    (h : x.sample = some raw)
    (hc : (crossFrame s (x.played s.cfg raw)).verdict = .ok ∧ (crossFrame s (x.played s.cfg raw)).stopped = false) :
    mixChannel s x (l :: r :: rest) =
      ⟨(mixChannel s (crossFrame s (x.played s.cfg raw)).chan rest).verdict,
       (mixChannel s (crossFrame s (x.played s.cfg raw)).chan rest).chan,
       mixLane l (smoothed s.cfg x raw.toInt) x.leftVol :: mixLane r (smoothed s.cfg x raw.toInt) x.rightVol ::
         (mixChannel s (crossFrame s (x.played s.cfg raw)).chan rest).buf⟩ := by
  rw [mixChannel, h]
  simp only [hc, and_self, if_true]

/-- A frame after which the channel's pass ends: stopped, or failed on the bus (R182). -/
theorem mixChannel_ends {s : State} {x : Channel} {l r : Pcm} {rest : List Pcm} {raw : Sample}
    (h : x.sample = some raw)
    (hc : ¬ ((crossFrame s (x.played s.cfg raw)).verdict = .ok ∧ (crossFrame s (x.played s.cfg raw)).stopped = false)) :
    mixChannel s x (l :: r :: rest) =
      ⟨(crossFrame s (x.played s.cfg raw)).verdict, (crossFrame s (x.played s.cfg raw)).chan,
       mixLane l (smoothed s.cfg x raw.toInt) x.leftVol :: mixLane r (smoothed s.cfg x raw.toInt) x.rightVol :: rest⟩ := by
  rw [mixChannel, h]
  simp only [hc, if_false]

/-- A buffer with no frame is left alone. -/
theorem mixChannel_short {s : State} {x : Channel} {buf : List Pcm} (h : ∀ l r rest, buf = l :: r :: rest → False) :
    mixChannel s x buf = ⟨.ok, x, buf⟩ := by
  rw [mixChannel]; exact h

/-- Everything mixing a channel keeps, however it ends. -/
theorem mixChannel_keeps {P : Channel → Prop} (s : State) (hf : ∀ x raw, P x → P (x.played s.cfg raw))
    (hc : ∀ x, P x → P (crossFrame s x).chan) (x : Channel) (buf : List Pcm) (hx : P x) :
    P (mixChannel s x buf).chan := by
  induction x, buf using mixChannel.induct s with
  | case1 x l r rest h => rw [mixChannel_noSample h]; exact hx
  | case2 x l r rest raw h cr hok ih => rw [mixChannel_goesOn h hok]; exact ih (hc _ (hf x raw hx))
  | case3 x l r rest raw h cr hok => rw [mixChannel_ends h hok]; exact hc _ (hf x raw hx)
  | case4 x buf h => rw [mixChannel_short h]; exact hx

theorem mixChannel_sameVoice (s : State) (x : Channel) (buf : List Pcm) : x.SameVoice (mixChannel s x buf).chan :=
  mixChannel_keeps (P := fun y => x.SameVoice y) s (fun y raw h => h.trans (played_sameVoice y s.cfg raw))
    (fun y h => h.trans (crossBlocks_sameVoice s _ y)) x buf (.refl x)

theorem mixChannel_inRange (s : State) (hc : s.cfg.Legal) (x : Channel) (buf : List Pcm) (hx : x.InRange s.cfg) :
    (mixChannel s x buf).chan.InRange s.cfg :=
  mixChannel_keeps (P := fun y => y.InRange s.cfg) s (fun _ _ h => played_inRange h)
    (fun y h => crossBlocks_inRange s hc _ y h) x buf hx

theorem mixChannel_length (s : State) (x : Channel) (buf : List Pcm) : (mixChannel s x buf).buf.length = buf.length := by
  induction x, buf using mixChannel.induct s with
  | case1 x l r rest h => rw [mixChannel_noSample h]
  | case2 x l r rest raw h cr hok ih => rw [mixChannel_goesOn h hok]; simpa using ih
  | case3 x l r rest raw h cr hok => rw [mixChannel_ends h hok]; simp
  | case4 x buf h => rw [mixChannel_short h]

/-- Mixing a channel never meets the bound on its decodes, in any state (44_scheduler.md R236). -/
theorem mixChannel_not_endless (s : State) (x : Channel) (buf : List Pcm) : (mixChannel s x buf).verdict ≠ .endless := by
  induction x, buf using mixChannel.induct s with
  | case1 x l r rest h => rw [mixChannel_noSample h]; simp
  | case2 x l r rest raw h cr hok ih => rw [mixChannel_goesOn h hok]; exact ih
  | case3 x l r rest raw h cr hok => rw [mixChannel_ends h hok]; exact crossFrame_ends s _
  | case4 x buf h => rw [mixChannel_short h]; simp

/-- An active channel in range and positioned has a sample to play (R183). -/
theorem sample_isSome {c : Config} {x : Channel} (hr : x.InRange c) (hp : x.Positioned) (ha : x.decodedCount ≠ 0) :
    ∃ raw, x.sample = some raw := by
  have h1 := hp ha
  have hlt : x.offset.toNat / 2 ^ 16 < x.decodedCount.toNat := Nat.div_lt_of_lt_mul (by omega)
  refine ⟨x.decodedBlock[x.offset.toNat / 2 ^ 16]'(by have := hr.1; have := hr.2.1; omega), ?_⟩
  simp only [Channel.sample, if_pos hlt]
  rw [List.getElem?_eq_getElem]

theorem played_count (x : Channel) (c : Config) (raw : Sample) : (x.played c raw).decodedCount = x.decodedCount := by
  unfold Channel.played Channel.advance Channel.remember; split_ifs <;> rfl

theorem mixChannel_cases (s : State) (hc : s.cfg.Legal) (x : Channel) (buf : List Pcm) (hr : x.InRange s.cfg)
    (hp : x.Positioned) (ha : x.decodedCount ≠ 0) :
    (mixChannel s x buf).verdict = .bus ∨ ((mixChannel s x buf).verdict = .ok ∧ (mixChannel s x buf).chan.Positioned) := by
  induction x, buf using mixChannel.induct s with
  | case1 x l r rest h =>
    obtain ⟨raw, hraw⟩ := sample_isSome hr hp ha
    rw [h] at hraw; cases hraw
  | case2 x l r rest raw h cr hok ih =>
    rw [mixChannel_goesOn h hok]
    have hin : cr.chan.InRange s.cfg := crossBlocks_inRange s hc _ _ (played_inRange hr)
    rcases crossBlocks_ok hok.1 with ⟨h1, -⟩ | ⟨-, h2⟩
    · exact absurd (h1.symm.trans hok.2) (by simp)
    · exact ih hin (fun _ => h2) (by
        intro h0
        have h2' : cr.chan.offset.toNat < cr.chan.decodedCount.toNat * 2 ^ 16 := h2
        rw [h0] at h2'; simp at h2')
  | case3 x l r rest raw h cr hok =>
    rw [mixChannel_ends h hok]
    have h1 : cr.verdict ≠ .endless := crossFrame_ends s _
    have h2 : cr.verdict ≠ .noValue := crossFrame_noValue s _
    show cr.verdict = .bus ∨ (cr.verdict = .ok ∧ cr.chan.Positioned)
    cases hv : cr.verdict with
    | bus => exact .inl rfl
    | noValue => exact absurd hv h2
    | endless => exact absurd hv h1
    | ok =>
      right
      refine ⟨rfl, ?_⟩
      rcases crossBlocks_ok hv with ⟨-, h0⟩ | ⟨h3, -⟩
      · exact fun hne => absurd h0 hne
      · exact absurd ⟨hv, h3⟩ hok
  | case4 x buf h => rw [mixChannel_short h]; exact .inr ⟨rfl, hp⟩

/-- A property that makes every decode succeed makes mixing succeed on the bus. -/
theorem mixChannel_not_bus {P : Channel → Prop} (s : State) (hf : ∀ x raw, P x → P (x.played s.cfg raw))
    (hw : ∀ x, P x → P x.wrapBlock) (hd : ∀ x y, decodeNext s x = some y → P x → P y)
    (hs : ∀ x, P x → decodeNext s x ≠ none) (x : Channel) (buf : List Pcm) (hx : P x) :
    (mixChannel s x buf).verdict ≠ .bus := by
  induction x, buf using mixChannel.induct s with
  | case1 x l r rest h => rw [mixChannel_noSample h]; simp
  | case2 x l r rest raw h cr hok ih =>
    rw [mixChannel_goesOn h hok]
    exact ih (crossBlocks_keeps s hw hd _ _ (hf x raw hx))
  | case3 x l r rest raw h cr hok => rw [mixChannel_ends h hok]; exact crossBlocks_bus hw hd hs _ _ (hf x raw hx)
  | case4 x buf h => rw [mixChannel_short h]; simp

/-! ## All channels -/

/-- An inactive channel is passed over (R181). -/
theorem mixChannels_inactive {s : State} {x : Channel} {xs : List Channel} {buf : List Pcm} (h : x.active = false) :
    mixChannels s (x :: xs) buf =
      ⟨(mixChannels s xs buf).verdict, x :: (mixChannels s xs buf).chans, (mixChannels s xs buf).buf⟩ := by
  rw [mixChannels]; simp only [h, Bool.false_eq_true, if_false]

/-- An active channel is mixed, then the later ones (R181). -/
theorem mixChannels_mixed {s : State} {x : Channel} {xs : List Channel} {buf : List Pcm} (h : x.active = true)
    (hm : (mixChannel s x buf).verdict = .ok) :
    mixChannels s (x :: xs) buf =
      ⟨(mixChannels s xs (mixChannel s x buf).buf).verdict,
       (mixChannel s x buf).chan :: (mixChannels s xs (mixChannel s x buf).buf).chans,
       (mixChannels s xs (mixChannel s x buf).buf).buf⟩ := by
  rw [mixChannels]; simp only [h, if_true, hm]

/-- A channel that fails ends the pass (60_exceptions.md R262). -/
theorem mixChannels_failed {s : State} {x : Channel} {xs : List Channel} {buf : List Pcm} (h : x.active = true)
    (hm : (mixChannel s x buf).verdict ≠ .ok) :
    mixChannels s (x :: xs) buf =
      ⟨(mixChannel s x buf).verdict, (mixChannel s x buf).chan :: xs, (mixChannel s x buf).buf⟩ := by
  rw [mixChannels]; simp only [h, if_true, hm, if_false]

theorem active_iff (x : Channel) : x.active = true ↔ x.decodedCount ≠ 0 := by simp [Channel.active]

/-- What the pass leaves at each place is the channel as it was, or what mixing it onto some content left. -/
theorem mixChannels_chans (s : State) (xs : List Channel) (buf : List Pcm) :
    List.Forall₂ (fun x y => y = x ∨ (x.decodedCount ≠ 0 ∧ ∃ b, y = (mixChannel s x b).chan)) xs
      (mixChannels s xs buf).chans := by
  induction xs generalizing buf with
  | nil => exact .nil
  | cons x xs ih =>
    cases ha : x.active with
    | false => rw [mixChannels_inactive ha]; exact .cons (.inl rfl) (ih buf)
    | true =>
      have hx := (active_iff x).1 ha
      by_cases hm : (mixChannel s x buf).verdict = .ok
      · rw [mixChannels_mixed ha hm]; exact .cons (.inr ⟨hx, buf, rfl⟩) (ih _)
      · rw [mixChannels_failed ha hm]
        exact .cons (.inr ⟨hx, buf, rfl⟩) (List.forall₂_same.2 fun y _ => .inl rfl)

/-- Channel `c` after the pass. -/
theorem mixChannels_at (s : State) (xs : List Channel) (buf : List Pcm) (c : Nat) (y : Channel)
    (h : (mixChannels s xs buf).chans[c]? = some y) :
    ∃ x, xs[c]? = some x ∧ (y = x ∨ (x.decodedCount ≠ 0 ∧ ∃ b, y = (mixChannel s x b).chan)) := by
  have hf := mixChannels_chans s xs buf
  generalize (mixChannels s xs buf).chans = ys at h hf
  induction hf generalizing c with
  | nil => simp at h
  | cons hd _ ih =>
    cases c with
    | zero => simp at h; subst h; exact ⟨_, rfl, hd⟩
    | succ c => simpa using ih c (by simpa using h)

theorem mixChannels_count (s : State) (xs : List Channel) (buf : List Pcm) :
    (mixChannels s xs buf).chans.length = xs.length := (mixChannels_chans s xs buf).length_eq.symm

theorem mixChannels_length (s : State) (xs : List Channel) (buf : List Pcm) :
    (mixChannels s xs buf).buf.length = buf.length := by
  induction xs generalizing buf with
  | nil => rfl
  | cons x xs ih =>
    cases ha : x.active with
    | false => rw [mixChannels_inactive ha]; exact ih buf
    | true =>
      by_cases hm : (mixChannel s x buf).verdict = .ok
      · rw [mixChannels_mixed ha hm]; exact (ih _).trans (mixChannel_length s x buf)
      · rw [mixChannels_failed ha hm]; exact mixChannel_length s x buf

theorem mixChannels_not_endless (s : State) (xs : List Channel) (buf : List Pcm) :
    (mixChannels s xs buf).verdict ≠ .endless := by
  induction xs generalizing buf with
  | nil => simp [mixChannels]
  | cons x xs ih =>
    cases ha : x.active with
    | false => rw [mixChannels_inactive ha]; exact ih buf
    | true =>
      by_cases hm : (mixChannel s x buf).verdict = .ok
      · rw [mixChannels_mixed ha hm]; exact ih _
      · rw [mixChannels_failed ha hm]; exact mixChannel_not_endless s x buf

/-- On channels in range and positioned, the pass ends well or on the bus, and keeps both. -/
theorem mixChannels_cases (s : State) (hc : s.cfg.Legal) (xs : List Channel) (buf : List Pcm)
    (hr : ∀ x ∈ xs, x.InRange s.cfg) (hp : ∀ x ∈ xs, x.Positioned) :
    (mixChannels s xs buf).verdict = .bus ∨
    ((mixChannels s xs buf).verdict = .ok ∧ ∀ y ∈ (mixChannels s xs buf).chans, y.Positioned) := by
  induction xs generalizing buf with
  | nil => right; simp [mixChannels]
  | cons x xs ih =>
    have ih' := fun b => ih b (fun y hy => hr y (List.mem_cons_of_mem _ hy)) (fun y hy => hp y (List.mem_cons_of_mem _ hy))
    have hpx := hp x List.mem_cons_self
    cases ha : x.active with
    | false =>
      rw [mixChannels_inactive ha]
      exact (ih' buf).imp_right fun ⟨h1, h2⟩ => ⟨h1, by simpa using ⟨hpx, h2⟩⟩
    | true =>
      have hx := mixChannel_cases s hc x buf (hr x List.mem_cons_self) hpx ((active_iff x).1 ha)
      by_cases hm : (mixChannel s x buf).verdict = .ok
      · rw [mixChannels_mixed ha hm]
        rcases hx with hx | ⟨-, hx⟩
        · rw [hx] at hm; cases hm
        · exact (ih' _).imp_right fun ⟨h1, h2⟩ => ⟨h1, by simpa using ⟨hx, h2⟩⟩
      · rw [mixChannels_failed ha hm]
        rcases hx with hx | ⟨hx, -⟩
        · exact .inl hx
        · exact absurd hx hm

theorem mixChannels_inRange (s : State) (hc : s.cfg.Legal) (xs : List Channel) (buf : List Pcm)
    (hr : ∀ x ∈ xs, x.InRange s.cfg) : ∀ y ∈ (mixChannels s xs buf).chans, y.InRange s.cfg := by
  intro y hy
  obtain ⟨c, hc', rfl⟩ := List.mem_iff_getElem.1 hy
  obtain ⟨x, hx, h⟩ := mixChannels_at s xs buf c _ (List.getElem?_eq_getElem hc')
  have hin := hr x (List.mem_of_getElem? hx)
  rcases h with h | ⟨-, b, h⟩
  · rw [h]; exact hin
  · rw [h]; exact mixChannel_inRange s hc x b hin

/-- With no channel active the pass does nothing (R181, R182). -/
theorem mixChannels_silent (s : State) (xs : List Channel) (buf : List Pcm) (h : ∀ x ∈ xs, x.decodedCount = 0) :
    mixChannels s xs buf = ⟨.ok, xs, buf⟩ := by
  induction xs with
  | nil => rfl
  | cons x xs ih =>
    have hx : x.active = false := by simpa [Channel.active] using h x List.mem_cons_self
    rw [mixChannels_inactive hx, ih fun y hy => h y (List.mem_cons_of_mem _ hy)]

/-! ## Independence of the bound, and of what is not source memory -/

/-- The block crossing does not depend on its bound, once that is above the payload left (44_scheduler.md R236). -/
theorem crossBlocks_bound (s : State) (k k' : Nat) (x : Channel) (h : x.remaining < k) (h' : x.remaining < k') :
    crossBlocks s k x = crossBlocks s k' x := by
  induction k generalizing k' x with
  | zero => omega
  | succ k ih =>
    obtain ⟨k', rfl⟩ : ∃ j, k' = j + 1 := ⟨k' - 1, by omega⟩
    simp only [crossBlocks]
    split_ifs
    · split
      · rfl
      · rename_i y hy
        split_ifs with hc
        · rfl
        · have := decodeNext_progress hy hc
          have := wrapBlock_remaining x
          exact ih _ _ (by omega) (by omega)
    · rfl

theorem crossBlocks_congr {s t : State} (hc : t.cfg = s.cfg) (hn : t.named = s.named) (hm : t.mem = s.mem) (k : Nat)
    (x : Channel) : crossBlocks t k x = crossBlocks s k x := by
  induction k generalizing x with
  | zero => rfl
  | succ k ih => simp only [crossBlocks, decodeNext_congr hc hn hm, ih]

theorem crossFrame_congr {s t : State} (hc : t.cfg = s.cfg) (hn : t.named = s.named) (hm : t.mem = s.mem)
    (x : Channel) : crossFrame t x = crossFrame s x := crossBlocks_congr hc hn hm _ x

/-- Mixing a channel depends on parameters, named spans and source memory alone. -/
theorem mixChannel_congr {s t : State} (hc : t.cfg = s.cfg) (hn : t.named = s.named) (hm : t.mem = s.mem)
    (x : Channel) (buf : List Pcm) : mixChannel t x buf = mixChannel s x buf := by
  induction x, buf using mixChannel.induct s with
  | case1 x l r rest h => rw [mixChannel_noSample h, mixChannel_noSample h]
  | case2 x l r rest raw h cr hok ih =>
    have e : crossFrame t (x.played t.cfg raw) = crossFrame s (x.played s.cfg raw) := by
      rw [hc]; exact crossFrame_congr hc hn hm _
    rw [mixChannel_goesOn h hok, mixChannel_goesOn h (by rw [e]; exact hok), e, ih, hc]
  | case3 x l r rest raw h cr hok =>
    have e : crossFrame t (x.played t.cfg raw) = crossFrame s (x.played s.cfg raw) := by
      rw [hc]; exact crossFrame_congr hc hn hm _
    rw [mixChannel_ends h hok, mixChannel_ends h (by rw [e]; exact hok), e, hc]
  | case4 x buf h => rw [mixChannel_short h, mixChannel_short h]

theorem mixChannels_congr {s t : State} (hc : t.cfg = s.cfg) (hn : t.named = s.named) (hm : t.mem = s.mem)
    (xs : List Channel) (buf : List Pcm) : mixChannels t xs buf = mixChannels s xs buf := by
  induction xs generalizing buf with
  | nil => rfl
  | cons x xs ih => simp only [mixChannels, mixChannel_congr hc hn hm, ih]

end Sys2Proof.Machine
end

