-- ==== Sys2Proof/Laws/PerInstr.lean ====
section
/-! SUPPORT. Per command: its word is the instruction of its own row of the opcode map, and its fields are well
formed (30_encoding.md R85, R86). -/

namespace Sys2Proof.Laws.RowMatch

/-- The command's word has the bits its row fixes, and is well formed. -/
def Statement (i : Instr) : Prop :=
  encode i &&& opMask (Sys2Proof.rowOf i) = opMatch (Sys2Proof.rowOf i) ∧ i.wellFormed = true

theorem init : Statement .init := by unfold Statement; decide

theorem shutdown : Statement .shutdown := by unfold Statement; decide

theorem lookup (sid : BitVec 16) : Statement (.lookup sid) := by
  refine ⟨?_, by simp [Instr.wellFormed, Instr.fields, Fields.wellFormed, usesOf, Fields.unusedZero]⟩
  apply BitVec.eq_of_getLsbD_eq
  intro k hk
  rw [BitVec.getLsbD_and, encode, pack_getLsbD]
  interval_cases k <;> simp [Instr.fields, opMask, opMatch, Sys2Proof.rowOf]

theorem startSound (sid : BitVec 16) (ch vol sep pitch : BitVec 8) : Statement (.startSound sid ch vol sep pitch) := by
  refine ⟨?_, by simp [Instr.wellFormed, Instr.fields, Fields.wellFormed, usesOf, Fields.unusedZero]⟩
  apply BitVec.eq_of_getLsbD_eq
  intro k hk
  rw [BitVec.getLsbD_and, encode, pack_getLsbD]
  interval_cases k <;> simp [Instr.fields, opMask, opMatch, Sys2Proof.rowOf]

theorem updateParams (ch vol sep : BitVec 8) : Statement (.updateParams ch vol sep) := by
  refine ⟨?_, by simp [Instr.wellFormed, Instr.fields, Fields.wellFormed, usesOf, Fields.unusedZero]⟩
  apply BitVec.eq_of_getLsbD_eq
  intro k hk
  rw [BitVec.getLsbD_and, encode, pack_getLsbD]
  interval_cases k <;> simp [Instr.fields, opMask, opMatch, Sys2Proof.rowOf]

theorem stopSound (ch : BitVec 8) : Statement (.stopSound ch) := by
  refine ⟨?_, by simp [Instr.wellFormed, Instr.fields, Fields.wellFormed, usesOf, Fields.unusedZero]⟩
  apply BitVec.eq_of_getLsbD_eq
  intro k hk
  rw [BitVec.getLsbD_and, encode, pack_getLsbD]
  interval_cases k <;> simp [Instr.fields, opMask, opMatch, Sys2Proof.rowOf]

theorem isPlaying (ch : BitVec 8) : Statement (.isPlaying ch) := by
  refine ⟨?_, by simp [Instr.wellFormed, Instr.fields, Fields.wellFormed, usesOf, Fields.unusedZero]⟩
  apply BitVec.eq_of_getLsbD_eq
  intro k hk
  rw [BitVec.getLsbD_and, encode, pack_getLsbD]
  interval_cases k <;> simp [Instr.fields, opMask, opMatch, Sys2Proof.rowOf]

theorem updateSound : Statement .updateSound := by unfold Statement; decide

theorem precache : Statement .precache := by unfold Statement; decide

theorem setMusic (arg : Bool) : Statement (.setMusic arg) := by unfold Statement; cases arg <;> decide

theorem fadeTo (arg : Bool) : Statement (.fadeTo arg) := by unfold Statement; cases arg <;> decide

theorem isFading : Statement .isFading := by unfold Statement; decide

end Sys2Proof.Laws.RowMatch
end

