-- ==== Sys2Proof/Laws/Scheduler.lean ====
section
/-! SUPPORT. The scheduler (44_scheduler.md): what a take, a give and a play do to the buffers, everything
`fillBuffer` can do, and everything the loop of `UPDATE_SOUND` can do. -/

namespace Sys2Proof.Machine

/-! ## The sink -/

theorem playOnce_buffers (s : State) : (playOnce s).buffers.Perm s.buffers := by
  unfold playOnce State.buffers
  split
  · exact .refl _
  · rename_i f rest hf
    simp only [hf, List.map_cons, List.append_assoc]
    refine List.Perm.append_left _ ?_
    simpa using (List.perm_middle (l₁ := s.core.toList) (l₂ := rest.map Filled.buffer) (a := f.buffer)).symm

theorem playSteps_buffers (k : Nat) (s : State) : (playSteps k s).buffers.Perm s.buffers := by
  induction k generalizing s with
  | zero => exact .refl _
  | succ k ih => exact (ih _).trans (playOnce_buffers s)

/-- Sink play steps move buffers and lose none (20_memory.md R58). -/
theorem sinkPoint_buffers (s : State) : (sinkPoint s).buffers.Perm s.buffers := playSteps_buffers _ _

theorem playOnce_filled_sub (s : State) {f : Filled} (h : f ∈ (playOnce s).filled) : f ∈ s.filled := by
  unfold playOnce at h
  split at h
  · exact h
  · rename_i g rest hf
    rw [hf]; exact List.mem_cons_of_mem _ h

theorem playSteps_filled_sub (k : Nat) (s : State) {f : Filled} (h : f ∈ (playSteps k s).filled) : f ∈ s.filled := by
  induction k generalizing s with
  | zero => exact h
  | succ k ih => exact playOnce_filled_sub s (ih _ h)

theorem sinkPoint_filled_sub (s : State) {f : Filled} (h : f ∈ (sinkPoint s).filled) : f ∈ s.filled :=
  playSteps_filled_sub _ { s with draws := { s.draws with plays := s.draws.plays.tail } } h

/-- A play step empties one buffer at most. -/
theorem playOnce_empty_length (s : State) : (playOnce s).empty.length ≤ s.empty.length + 1 := by
  unfold playOnce
  split
  · omega
  · simp

theorem playSteps_empty_length (k : Nat) (s : State) : (playSteps k s).empty.length ≤ s.empty.length + k := by
  induction k generalizing s with
  | zero => simp [playSteps]
  | succ k ih => have := ih (playOnce s); have := playOnce_empty_length s; simp only [playSteps]; omega

/-- What bounds the turns of `UPDATE_SOUND`: the buffers empty now and the play steps still scheduled
(70_reset_and_hazards.md R299). -/
def turnsLeft (s : State) : Nat := s.empty.length + s.draws.plays.sum

theorem sinkPoint_turnsLeft (s : State) : turnsLeft (sinkPoint s) ≤ turnsLeft s := by
  have h := playSteps_empty_length (min (s.draws.plays.headD 0) s.filled.length)
    { s with draws := { s.draws with plays := s.draws.plays.tail } }
  have h2 : s.draws.plays.headD 0 + s.draws.plays.tail.sum = s.draws.plays.sum := by
    cases s.draws.plays <;> simp
  unfold turnsLeft
  rw [sinkPoint_draws]
  unfold sinkPoint
  dsimp only at h ⊢
  omega

/-- Everything a take can do (R233). -/
theorem sinkTake_cases {s s' : State} {b : Buffer} (h : sinkTake s = some (b, s')) :
    b ∈ s.empty ∧ s.empty.Perm (b :: s'.empty) ∧
    s' = { s with empty := s'.empty, core := some b, draws := s.draws.afterPick } := by
  unfold sinkTake at h
  dsimp only at h
  split at h
  · cases h
  · rename_i b' hb
    obtain ⟨hlt, hget⟩ := List.getElem?_eq_some_iff.1 hb
    cases h
    exact ⟨List.mem_of_getElem? hb, by rw [← hget]; exact (List.getElem_cons_eraseIdx_perm hlt).symm, rfl⟩

/-- A take answers none exactly where no buffer is empty (R233). -/
theorem sinkTake_none (s : State) : sinkTake s = none ↔ s.empty = [] := by
  unfold sinkTake
  dsimp only
  constructor
  · intro h
    by_contra hne
    have hpos : 0 < s.empty.length := List.length_pos_iff.2 hne
    have hlt : pickIndex s.draws s.empty.length < s.empty.length := Nat.mod_lt _ hpos
    rw [List.getElem?_eq_getElem hlt] at h
    cases h
  · intro h; simp [h]

theorem sinkTake_turnsLeft {s s' : State} {b : Buffer} (h : sinkTake s = some (b, s')) : turnsLeft s' + 1 = turnsLeft s := by
  obtain ⟨-, hp, e⟩ := sinkTake_cases h
  have hl := hp.length_eq
  unfold turnsLeft
  rw [e]
  simp [Draws.afterPick] at hl ⊢
  omega

/-! ## States that differ in the sink's choices -/

theorem SameButBuffers.refl (s : State) : s.SameButBuffers s := ⟨rfl, rfl, rfl, rfl⟩

/-- Two such states draw the same answers but for the sink's choices. -/
theorem SameButBuffers.draws_eq {s t : State} (h : s.SameButBuffers t) :
    t.draws = { s.draws with picks := t.draws.picks } := congrArg State.draws h.1

/-- Two such states read the same source bytes. -/
theorem SameButBuffers.memRead_eq {s t : State} (h : s.SameButBuffers t) (a n : Nat) : memRead t a n = memRead s a n := by
  obtain ⟨e, -⟩ := h
  exact memRead_congr (by rw [e]) (by rw [e]) a n

/-! ## One buffer -/

theorem baseContent_length (s : State) : (baseContent s).length = 2 * s.cfg.bufferFrames := by
  unfold baseContent; split_ifs <;> simp

/-- The state a filled buffer is handed back with (R232). -/
def filledState (s : State) (b : Buffer) : State :=
  let m := mixChannels (afterBase s) (afterBase s).ch (baseContent s)
  let f := fadeBuffer (afterBase s).cfg ⟨(afterBase s).fadeState, (afterBase s).fadeLevel⟩ m.buf
  { afterBase s with
    ch := m.chans, fadeState := f.fade.state, fadeLevel := f.fade.level, core := some { b with samples := f.buf } }

/-- The state a fault inside the fill leaves (60_exceptions.md R264). -/
def faultedFill (s : State) (b : Buffer) : State :=
  let m := mixChannels (afterBase s) (afterBase s).ch (baseContent s)
  raiseFault { afterBase s with ch := m.chans, core := some { b with samples := m.buf } } .srcBus

/-- Everything `fillBuffer` can do (R232, 60_exceptions.md R264). -/
theorem fillBuffer_cases (s : State) (b : Buffer) :
    ((mixChannels (afterBase s) (afterBase s).ch (baseContent s)).verdict = .ok ∧
      fillBuffer s b = .done (filledState s b)) ∨
    ((mixChannels (afterBase s) (afterBase s).ch (baseContent s)).verdict = .bus ∧
      fillBuffer s b = .raised (faultedFill s b)) ∨
    ((mixChannels (afterBase s) (afterBase s).ch (baseContent s)).verdict = .noValue ∧
      fillBuffer s b = .stuck .sampleNoValue) := by
  have hne := mixChannels_not_endless (afterBase s) (afterBase s).ch (baseContent s)
  unfold fillBuffer filledState faultedFill
  dsimp only
  cases hv : (mixChannels (afterBase s) (afterBase s).ch (baseContent s)).verdict with
  | ok => simp
  | bus => simp
  | noValue => simp
  | endless => exact absurd hv hne

theorem fillBuffer_turnsLeft {s s' : State} {b : Buffer} (h : fillBuffer s b = .done s') : turnsLeft s' = turnsLeft s := by
  rcases fillBuffer_cases s b with ⟨-, e⟩ | ⟨-, e⟩ | ⟨-, e⟩ <;> rw [e] at h <;> cases h
  unfold turnsLeft filledState afterBase
  split_ifs <;> rfl

@[simp] theorem filledState_core (s : State) (b : Buffer) : ∃ xs, (filledState s b).core = some ⟨b.id, xs⟩ :=
  ⟨_, rfl⟩

theorem filledState_empty (s : State) (b : Buffer) : (filledState s b).empty = s.empty := afterBase_empty s

theorem filledState_filled (s : State) (b : Buffer) : (filledState s b).filled = s.filled := afterBase_filled s

/-! ## The loop -/

/-- One turn of the loop of R231 that finds no empty buffer. -/
theorem updateLoop_stop {k n : Nat} {s : State} (h : sinkTake (sinkPoint s) = none) :
    updateLoop (k + 1) s n = .next (respond (sinkPoint s) (respCount n)) := by
  rw [updateLoop, h]

/-- One turn of the loop of R231 that fills and gives a buffer. -/
theorem updateLoop_turn {k n : Nat} {s s1 s2 : State} {b : Buffer} (h : sinkTake (sinkPoint s) = some (b, s1))
    (h2 : fillBuffer (sinkPoint s1) b = .done s2) :
    updateLoop (k + 1) s n = updateLoop k (sinkGive (sinkPoint s2) (2 * s2.cfg.bufferFrames)) (n + 1) := by
  rw [updateLoop, h]; simp only [h2]

/-- One turn of the loop of R231 that faults inside the fill. -/
theorem updateLoop_raise {k n : Nat} {s s1 s2 : State} {b : Buffer} (h : sinkTake (sinkPoint s) = some (b, s1))
    (h2 : fillBuffer (sinkPoint s1) b = .raised s2) : updateLoop (k + 1) s n = .next s2 := by
  rw [updateLoop, h]; simp only [h2]

/-- One turn of the loop of R231 on which the model stops. -/
theorem updateLoop_stuck {k n : Nat} {s s1 : State} {b : Buffer} {f : Fault} (h : sinkTake (sinkPoint s) = some (b, s1))
    (h2 : fillBuffer (sinkPoint s1) b = .stuck f) : updateLoop (k + 1) s n = .fault f := by
  rw [updateLoop, h]; simp only [h2]

theorem sinkGive_turnsLeft (s : State) (n : Nat) : turnsLeft (sinkGive s n) = turnsLeft s := by
  unfold turnsLeft; simp

/-- A turn that gives a buffer leaves fewer turns (70_reset_and_hazards.md R299). -/
theorem turn_decreases {s s1 s2 : State} {b : Buffer} {n : Nat} (h : sinkTake (sinkPoint s) = some (b, s1))
    (h2 : fillBuffer (sinkPoint s1) b = .done s2) : turnsLeft (sinkGive (sinkPoint s2) n) < turnsLeft s := by
  have a := sinkPoint_turnsLeft s
  have b := sinkTake_turnsLeft h
  have c := sinkPoint_turnsLeft s1
  have d := fillBuffer_turnsLeft h2
  have e := sinkPoint_turnsLeft s2
  rw [sinkGive_turnsLeft]
  omega

/-- The loop ends within any bound above the turns left, in every state (70_reset_and_hazards.md R301). -/
theorem updateLoop_ends (k : Nat) (s : State) (n : Nat) (h : turnsLeft s < k) : updateLoop k s n ≠ .fault .endless := by
  induction k generalizing s n with
  | zero => omega
  | succ k ih =>
    cases ht : sinkTake (sinkPoint s) with
    | none => rw [updateLoop_stop ht]; simp
    | some p =>
      obtain ⟨b, s1⟩ := p
      rcases fillBuffer_cases (sinkPoint s1) b with ⟨-, e⟩ | ⟨-, e⟩ | ⟨-, e⟩
      · rw [updateLoop_turn ht e]
        have := turn_decreases (n := 2 * (filledState (sinkPoint s1) b).cfg.bufferFrames) ht e
        exact ih _ _ (by omega)
      · rw [updateLoop_raise ht e]; simp
      · rw [updateLoop_stuck ht e]; simp

/-- The loop's answer does not depend on the bound, once it is above the turns left. -/
theorem updateLoop_bound (k k' : Nat) (s : State) (n : Nat) (h : turnsLeft s < k) (h' : turnsLeft s < k') :
    updateLoop k s n = updateLoop k' s n := by
  induction k generalizing k' s n with
  | zero => omega
  | succ k ih =>
    obtain ⟨k', rfl⟩ : ∃ j, k' = j + 1 := ⟨k' - 1, by omega⟩
    cases ht : sinkTake (sinkPoint s) with
    | none => rw [updateLoop_stop ht, updateLoop_stop ht]
    | some p =>
      obtain ⟨b, s1⟩ := p
      rcases fillBuffer_cases (sinkPoint s1) b with ⟨-, e⟩ | ⟨-, e⟩ | ⟨-, e⟩
      · rw [updateLoop_turn ht e, updateLoop_turn ht e]
        have := turn_decreases (n := 2 * (filledState (sinkPoint s1) b).cfg.bufferFrames) ht e
        exact ih _ _ _ (by omega) (by omega)
      · rw [updateLoop_raise ht e, updateLoop_raise ht e]
      · rw [updateLoop_stuck ht e, updateLoop_stuck ht e]

/-- What every part of the loop keeps, the loop keeps. -/
theorem updateLoop_keeps {P : State → Prop} (hp : ∀ s, P s → P (sinkPoint s))
    (ht : ∀ s b s', sinkTake s = some (b, s') → P s → P s') (hf : ∀ s b, P s → P (filledState s b))
    (hr : ∀ s b, P s → P (faultedFill s b)) (hg : ∀ s n, P s → P (sinkGive s n)) (hv : ∀ s v, P s → P (respond s v))
    (k : Nat) (s : State) (n : Nat) (t : State) (h : updateLoop k s n = .next t) (hs : P s) : P t := by
  induction k generalizing s n with
  | zero => cases h
  | succ k ih =>
    cases hk : sinkTake (sinkPoint s) with
    | none => rw [updateLoop_stop hk] at h; cases h; exact hv _ _ (hp s hs)
    | some p =>
      obtain ⟨b, s1⟩ := p
      have h1 := hp s1 (ht _ _ _ hk (hp s hs))
      rcases fillBuffer_cases (sinkPoint s1) b with ⟨-, e⟩ | ⟨-, e⟩ | ⟨-, e⟩
      · rw [updateLoop_turn hk e] at h
        exact ih _ _ h (hg _ _ (hp _ (hf _ _ h1)))
      · rw [updateLoop_raise hk e] at h; cases h; exact hr _ _ h1
      · rw [updateLoop_stuck hk e] at h; cases h

/-- Everything `UPDATE_SOUND` can do at its outermost (R231, R262, R266). -/
theorem execUpdateSound_cases (s : State) :
    (s.faulted = true → execUpdateSound s = .next (respond s respFaulted)) ∧
    (s.faulted = false → s.initialized = false → execUpdateSound s = .next (respond s respOk)) ∧
    (s.faulted = false → s.initialized = true → execUpdateSound s = updateLoop (updateBound s) s 0) := by
  refine ⟨fun h => ?_, fun h h' => ?_, fun h h' => ?_⟩ <;> simp [execUpdateSound, preamble, *]

end Sys2Proof.Machine
end

