-- ==== Sys2Proof/Tests/Slice0.lean ====
section
/-! SUPPORT. Tests: expected values are those of spec/95_test_vectors.md (named by its ids) or worked out by hand from
the rule cited. First well-formedness, then decoding, then one step per test, then the witnesses of the hypotheses of
the statements. -/

namespace Sys2Proof.Tests

open Sys2Proof Sys2Proof.Machine

/-! ## Well-formedness: one ill-formed term per check (30_encoding.md R85) -/

theorem test_wf_unknown_opcode : Fields.wellFormed ⟨0, 0, 0, 0, 0, 0, 0x0D⟩ = false := by decide
theorem test_wf_opcode_zero : Fields.wellFormed ⟨0, 0, 0, 0, 0, 0, 0x00⟩ = false := by decide
theorem test_wf_rsv : Fields.wellFormed ⟨1, 0, 0, 0, 0, 0, 0x08⟩ = false := by decide
theorem test_wf_unused_sid : Fields.wellFormed ⟨0, 1, 0, 0, 0, 0, 0x05⟩ = false := by decide
theorem test_wf_unused_pitch : Fields.wellFormed ⟨0, 0, 1, 0, 0, 0, 0x05⟩ = false := by decide
theorem test_wf_unused_sep : Fields.wellFormed ⟨0, 0, 0, 1, 0, 0, 0x03⟩ = false := by decide
theorem test_wf_unused_vol : Fields.wellFormed ⟨0, 0, 0, 0, 1, 0, 0x06⟩ = false := by decide
theorem test_wf_unused_ch : Fields.wellFormed ⟨0, 0, 0, 0, 0, 1, 0x01⟩ = false := by decide
theorem test_wf_arg_wide : Fields.wellFormed ⟨0, 0, 0, 0, 0, 2, 0x0B⟩ = false := by decide
theorem test_wf_good : Fields.wellFormed ⟨0, 5, 128, 128, 127, 0, 0x04⟩ = true := by decide

/-! ## Decoding: words written out from 30_encoding.md R80, R86, most significant field first
(rsv, sid, pitch, sep, vol, ch, op) -/

theorem test_decode_init : decode (0b00000000#8 ++ 0#16 ++ 0#8 ++ 0#8 ++ 0#8 ++ 0#8 ++ 0b00000001#8) = .ok .init := by
  decide
theorem test_decode_shutdown :
    decode (0b00000000#8 ++ 0#16 ++ 0#8 ++ 0#8 ++ 0#8 ++ 0#8 ++ 0b00000010#8) = .ok .shutdown := by decide
theorem test_decode_lookup :
    decode (0#8 ++ 0b1000000000000001#16 ++ 0#8 ++ 0#8 ++ 0#8 ++ 0#8 ++ 0b00000011#8) = .ok (.lookup 0x8001) := by decide
theorem test_decode_startSound :
    decode (0#8 ++ 0b0000000000000101#16 ++ 0b10000001#8 ++ 0b11111110#8 ++ 0b01111111#8 ++ 0b00000001#8 ++ 0b00000100#8) =
      .ok (.startSound 5 1 127 254 129) := by decide
theorem test_decode_updateParams :
    decode (0#8 ++ 0#16 ++ 0#8 ++ 0b00000010#8 ++ 0b00000011#8 ++ 0b00000101#8 ++ 0b00000101#8) =
      .ok (.updateParams 5 3 2) := by decide
theorem test_decode_stopSound :
    decode (0#8 ++ 0#16 ++ 0#8 ++ 0#8 ++ 0#8 ++ 0b11111111#8 ++ 0b00000110#8) = .ok (.stopSound 255) := by decide
theorem test_decode_isPlaying :
    decode (0#8 ++ 0#16 ++ 0#8 ++ 0#8 ++ 0#8 ++ 0b11001000#8 ++ 0b00000111#8) = .ok (.isPlaying 200) := by decide
theorem test_decode_updateSound :
    decode (0#8 ++ 0#16 ++ 0#8 ++ 0#8 ++ 0#8 ++ 0#8 ++ 0b00001000#8) = .ok .updateSound := by decide
theorem test_decode_precache : decode (0#8 ++ 0#16 ++ 0#8 ++ 0#8 ++ 0#8 ++ 0#8 ++ 0b00001001#8) = .ok .precache := by
  decide
theorem test_decode_setMusic :
    decode (0#8 ++ 0#16 ++ 0#8 ++ 0#8 ++ 0#8 ++ 0b00000001#8 ++ 0b00001010#8) = .ok (.setMusic true) := by decide
theorem test_decode_fadeTo :
    decode (0#8 ++ 0#16 ++ 0#8 ++ 0#8 ++ 0#8 ++ 0b00000000#8 ++ 0b00001011#8) = .ok (.fadeTo false) := by decide
theorem test_decode_isFading : decode (0#8 ++ 0#16 ++ 0#8 ++ 0#8 ++ 0#8 ++ 0#8 ++ 0b00001100#8) = .ok .isFading := by
  decide

/-- P4, steps 7 to 9. -/
theorem test_decode_illegal :
    decode 0x0000000000000000 = .error .unknownOpcode ∧ decode 0x0100000000000008 = .error .reservedNonzero ∧
    decode 0x0000000000010006 = .error .unusedBits := by decide

/-- 30_encoding.md R90, R91: omitted fields are 0, a wide value and an unused field are refused. -/
theorem test_assemble :
    assemble ⟨"START_SOUND", [("pitch", 128), ("sid", 5), ("vol", 127), ("sep", 128)]⟩ = .ok 0x00000580807F0004 ∧
    assemble ⟨"MUSIC_ON", []⟩ = .ok 0x10A ∧ assemble ⟨"FADE_TO", [("arg", 2)]⟩ = .error .valueTooWide ∧
    assemble ⟨"STOP_SOUND", [("vol", 1)]⟩ = .error .unusedField := by decide

/-! ## Small states -/

def entry (sid lump base len : Nat) : AssetEntry :=
  ⟨BitVec.ofNat 16 sid, ⟨BitVec.ofNat 32 lump, BitVec.ofNat 32 base, len⟩⟩

def bytes (l : List Nat) : List Byte := l.map fun n => BitVec.ofNat 8 n

/-- The lumps of program P4, and at 0xB0 the one of program P2. -/
def mem0 : Memory :=
  Memory.load (Memory.load (Memory.load (Memory.load (Memory.load (Memory.load []
    0x10 (bytes [3, 0, 0x11, 0x2B, 5, 0, 0, 0, 0x0A, 0xEC, 0x1E, 0xD8, 0x32]))
    0x30 (bytes [3, 0x80, 0x11, 0x2B, 8, 0, 0, 0, 0, 0, 0, 1, 0x11, 0x22, 0x33, 0x44]))
    0x50 (bytes [1, 0, 0x11, 0x2B, 4, 0, 0, 0, 1, 2, 3, 4]))
    0x70 (bytes [3, 0, 0x11, 0x2B, 1, 0]))
    0x90 (bytes [3, 0, 0x11, 0x2B, 0xFF, 0xFF, 0xFF, 0xFF, 1, 2, 3, 4]))
    0xB0 (bytes [3, 0x80, 0x11, 0x2B, 13, 0, 0, 0, 0, 0, 0x3C, 0, 7, 0x8F, 0, 0, 0, 0x10, 0x20, 0, 0x77])

def assets0 : List AssetEntry :=
  [entry 5 42 0x10 13, entry 8 43 0x30 16, entry 12 44 0x50 12, entry 10 45 0x70 6, entry 11 46 0x90 12, entry 7 3 0xB0 21]

/-- Two hits whose spans cannot be backed: nothing resident at all, and a lump of which only the header is
resident. -/
def assetsBad : List AssetEntry := [entry 14 9 0xFFFFFFFC 8, entry 15 9 0xE0 16]

/-- `CFG0` with the assets above. -/
def cfg0 : Config := { defaultConfig with assets := assets0 }

/-- After power-on, the outside's answers scripted: the sink sets up, and gives its first empty buffer each time. -/
def atRest : State :=
  { State.resetWith cfg0 with mem := mem0, draws := ⟨[true], [], [0, 0, 0, 0], [], 0⟩ }

/-- After `INIT`. -/
def ready : State := { atRest with initialized := true }

/-- As `ready`, with an asset port that breaks its duty. -/
def dishonest : State :=
  { ready with
    cfg := { cfg0 with assets := assetsBad }
    mem := Memory.load mem0 0xE0 (bytes [3, 0, 0x11, 0x2B, 8, 0, 0, 0]) }

/-- As `ready`, with two ADPCM lumps whose first block is no audio: index 0x59, and 3 bytes of payload (D9, D12). -/
def rejecting : State :=
  { ready with
    cfg := { cfg0 with assets := [entry 16 50 0x100 13, entry 17 51 0x120 11] }
    mem := Memory.load (Memory.load mem0
      0x100 (bytes [3, 0x80, 0x11, 0x2B, 5, 0, 0, 0, 0, 0, 0x59, 0, 0x11]))
      0x120 (bytes [3, 0x80, 0x11, 0x2B, 3, 0, 0, 0, 0, 0, 0]) }

/-- The raw sound of P1 on channel 0. -/
def playing : State := startChannel ready 5 0 127 128 128

/-- The ADPCM sound of P2 on channel 1, with five bytes of payload not yet decoded. -/
def playing2 : State := startChannel ready 7 1 127 0 128

/-- A faulted block. -/
def faulted0 : State := raiseFault ready .pitchZero

/-- A channel whose payload cannot be read, one sample before the end of its block. -/
def starved : State :=
  { ready with ch := [{ (Channel.reset cfg0) with
      format := .raw, srcPos := 0x400, srcEnd := 0x410, step := 65536, decodedCount := 1 }, Channel.reset cfg0] }

/-- A channel whose position is past its block, which no run reaches. -/
def misplaced : State :=
  { ready with ch := [{ (Channel.reset cfg0) with offset := 65536, decodedCount := 1 }, Channel.reset cfg0] }

/-- The state after an outcome, for tests that look at one field of it. -/
def after (r : Result) : State :=
  match r with
  | .next t => t
  | _ => { State.reset with resp := 0xDEADBEEF }

/-! ## One step per test -/

/-- P4, step 5. -/
theorem test_init : (after (exec .init atRest)).initialized = true ∧ (after (exec .init atRest)).resp = 0 := by decide
/-- R238: the sink does not set up. -/
theorem test_init_fails :
    after (exec .init { atRest with draws := ⟨[false], [], [], [], 0⟩ }) =
      { atRest with resp := 0xFFFFFFFF, draws := ⟨[], [], [], [], 1⟩ } := by decide +kernel

/-- R239. -/
theorem test_shutdown :
    (after (exec .shutdown playing)).initialized = false ∧
    (after (exec .shutdown playing)).ch.map (fun x => x.decodedCount.toNat) = [0, 0] := by decide

/-- P1's `LOOKUP sid=5`. -/
theorem test_lookup_hit : (after (exec (.lookup 5) atRest)).resp = 42 := by decide
/-- P1's `LOOKUP sid=9`. -/
theorem test_lookup_miss : (after (exec (.lookup 9) atRest)).resp = 0xFFFFFFFF := by decide

/-- S1. -/
theorem test_startSound :
    (after (exec (.startSound 5 0 127 128 128) ready)).resp = 0 ∧
    ((after (exec (.startSound 5 0 127 128 128) ready)).ch[0]?.map fun x =>
      (x.srcPos.toNat, x.srcEnd.toNat, x.step.toNat, x.smoothCoef.toNat, x.leftVol.toNat, x.rightVol.toNat)) =
      some (0x1D, 0x1D, 65536, 194, 31, 32) ∧
    ((after (exec (.startSound 5 0 127 128 128) ready)).ch[0]?.map fun x =>
      (x.decodedBlock.take x.decodedCount.toNat).map BitVec.toInt) = some [10, -20, 30, -40, 50] := by decide
/-- P4, step 21, on the channel of step 11. -/
theorem test_startSound_pitch_zero :
    (after (exec (.startSound 5 0 127 128 0) playing)).resp = 0xFFFFFFFD ∧
    (after (exec (.startSound 5 0 127 128 0) playing)).faultReason = .pitchZero ∧
    ((after (exec (.startSound 5 0 127 128 0) playing)).ch[0]?.map fun x => (x.decodedCount, x.leftVol)) =
      some (0, 31) := by decide

/-- G5, on an inactive channel. -/
theorem test_updateParams :
    ((after (exec (.updateParams 1 64 64) ready)).ch[1]?.map fun x => (x.leftVol.toNat, x.rightVol.toNat)) =
      some (23, 8) := by decide
/-- P4, step 20: an index outside the channel file. -/
theorem test_updateParams_invalid : after (exec (.updateParams 5 1 1) ready) = { ready with resp := 0 } := by decide +kernel

/-- R150: the other channel and the other fields stay. -/
theorem test_stopSound :
    ((after (exec (.stopSound 0) playing)).ch.map fun x => (x.decodedCount.toNat, x.srcEnd.toNat)) =
      [(0, 0x1D), (0, 0)] := by decide

/-- P4, step 12. -/
theorem test_isPlaying : (after (exec (.isPlaying 0) playing)).resp = 1 := by decide
/-- P4, steps 15 and 16: the first block is rejected, the start is not. -/
theorem test_isPlaying_rejected_block :
    (after (exec (.startSound 8 1 127 128 128) ready)).resp = 1 ∧
    (after (exec (.isPlaying 1) (after (exec (.startSound 8 1 127 128 128) ready)))).resp = 0 := by decide

/-- M1. -/
theorem test_updateSound :
    ((after (exec .updateSound playing)).filled.map fun f => f.buffer.samples.map BitVec.toInt) =
      [[310, 320, -620, -640, 930, 960, -1240, -1280], [1550, 1600, 0, 0, 0, 0, 0, 0]] ∧
    (after (exec .updateSound playing)).resp = 2 := by decide +kernel
/-- P3, step 6: the music base with the sound saturates, then the fade. -/
theorem test_updateSound_fades :
    ((after (exec .updateSound
      { ready with
        cfg := { cfg0 with numBuffers := 1 }, musicEnabled := true, fadeState := .fadingOut
        empty := [Buffer.reset cfg0 0], draws := ⟨[], [List.replicate 8 20000], [0, 0], [], 0⟩
        ch := [{ (Channel.reset cfg0) with
            format := .raw, srcPos := 0x400, srcEnd := 0x400, step := 65536, leftVol := 127, decodedCount := 9
            decodedBlock := List.replicate 9 127 }, Channel.reset cfg0] })).filled.map
        fun f => f.buffer.samples.map BitVec.toInt) =
      [[24575, 15000, 16383, 10000, 8191, 5000, 0, 0]] := by decide +kernel

/-- P4, step 4. -/
theorem test_precache : after (exec .precache playing) = { playing with resp := 0 } := by decide +kernel

/-- R240. -/
theorem test_setMusic : (after (exec (.setMusic true) atRest)).musicEnabled = true := by decide

/-- P3, steps 4 and 5. -/
theorem test_fadeTo :
    (after (exec (.fadeTo false) ready)).fadeState = .fadingOut ∧
    (after (exec (.fadeTo false) ready)).fadeLevel = 65536 := by decide
/-- R214: a fade in from `None` changes nothing. -/
theorem test_fadeTo_none : (after (exec (.fadeTo true) ready)).fadeState = .none := by decide

/-- P3, step 5. -/
theorem test_isFading : (after (exec .isFading { ready with fadeState := .fadingOut })).resp = 1 := by decide
/-- P3, step 7. -/
theorem test_isFading_silent : (after (exec .isFading { ready with fadeState := .silent })).resp = 0 := by decide

/-! ## The decoder's vectors that tell the most -/

/-- D1. -/
theorem test_adpcm_low_nibble_first :
    (decodeAdpcm imaStepTable (bytes [0, 0, 0x3C, 0, 7, 0x8F])).map BitVec.toInt = [0, 16, 19, -14, -19] := by decide
/-- D4: saturation and the index clamp. -/
theorem test_adpcm_saturates :
    (decodeAdpcm imaStepTable (bytes [0, 0x80, 0x58, 0, 0xFF])).map BitVec.toInt = [-128, -128, -128] := by decide
/-- D7: nibble 8 subtracts, and the high byte rounds down. -/
theorem test_adpcm_nibble_eight :
    (decodeAdpcm imaStepTable (bytes [0, 0, 0x3C, 0, 8])).map BitVec.toInt = [0, -2, -1] := by decide

/-! ## Witnesses: a state and operands that meet the hypotheses of each statement -/

/-- OperandsAreTheFieldBits, EncodeOfDecodedWord. -/
theorem test_witness_decoded_word : decode 0x00000580807F0004 = .ok (.startSound 5 0 127 128 128) := by decide

/-- IllegalWordsAnswerIllegal: a word with a row's opcode, and an illegal word in a block without fault. -/
theorem test_witness_illegal_word :
    (fieldsOf 0x0000000000010006).op = opCode .stopSound ∧ decode 0x0000000000010006 = .error .unusedBits ∧
    ready.faulted = false := by decide

/-- OpcodeMapRowsMatch, last clause. -/
theorem test_witness_row_match : (0x0000000000000106 : CmdWord) &&& opMask .stopSound = opMatch .stopSound := by decide

/-- AssembledWordDecodes: a line that is accepted, an unused field, a value one too wide, a mnemonic that is none, a
pseudo-instruction with a field. -/
theorem test_witness_assembled :
    assemble ⟨"STOP_SOUND", [("ch", 255)]⟩ = .ok 0x000000000000FF06 ∧ ([("ch", 255)].map Prod.fst).Nodup ∧ 255 < 2 ^ 8 ∧
    "vol" ∉ ["ch"] ∧ 2 ^ 8 ≤ 256 ∧ assemble ⟨"NOP", []⟩ = .error .unknownMnemonic ∧
    assemble ⟨"FADE_OUT", [("arg", 0)]⟩ = .error .unusedField := by decide

/-- StepRunsDecodedCommand: a command that ends in a next state, and one on which the model stops. -/
theorem test_witness_step_command :
    (∃ t, exec (.isPlaying 0) playing = .next t) ∧ decode 0x0000000000000007 = .ok (.isPlaying 0) ∧
    exec .updateSound misplaced = .fault .sampleNoValue ∧ decode 0x0000000000000008 = .ok .updateSound ∧
    (issue playing 0x0000000000000007).inputs = .command 0x0000000000000007 :: playing.inputs ∧
    (issue misplaced 0x0000000000000008).inputs = .command 0x0000000000000008 :: misplaced.inputs :=
  ⟨⟨_, rfl⟩, by decide, rfl, by decide, rfl, rfl⟩

/-- FetchedWordRunsNext. -/
theorem test_witness_fetched : ∃ t, exec .init atRest = .next t := ⟨_, rfl⟩

/-- StepServesOutsideMoves: nothing to serve, an illegal word, a play with nothing queued, a play with a buffer. -/
theorem test_witness_outside :
    ready.inputs = [] ∧ (issue ready 0).inputs = .command 0 :: [] ∧ (issue ready 0).faulted = false ∧
    decode 0 = .error .unknownOpcode ∧
    ({ ready with inputs := [.sinkPlay] } : State).inputs = .sinkPlay :: [] ∧
    ({ ready with inputs := [.sinkPlay] } : State).filled = [] ∧
    ({ ready with inputs := [.sinkPlay], filled := [⟨Buffer.reset cfg0 0, 8⟩] } : State).filled =
      ⟨Buffer.reset cfg0 0, 8⟩ :: [] := by decide

/-- ResetLeavesResetState, on a faulted block. -/
theorem test_witness_reset : ({ faulted0 with inputs := [.reset] } : State).inputs = .reset :: [] := rfl

/-- FaultedBlockAnswersFaulted, FaultStaysUntilReset. -/
theorem test_witness_faulted :
    faulted0.faulted = true ∧ (issue faulted0 1).inputs.head? ≠ some .reset ∧ ∃ t, step (issue faulted0 1) = .next t :=
  ⟨rfl, by decide, ⟨_, rfl⟩⟩

/-- FaultCauses: `PITCH_ZERO`, and `SRC_BUS` from either command. -/
theorem test_witness_fault_causes :
    (after (exec (.startSound 5 0 127 128 0) ready)).faultReason = .pitchZero ∧
    (after (exec (.startSound 14 0 127 128 1) dishonest)).faultReason = .srcBus ∧
    (after (exec .updateSound starved)).faultReason = .srcBus ∧
    (after (exec .updateSound starved)).faulted = true ∧ starved.faulted = false := by decide +kernel

/-- A playing state meets the invariant (StepKeepsInvariant, HonestPortNoBusFault, UpdateSoundFillsEveryEmptyBuffer). -/
theorem test_witness_inv : playing2.Inv ∧ playing2.faulted = false ∧ playing2.initialized = true := by decide +kernel

/-- HonestPortNoBusFault, UpdateSoundFillsEveryEmptyBuffer: the channel has payload left, and it can be read. -/
theorem test_witness_honest : playing2.PortHonest ∧ playing2.PayloadReadable := by
  unfold State.PortHonest State.PayloadReadable Resident
  decide +kernel

theorem test_witness_payload_left : (playing2.ch[1]?.map fun x => (x.remaining, x.decodedCount.toNat)) = some (5, 9) := by
  decide +kernel

/-- HonestPortNoBusFault: and a step runs from it. -/
theorem test_witness_honest_step : ∃ t, step playing2 = .next t := ⟨_, rfl⟩

/-- InitResult: initialized already, the sink refuses, the sink sets up. -/
theorem test_witness_init :
    (ready.faulted = false ∧ ready.initialized = true) ∧
    (({ atRest with draws := ⟨[false], [], [], [], 0⟩ } : State).initialized = false ∧
      setupAnswer ⟨[false], [], [], [], 0⟩ = false) ∧
    (atRest.faulted = false ∧ atRest.initialized = false ∧ setupAnswer atRest.draws = true) := by decide

/-- ShutdownResult, SetMusicResult, PrecacheResult, GateClosedAnswersSentinel, UpdateSoundTurns. -/
theorem test_witness_no_fault :
    playing.faulted = false ∧ atRest.faulted = false ∧ atRest.initialized = false := by decide +kernel

/-- LookupResult: a miss and a hit. -/
theorem test_witness_lookup :
    assetOf atRest.cfg 9 = none ∧ assetOf atRest.cfg 5 = some ⟨42, 0x10, 13⟩ := by decide

/-- StartSoundSteps, the hypotheses common to its clauses, at the highest channel index. -/
theorem test_witness_start :
    ready.faulted = false ∧ ready.initialized = true ∧ (1 : BitVec 8).toNat < ready.cfg.numChannels ∧
    ready.ch[(1 : BitVec 8).toNat]? = some (Channel.reset cfg0) := by decide

/-- StartSoundSteps, steps 3 to 5: a miss, a short span, an unreadable header. -/
theorem test_witness_start_early :
    assetOf ready.cfg 9 = none ∧
    (assetOf ready.cfg 10 = some ⟨45, 0x70, 6⟩ ∧ (6 : Nat) < 8) ∧
    (assetOf dishonest.cfg 14 = some ⟨9, 0xFFFFFFFC, 8⟩ ∧
      memRead (noteSpan dishonest ⟨9, 0xFFFFFFFC, 8⟩) 0xFFFFFFFC 8 = none) := by decide +kernel

/-- StartSoundSteps, steps 6 and 7: an unknown tag, and a payload length of -1. -/
theorem test_witness_start_header :
    (memRead (noteSpan ready ⟨44, 0x50, 12⟩) 0x50 8).map lumpHeader = some ⟨1, 11025, 4⟩ ∧
    ((1 : Nat) ≠ 0x8003 ∧ (1 : Nat) ≠ ready.cfg.rawFormatTag.toNat) ∧
    (memRead (noteSpan ready ⟨46, 0x90, 12⟩) 0x90 8).map lumpHeader = some ⟨3, 11025, -1⟩ ∧
    ((3 : Nat) ≠ 0x8003 ∧ (3 : Nat) = ready.cfg.rawFormatTag.toNat) ∧ min (-1 : Int) (((12 : Nat) : Int) - 8) ≤ 0 := by
  decide +kernel

/-- StartSoundSteps, steps 8 to 14: headers of both formats that pass, a first block that can be read and one that
cannot. -/
theorem test_witness_start_decode :
    (memRead (noteSpan ready ⟨42, 0x10, 13⟩) 0x10 8).map lumpHeader = some ⟨3, 11025, 5⟩ ∧
    0 < min (5 : Int) (((13 : Nat) : Int) - 8) ∧
    (memRead (noteSpan ready ⟨3, 0xB0, 21⟩) 0xB0 8).map lumpHeader = some ⟨0x8003, 11025, 13⟩ ∧
    (decodeNext (noteSpan ready ⟨42, 0x10, 13⟩)
      ((Channel.reset cfg0).started cfg0 .raw 0x10 5 11025 128)).isSome = true ∧
    (memRead (noteSpan dishonest ⟨9, 0xE0, 16⟩) 0xE0 8).map lumpHeader = some ⟨3, 11025, 8⟩ ∧
    decodeNext (noteSpan dishonest ⟨9, 0xE0, 16⟩)
      ((Channel.reset cfg0).started cfg0 .raw 0xE0 8 11025 128) = none := by decide +kernel

/-- UpdateParamsResult, StopSoundResult, IsPlayingResult: the gate open on an active channel, and closed at its first
index outside the channel file. -/
theorem test_witness_gate :
    (playing.faulted = false ∧ playing.initialized = true ∧ (0 : BitVec 8).toNat < playing.cfg.numChannels ∧
      (playing.ch[(0 : BitVec 8).toNat]?).isSome = true) ∧ playing.cfg.numChannels ≤ (2 : BitVec 8).toNat := by
  decide +kernel

/-- GateClosedAnswersSentinel, last clause. -/
theorem test_witness_ungated : (∃ t, exec (.lookup 5) atRest = .next t) ∧ ∃ t, exec .precache atRest = .next t :=
  ⟨⟨_, rfl⟩, ⟨_, rfl⟩⟩

/-- FailedStartLeavesInactive: a failed start on a channel that was playing (P4, step 13). -/
theorem test_witness_failed_start :
    (playing.faulted = false ∧ playing.initialized = true ∧ (0 : BitVec 8).toNat < playing.cfg.numChannels ∧
      (after (exec (.startSound 9 0 127 128 128) playing)).resp ≠ BitVec.ofNat 32 (0 : BitVec 8).toNat) ∧
    ∃ t, exec (.startSound 9 0 127 128 128) playing = .next t := ⟨by decide +kernel, ⟨_, rfl⟩⟩

/-- RejectedFirstBlockIsNoFailure (P4, step 15). -/
theorem test_witness_rejected_block :
    ready.ch.length = ready.cfg.numChannels ∧ assetOf ready.cfg 8 = some ⟨43, 0x30, 16⟩ ∧
    (memRead (noteSpan ready ⟨43, 0x30, 16⟩) 0x30 8).map lumpHeader = some ⟨0x8003, 11025, 8⟩ ∧
    0 < min (8 : Int) (((16 : Nat) : Int) - 8) ∧
    memRead (noteSpan ready ⟨43, 0x30, 16⟩) (0x30 + 8) (min ready.cfg.adpcmBlockBytes (min (8 : Int) (16 - 8)).toNat) =
      some (bytes [0, 0, 0, 1, 0x11, 0x22, 0x33, 0x44]) ∧
    (bytes [0, 0, 0, 1, 0x11, 0x22, 0x33, 0x44]).getD 3 0 ≠ 0 := by decide +kernel

/-- RejectedFirstBlockIsNoFailure: an index above 88 and a truncated block, with their headers and reads. -/
theorem test_witness_rejected_index_and_short :
    assetOf rejecting.cfg 16 = some ⟨50, 0x100, 13⟩ ∧ assetOf rejecting.cfg 17 = some ⟨51, 0x120, 11⟩ ∧
    (memRead (noteSpan rejecting ⟨50, 0x100, 13⟩) 0x100 8).map lumpHeader = some ⟨0x8003, 11025, 5⟩ ∧
    (memRead (noteSpan rejecting ⟨51, 0x120, 11⟩) 0x120 8).map lumpHeader = some ⟨0x8003, 11025, 3⟩ ∧
    memRead (noteSpan rejecting ⟨50, 0x100, 13⟩) (0x100 + 8) (min 8 (min (5 : Int) (13 - 8)).toNat) =
      some (bytes [0, 0, 0x59, 0, 0x11]) ∧ 88 < ((bytes [0, 0, 0x59, 0, 0x11]).getD 2 0).toNat ∧
    memRead (noteSpan rejecting ⟨51, 0x120, 11⟩) (0x120 + 8) (min 8 (min (3 : Int) (11 - 8)).toNat) =
      some (bytes [0, 0, 0]) ∧ (bytes [0, 0, 0]).length < 4 := by decide +kernel

/-- FadeToResult, IsFadingResult: every fade state in a block without fault. -/
theorem test_witness_fades :
    ∀ f ∈ [FadeState.none, .fadingOut, .fadingIn, .silent], ({ ready with fadeState := f } : State).faulted = false := by
  decide

/-- UpdateSoundTurns: a turn that finds no empty buffer. -/
theorem test_witness_no_empty : (sinkPoint { ready with empty := [] }).empty = [] := by decide

/-- UpdateSoundTurns: a take whose draw is scripted, a buffer to give, and a point at which the schedule asks for more
plays than the queue holds. -/
theorem test_witness_sink :
    (∃ b t, sinkTake ready = some (b, t)) ∧ ready.draws.picks = 0 :: [0, 0, 0] ∧
    ({ ready with core := some (Buffer.reset cfg0 0) } : State).core = some (Buffer.reset cfg0 0) ∧
    (sinkPoint { ready with
      filled := [⟨Buffer.reset cfg0 0, 8⟩], draws := ⟨[], [], [], [3], 0⟩ }).played = [List.replicate 8 0] :=
  ⟨⟨_, _, rfl⟩, rfl, rfl, by decide⟩

/-- UpdateSoundTurns: a take whose draw is free, with one buffer to choose from. -/
theorem test_witness_free_take :
    (sinkTake { ready with empty := [Buffer.reset cfg0 0], draws := ⟨[], [], [], [], 0⟩ }).isSome = true := by
  simp [sinkTake, pickIndex, Nat.mod_one]

/-- UpdateSoundTurns: a turn that fills a buffer, and one that faults. -/
theorem test_witness_turns :
    (∃ b s1 s2, sinkTake (sinkPoint ready) = some (b, s1) ∧ fillBuffer (sinkPoint s1) b = .done s2) ∧
    (∃ b s1 s2, sinkTake (sinkPoint starved) = some (b, s1) ∧ fillBuffer (sinkPoint s1) b = .raised s2) :=
  ⟨⟨_, _, _, rfl, rfl⟩, ⟨_, _, _, rfl, rfl⟩⟩

/-- BufferChoiceUnobservable: two states with the empty buffers swapped, other contents and other choices to come, from
which a step answers, and two from which the model stops. -/
theorem test_witness_same_but_buffers :
    (issue playing 0x0000000000000008).SameButBuffers (issue
      { playing with
        empty := [⟨1, List.replicate 8 7⟩, ⟨0, List.replicate 8 9⟩], draws := { playing.draws with picks := [1, 0] } }
      0x0000000000000008) ∧
    (∃ t, step (issue playing 0x0000000000000008) = .next t) ∧
    (issue misplaced 0x0000000000000008).SameButBuffers (issue
      { misplaced with draws := { misplaced.draws with picks := [1] } } 0x0000000000000008) ∧
    step (issue misplaced 0x0000000000000008) = .fault .sampleNoValue :=
  ⟨by decide +kernel, ⟨_, rfl⟩, by decide +kernel, rfl⟩

/-- GlobalFieldWriters, ChannelFieldWriters, SourceMemoryConstant, FilledBuffersKeepTheirMix:
`UPDATE_SOUND` answers a next state on a playing block. -/
theorem test_witness_update :
    (∃ t, exec .updateSound playing = .next t) ∧ (playing.ch[1]?).isSome = true ∧
    (∃ t, step (issue playing 0x0000000000000008) = .next t) ∧
    (issue playing 0x0000000000000008).inputs.head? ≠ some .reset :=
  ⟨⟨_, rfl⟩, by decide +kernel, ⟨_, rfl⟩, by decide⟩

/-- ChannelFieldWriters: the inner conditions, on a channel that `UPDATE_SOUND` finds inactive and that another start
does not name. -/
theorem test_witness_channel_untouched :
    (playing.ch[1]?.map fun x => x.decodedCount.toNat) = some 0 ∧ (0 : BitVec 8).toNat ≠ 1 := by decide +kernel

/-- MemReadAdmission, last clause; DecodeNextResult's two cases. -/
theorem test_witness_reads :
    memRead playing2 0xC0 5 = some (bytes [0, 0x10, 0x20, 0, 0x77]) ∧
    (playing2.ch[1]?.bind fun x => decodeNext playing2 x).isSome = true ∧
    (starved.ch[0]?.map fun x => decodeNext starved x) = some none ∧ playing2.cfg.Legal ∧ starved.cfg.Legal := by
  decide +kernel

/-- AdpcmSampleCount: a block of 3 bytes, index 89, a reserved byte, and the boundary block of 4 bytes with index 88
(D9, D11, D12, D15). -/
theorem test_witness_adpcm_headers :
    (bytes [0, 0, 0]).length < 4 ∧ 88 < ((bytes [0, 0, 0x59, 0, 0x11]).getD 2 0).toNat ∧
    (bytes [0, 0, 0, 1, 0x11]).getD 3 0 ≠ 0 ∧
    (4 ≤ (bytes [0xFF, 0x7F, 0x58, 0]).length ∧ ((bytes [0xFF, 0x7F, 0x58, 0]).getD 2 0).toNat ≤ 88 ∧
      (bytes [0xFF, 0x7F, 0x58, 0]).getD 3 0 = 0) ∧
    (bytes [0, 0, 0x3C, 0, 7, 0x8F, 0, 0]).length ≤ cfg0.adpcmBlockBytes := by decide

/-- AdpcmRanges: the step table of R111. -/
theorem test_witness_table : ∀ i : Fin 89, (imaStepTable.get i).toNat ≤ 32767 := by decide

/-- StepIgnoresPitch, SmoothCoefBound at the ends of their ranges (K7, K9). -/
theorem test_witness_formulas :
    stepOf { cfg0 with outRate := 1 } 65535 1 = 4294901760 ∧ smoothCoefOf { cfg0 with outRate := 1 } 65535 = 255 ∧
    stepOf { cfg0 with outRate := 65535 } 1 1 = 1 := by decide

/-- SmoothedStaysInt8: both settings, with the largest coefficient the field's range gives (10_state.md R29). -/
theorem test_witness_smoothing :
    (256 : BitVec 9).toNat ≤ 256 ∧ ({ cfg0 with smoothingEnabled := true } : Config).smoothingEnabled = true ∧
    cfg0.smoothingEnabled = false := by decide

/-- M12: a value on which flooring division would differ. -/
theorem test_smoothing_truncates :
    smoothed { cfg0 with smoothingEnabled := true } { (Channel.reset cfg0) with smoothCoef := 194, smoothPrev := -100 }
      (-100) = -99 := by decide

/-- CrossingRepeatsWhile: before the end, at the end of the payload, onto a next block, and onto one that cannot be
read. -/
theorem test_witness_crossing :
    ((playing2.ch[1]?.map fun x => decide (x.offset.toNat < x.decodedCount.toNat * 65536)) = some true) ∧
    ((playing2.ch[1]?.bind fun x => decodeNext playing2 { x with offset := 0 }).map fun y => y.decodedCount.toNat) =
      some 3 ∧
    ((playing.ch[0]?.bind fun x => decodeNext playing { x with offset := 0 }).map fun y => y.decodedCount.toNat) =
      some 0 ∧
    ((starved.ch[0]?.map fun x => decodeNext starved { x with offset := 0 }) = some none) := by decide +kernel

/-- ZeroStepNeverEnds (M5). -/
theorem test_witness_zero_step :
    Channel.InRange cfg0 { (Channel.reset cfg0) with decodedCount := 2 } ∧
    Channel.Positioned { (Channel.reset cfg0) with decodedCount := 2 } ∧
    ({ (Channel.reset cfg0) with decodedCount := 2 } : Channel).step = 0 := by decide

/-- MixFrameResult: a frame after which the channel plays on, one after which it has stopped (M1's first and last),
and channels of both kinds. -/
theorem test_witness_mix_frame :
    (playing.ch[0]?.map fun x => (decide (x.InRange cfg0), decide x.Positioned, decide (x.decodedCount ≠ 0),
      (crossFrame playing (x.played cfg0 10)).verdict, (crossFrame playing (x.played cfg0 10)).stopped)) =
      some (true, true, true, .ok, false) ∧
    (playing.ch[0]?.map fun x => ((crossFrame playing (Channel.played { x with offset := 262144 } cfg0 50)).verdict,
      (crossFrame playing (Channel.played { x with offset := 262144 } cfg0 50)).stopped)) = some (.ok, true) ∧
    (playing.ch[0]?.map fun x => (mixChannel playing x (List.replicate 8 0)).verdict) = some .ok ∧
    (playing.ch[1]?.map fun x => x.decodedCount.toNat) = some 0 := by decide +kernel

/-- MixFrameResult: a channel in range and positioned whose crossing meets a read that is not admitted. -/
theorem test_witness_mix_bus :
    (starved.ch[0]?.map fun x => (decide (x.InRange cfg0), decide x.Positioned, decide (x.decodedCount ≠ 0),
      (crossFrame starved (x.played cfg0 0)).verdict, (mixChannel starved x (List.replicate 8 0)).verdict)) =
      some (true, true, true, .bus, .bus) := by decide +kernel

/-- ChannelIgnoresBufferContent (M6 and M9 differ in the music alone). -/
theorem test_witness_contents : (List.replicate 8 (30000 : Pcm)).length = (List.replicate 8 (-30000 : Pcm)).length := rfl

/-- RampStepResult, FadedElementBetween: both ends of the level's range. -/
theorem test_witness_levels : (0 : BitVec 17).toNat ≤ 65536 ∧ (65536 : BitVec 17).toNat ≤ 65536 := by decide

/-- FadeOutLength at both ends of the step's range. -/
theorem test_witness_fade_step :
    1 ≤ cfg0.fadeStep ∧ 1 ≤ ({ cfg0 with fadeStep := 1 } : Config).fadeStep ∧
    1 ≤ ({ cfg0 with fadeStep := 65536 } : Config).fadeStep := by decide

/-- SilentAndPassThroughBuffers. -/
theorem test_witness_frames : (List.replicate 8 (1 : Pcm)).length = 2 * 4 := rfl

/-- FillBufferOrder. -/
theorem test_witness_fill : ∃ t, fillBuffer playing (Buffer.reset cfg0 0) = .done t := ⟨_, rfl⟩

/-- BaseContentReachesBuffer, with music and without. -/
theorem test_witness_base :
    (∀ x ∈ ready.ch, x.decodedCount = 0) ∧ ready.fadeState = .none ∧ ready.musicEnabled = false ∧
    ({ ready with musicEnabled := true } : State).musicEnabled = true := by decide

/-- ResetMeetsInvariant: legal configurations at both ends of the channel count. -/
theorem test_witness_legal :
    cfg0.Legal ∧ ({ cfg0 with numChannels := 1 } : Config).Legal ∧ ({ cfg0 with numChannels := 256 } : Config).Legal := by
  decide

/-- StepKeepsInvariant, on a faulted state too. -/
theorem test_witness_inv_faulted : faulted0.Inv := by decide +kernel

end Sys2Proof.Tests
end

section
/-! Proofs about 30_encoding.md: a row's mask and match say what the well-formedness of the fields says, and the decoder
answers an error on exactly the words whose fields are not well formed (R85, R86, R265). -/

namespace Sys2Proof

/-! ## A row's mask and match, field by field -/

/-- The mask of R86 in the fields of R80: all ones where the bits must equal the match, `arg` leaving bit 0 of `ch`
free. -/
def Uses.mask (u : Uses) : Fields where
  rsv   := BitVec.allOnes 8
  sid   := if u.sid then 0 else BitVec.allOnes 16
  pitch := if u.pitch then 0 else BitVec.allOnes 8
  sep   := if u.sep then 0 else BitVec.allOnes 8
  vol   := if u.vol then 0 else BitVec.allOnes 8
  ch    := if u.ch then 0 else if u.arg then 0xFE else BitVec.allOnes 8
  op    := BitVec.allOnes 8

/-- The uses of a row, whose mask and match are those of R86. -/
theorem exists_usesOf_opCode (o : Op) : ∃ u, usesOf (opCode o) = some u ∧
    fieldsOf (opMask o) = u.mask ∧ fieldsOf (opMatch o) = ⟨0, 0, 0, 0, 0, 0, opCode o⟩ := by
  cases o <;> exact ⟨_, rfl, by decide, by decide⟩

theorem fieldsOf_injective : Function.Injective fieldsOf :=
  Function.LeftInverse.injective pack_fieldsOf

theorem fieldsOf_and (w m : CmdWord) :
    fieldsOf (w &&& m) =
      ⟨(fieldsOf w).rsv &&& (fieldsOf m).rsv, (fieldsOf w).sid &&& (fieldsOf m).sid,
        (fieldsOf w).pitch &&& (fieldsOf m).pitch, (fieldsOf w).sep &&& (fieldsOf m).sep,
        (fieldsOf w).vol &&& (fieldsOf m).vol, (fieldsOf w).ch &&& (fieldsOf m).ch,
        (fieldsOf w).op &&& (fieldsOf m).op⟩ := by
  simp [fieldsOf, BitVec.extractLsb'_and]

/-- A field's part of a mask demands 0 where the field is unused, and nothing where it is used. -/
theorem and_unusedMask_eq_zero {n : Nat} (x : BitVec n) (used : Bool) :
    x &&& (if used then 0 else BitVec.allOnes n) = 0 ↔ (used || x == 0#n) = true := by
  cases used <;> simp

/-- The `ch` field's part of a mask leaves bit 0 free where only `arg` is used (R84). -/
theorem and_chMask_eq_zero (x : BitVec 8) (ch arg : Bool) :
    x &&& (if ch then 0 else if arg then 0xFE else BitVec.allOnes 8) = 0 ↔
      (ch || x == 0#8 || (arg && x == 1#8)) = true := by
  revert x
  cases ch <;> cases arg <;> decide

/-- Row by row the mask and match of R86 say what R85 says of the fields. -/
theorem and_opMask_eq_opMatch_iff {w : CmdWord} {o : Op} (hop : (fieldsOf w).op = opCode o) :
    w &&& opMask o = opMatch o ↔ (fieldsOf w).wellFormed = true := by
  obtain ⟨u, huses, hmask, hmatch⟩ := exists_usesOf_opCode o
  rw [← fieldsOf_injective.eq_iff, fieldsOf_and, hmask, hmatch]
  simp only [Fields.wellFormed, hop, huses, Fields.unusedZero, Uses.mask, Fields.mk.injEq, and_unusedMask_eq_zero,
    and_chMask_eq_zero, BitVec.and_allOnes, Bool.and_eq_true]
  simp [and_assoc]

/-! ## The decoder's verdict -/

theorem opCode_of_opOfCode {b : BitVec 8} {o : Op} (h : opOfCode b = some o) : opCode o = b := by
  simpa using List.find?_some h

/-- A byte that is no row's opcode has no uses either (R87). -/
theorem usesOf_of_opOfCode_none {b : BitVec 8} (h : opOfCode b = none) : usesOf b = none := by
  have hne : ∀ o ∈ opRows, opCode o ≠ b := by simpa [opOfCode] using h
  simp_all [opRows, opCode, usesOf, eq_comm (b := b)]

/-- The decoder rejects exactly the words whose fields are not well formed (R85). -/
theorem decode_error_iff (w : CmdWord) : (∃ r, decode w = .error r) ↔ (fieldsOf w).wellFormed = false := by
  unfold decode
  cases hrow : opOfCode (fieldsOf w).op with
  | none => simp [Fields.wellFormed, usesOf_of_opOfCode_none hrow]
  | some o =>
    have hmatch := and_opMask_eq_opMatch_iff (opCode_of_opOfCode hrow).symm
    by_cases hwf : (fieldsOf w).wellFormed = true
    · simp [rowMatches, hmatch.mpr hwf, hwf]
    · have hno : rowMatches w o = false := by simpa [rowMatches] using mt hmatch.mp hwf
      by_cases hrsv : (fieldsOf w).rsv = 0#8 <;> simp [hno, hwf, hrsv]

namespace Machine

theorem serveWord_of_decode_error {w : CmdWord} {r : Reject} (h : decode w = .error r) (s : State) :
    serveWord w s = illegalWord s := by
  simp [serveWord, h]

/-- R265 on a block without fault: the response and nothing else. -/
theorem illegalWord_of_not_faulted {s : State} (h : s.faulted = false) :
    illegalWord s = .next { s with resp := 0xFFFFFFFE } := by
  simp [illegalWord, preamble, respond, respIllegal, h]

end Machine

/-- Settles O3: the masks of R86 and the field-wise R85 agree row by row, a byte outside the map has no uses, and an
illegal word's own rule is one write to the response. -/
theorem illegalWordsAnswerIllegal : Obligations.IllegalWordsAnswerIllegal := by
  refine ⟨decode_error_iff, fun _ _ => and_opMask_eq_opMatch_iff, fun w s r hreject hfault => ?_, by decide, by decide⟩
  rw [Machine.serveWord_of_decode_error hreject, Machine.illegalWord_of_not_faulted hfault]

end Sys2Proof
end

section
/-! Proofs about 41_channel_manager.md: the words and the results of `STOP_SOUND`, `IS_PLAYING` and `PRECACHE` (R151,
R152, R155). -/

namespace Sys2Proof

/-! ## Well-formed fields decode -/

theorem opOfCode_opCode (o : Op) : opOfCode (opCode o) = some o := by
  cases o <;> decide

/-- Packed fields that are well formed decode to the command of their row (R85, R86). -/
theorem decode_pack_of_wellFormed {f : Fields} {o : Op} (hop : f.op = opCode o) (hwf : f.wellFormed = true) :
    decode (pack f) = .ok (operands o f) := by
  have hmatch : pack f &&& opMask o = opMatch o := by
    rw [and_opMask_eq_opMatch_iff] <;> rwa [fieldsOf_pack]
  simp [decode, fieldsOf_pack, hop, opOfCode_opCode, rowMatches, hmatch]

namespace Machine

/-! ## The preamble, the gate and the channel file -/

theorem preamble_of_not_faulted {s : State} (h : s.faulted = false) (body : State → Result) :
    preamble s body = body s := by
  simp [preamble, h]

/-- R140: the gate is open. -/
theorem gate_eq_true_iff {s : State} {ch : BitVec 8} :
    gate s ch = true ↔ s.initialized = true ∧ ch.toNat < s.cfg.numChannels := by
  simp [gate]

/-- R140: the gate is closed. -/
theorem gate_eq_false_iff {s : State} {ch : BitVec 8} :
    gate s ch = false ↔ s.initialized = false ∨ s.cfg.numChannels ≤ ch.toNat := by
  rw [gate, Bool.and_eq_false_iff, decide_eq_false_iff_not, not_lt]

theorem chan_of_getElem? {s : State} {c : Nat} {x : Channel} (h : s.ch[c]? = some x) : chan s c = x := by
  simp [chan, h]

/-! ## The commands on a block without fault -/

theorem exec_stopSound_of_not_faulted {s : State} (h : s.faulted = false) (ch : BitVec 8) :
    exec (.stopSound ch) s = .next (respond (if gate s ch then stopChannel s ch.toNat else s) respOk) := by
  simp only [exec, execStopSound, preamble_of_not_faulted h]

theorem exec_isPlaying_of_not_faulted {s : State} (h : s.faulted = false) (ch : BitVec 8) :
    exec (.isPlaying ch) s = .next (respond s (respBool (gate s ch && (chan s ch.toNat).active))) := by
  simp only [exec, execIsPlaying, preamble_of_not_faulted h]

theorem exec_precache_of_not_faulted {s : State} (h : s.faulted = false) :
    exec .precache s = .next (respond s respOk) := by
  simp only [exec, execPrecache, preamble_of_not_faulted h]

/-- R32, R88: the Boolean answer for an active channel. -/
theorem respBool_active (x : Channel) : respBool x.active = if x.decodedCount = 0 then 0 else 1 := by
  by_cases hcount : x.decodedCount = 0 <;> simp [respBool, Channel.active, hcount, respOk, respTrue]

end Machine

open Machine

/-- Settles O23: past the gate `STOP_SOUND` is one `Stop` of the named channel, and with the gate closed it only
answers. -/
theorem stopSoundResult : Obligations.StopSoundResult := by
  refine ⟨fun ch => ?_, fun s ch x hfault => ⟨fun hinit hch hx => ?_, fun hclosed => ?_⟩⟩
  · obtain ⟨-, hwf⟩ := Laws.RowMatch.stopSound ch
    exact decode_pack_of_wellFormed (o := .stopSound) rfl hwf
  · rw [exec_stopSound_of_not_faulted hfault, gate_eq_true_iff.mpr ⟨hinit, hch⟩, ← chan_of_getElem? hx]
    rfl
  · rw [exec_stopSound_of_not_faulted hfault, gate_eq_false_iff.mpr hclosed]
    rfl

/-- Settles O24: `IS_PLAYING` answers whether the named channel is active where the gate is open, and false where it is
closed. -/
theorem isPlayingResult : Obligations.IsPlayingResult := by
  refine ⟨fun ch => ?_, fun s ch x hfault => ⟨fun hinit hch hx => ?_, fun hclosed => ?_⟩⟩
  · obtain ⟨-, hwf⟩ := Laws.RowMatch.isPlaying ch
    exact decode_pack_of_wellFormed (o := .isPlaying) rfl hwf
  · rw [exec_isPlaying_of_not_faulted hfault, gate_eq_true_iff.mpr ⟨hinit, hch⟩, chan_of_getElem? hx, Bool.true_and,
      respBool_active]
    rfl
  · rw [exec_isPlaying_of_not_faulted hfault, gate_eq_false_iff.mpr hclosed]
    rfl

/-- Settles O25: `PRECACHE` is the response `RESP_OK` alone. -/
theorem precacheResult : Obligations.PrecacheResult := by
  refine ⟨?_, fun s hfault => exec_precache_of_not_faulted hfault⟩
  obtain ⟨-, hwf⟩ := Laws.RowMatch.precache
  exact decode_pack_of_wellFormed (o := .precache) rfl hwf

end Sys2Proof
end

section
/-! Proofs about 43_fade.md §2: the words and the results of `FADE_TO` and `IS_FADING` (R214, R215). -/

namespace Sys2Proof

namespace Machine

/-! ## The request and the question, by fade state -/

/-- R214: a request to fade out moves `None` and `FadingIn`, and no other state. -/
theorem FadeState.request_false (f : FadeState) :
    f.request false = if f = .none ∨ f = .fadingIn then .fadingOut else f := by
  cases f <;> rfl

/-- R214: a request to fade in moves `Silent` and `FadingOut`, and no other state. -/
theorem FadeState.request_true (f : FadeState) :
    f.request true = if f = .silent ∨ f = .fadingOut then .fadingIn else f := by
  cases f <;> rfl

theorem FadeState.isFading_eq_true_iff {f : FadeState} : f.isFading = true ↔ f = .fadingOut ∨ f = .fadingIn := by
  cases f <;> decide

theorem FadeState.isFading_eq_false_iff {f : FadeState} : f.isFading = false ↔ f = .none ∨ f = .silent := by
  cases f <;> decide

/-! ## The commands on a block without fault -/

theorem exec_fadeTo_of_not_faulted {s : State} (h : s.faulted = false) (arg : Bool) :
    exec (.fadeTo arg) s = .next (respond { s with fadeState := s.fadeState.request arg } respOk) := by
  simp only [exec, execFadeTo, preamble_of_not_faulted h]

theorem exec_isFading_of_not_faulted {s : State} (h : s.faulted = false) :
    exec .isFading s = .next (respond s (respBool s.fadeState.isFading)) := by
  simp only [exec, execIsFading, preamble_of_not_faulted h]

/-- A request that leaves the fade state as it is only answers. -/
theorem exec_fadeTo_of_request_eq_self {s : State} (h : s.faulted = false) {arg : Bool}
    (hself : s.fadeState.request arg = s.fadeState) : exec (.fadeTo arg) s = .next { s with resp := 0 } := by
  rw [exec_fadeTo_of_not_faulted h, hself]
  rfl

end Machine

open Machine

/-- Settles O29: of the four fade states each request moves two and keeps two, and the command writes what the request
leaves. -/
theorem fadeToResult : Obligations.FadeToResult := by
  refine ⟨fun arg => ?_, fun s hfault =>
    ⟨fun hmoved => ?_, fun hkept => exec_fadeTo_of_request_eq_self hfault ?_,
      fun hmoved => ?_, fun hkept => exec_fadeTo_of_request_eq_self hfault ?_⟩⟩
  · obtain ⟨-, hwf⟩ := Laws.RowMatch.fadeTo arg
    cases arg <;> exact decode_pack_of_wellFormed (o := .fadeTo) rfl hwf
  · rw [exec_fadeTo_of_not_faulted hfault, FadeState.request_false, if_pos hmoved]
    rfl
  · rw [FadeState.request_false, if_neg]
    obtain h | h := hkept <;> simp [h]
  · rw [exec_fadeTo_of_not_faulted hfault, FadeState.request_true, if_pos hmoved]
    rfl
  · rw [FadeState.request_true, if_neg]
    obtain h | h := hkept <;> simp [h]

/-- Settles O30: `IS_FADING` answers true in the two ramping states and false in the two at rest, `Silent` among
them. -/
theorem isFadingResult : Obligations.IsFadingResult := by
  refine ⟨?_, fun s hfault => ⟨fun hramp => ?_, fun hrest => ?_⟩⟩
  · obtain ⟨-, hwf⟩ := Laws.RowMatch.isFading
    exact decode_pack_of_wellFormed (o := .isFading) rfl hwf
  · rw [exec_isFading_of_not_faulted hfault, FadeState.isFading_eq_true_iff.mpr hramp]
    rfl
  · rw [exec_isFading_of_not_faulted hfault, FadeState.isFading_eq_false_iff.mpr hrest]
    rfl

end Sys2Proof
end

section
/-! Proofs about 44_scheduler.md: the word and the result of `SHUTDOWN` (R239). -/

namespace Sys2Proof

namespace Machine

/-- R150, R239: `Stop` on every channel is one write to the channel file, all decoded counts 0. -/
theorem stopAll_eq (s : State) : stopAll s = { s with ch := s.ch.map fun x => { x with decodedCount := 0 } } := rfl

theorem exec_shutdown_of_not_faulted {s : State} (h : s.faulted = false) :
    exec .shutdown s = .next (respond { stopAll s with initialized := false } respOk) := by
  simp only [exec, execShutdown, preamble_of_not_faulted h]

end Machine

open Machine

/-- Settles O18: past the preamble `SHUTDOWN` is the stop of every channel, the cleared `initialized` and the answer,
and none of the three writes anything else. -/
theorem shutdownResult : Obligations.ShutdownResult := by
  refine ⟨?_, fun s hfault => ?_⟩
  · obtain ⟨-, hwf⟩ := Laws.RowMatch.shutdown
    exact decode_pack_of_wellFormed (o := .shutdown) rfl hwf
  · rw [exec_shutdown_of_not_faulted hfault, stopAll_eq]
    rfl

end Sys2Proof
end

section
/-! Proofs about 30_encoding.md §1, §2: encoder and decoder undo each other, the rows of the opcode map, the operands of
a decoded word, and the bytes that are no opcode (R80 to R89). -/

namespace Sys2Proof

/-! ## A row's operands and a command's fields -/

/-- Every command is the command of its row with its own fields' operands (R81 to R84). -/
theorem operands_rowOf_fields (i : Instr) : operands (rowOf i) i.fields = i := by
  cases i with
  | setMusic arg => cases arg <;> decide
  | fadeTo arg => cases arg <;> decide
  | _ => rfl

theorem rowOf_operands (o : Op) (f : Fields) : rowOf (operands o f) = o := by
  cases o <;> rfl

theorem fields_op_eq_opCode_rowOf (i : Instr) : i.fields.op = opCode (rowOf i) := by
  cases i <;> rfl

theorem opCode_injective : Function.Injective opCode := by
  intro o o' h
  simpa [opOfCode_opCode] using congrArg opOfCode h

/-- Every command has its row's bits and well-formed fields (R85, R86). -/
theorem rowMatch_statement (i : Instr) : Laws.RowMatch.Statement i := by
  cases i with
  | init => exact Laws.RowMatch.init
  | shutdown => exact Laws.RowMatch.shutdown
  | lookup sid => exact Laws.RowMatch.lookup sid
  | startSound sid ch vol sep pitch => exact Laws.RowMatch.startSound sid ch vol sep pitch
  | updateParams ch vol sep => exact Laws.RowMatch.updateParams ch vol sep
  | stopSound ch => exact Laws.RowMatch.stopSound ch
  | isPlaying ch => exact Laws.RowMatch.isPlaying ch
  | updateSound => exact Laws.RowMatch.updateSound
  | precache => exact Laws.RowMatch.precache
  | setMusic arg => exact Laws.RowMatch.setMusic arg
  | fadeTo arg => exact Laws.RowMatch.fadeTo arg
  | isFading => exact Laws.RowMatch.isFading

/-- Decoding a command's word gives the command back. -/
theorem decode_encode (i : Instr) : decode (encode i) = .ok i := by
  obtain ⟨-, hwf⟩ := rowMatch_statement i
  rw [encode, decode_pack_of_wellFormed (fields_op_eq_opCode_rowOf i) hwf, operands_rowOf_fields]

/-- Settles O1: every command's word has its row's bits and well-formed fields, so the decoder finds the row, whose
operands are the command's own. -/
theorem decodeOfEncodedCommand : Obligations.DecodeOfEncodedCommand :=
  fun i => ⟨(rowMatch_statement i).2, decode_encode i⟩

/-! ## What a decoded word says of its fields -/

/-- A word decodes to a command exactly where the word's fields are well formed and the command is that of the opcode's
row. -/
theorem decode_eq_ok_iff {w : CmdWord} {i : Instr} :
    decode w = .ok i ↔ ∃ o, (fieldsOf w).op = opCode o ∧ (fieldsOf w).wellFormed = true ∧
      i = operands o (fieldsOf w) := by
  constructor
  · intro h
    have hwf : (fieldsOf w).wellFormed = true := by
      by_contra hno
      obtain ⟨r, hr⟩ := (decode_error_iff w).mpr (Bool.eq_false_of_not_eq_true hno)
      rw [h] at hr
      cases hr
    unfold decode at h
    cases hrow : opOfCode (fieldsOf w).op with
    | none => simp [hrow] at h
    | some o =>
      have hop := (opCode_of_opOfCode hrow).symm
      have hmatch := (and_opMask_eq_opMatch_iff hop).mpr hwf
      exact ⟨o, hop, hwf, by simpa [hrow, rowMatches, hmatch, eq_comm] using h⟩
  · rintro ⟨o, hop, hwf, rfl⟩
    simpa [pack_fieldsOf] using decode_pack_of_wellFormed hop hwf

/-- Bit 0 of a `ch` field of which only that bit is used is the whole field (R84, R85). -/
theorem ofNat_toNat_argOf (x : BitVec 8) (h : x = 0 ∨ x = 1) :
    BitVec.ofNat 8 (x.getLsbD 0).toNat = x := by
  obtain rfl | rfl := h <;> decide

/-- Well-formed fields of a row that uses `arg` alone hold nothing besides it (R84, R85). -/
theorem fields_eq_arg_of_wellFormed {f : Fields} (huses : usesOf f.op = some { arg := true })
    (hwf : f.wellFormed = true) : f = ⟨0, 0, 0, 0, 0, BitVec.ofNat 8 (argOf f).toNat, f.op⟩ := by
  simp only [Fields.wellFormed, huses, Fields.unusedZero, Bool.false_or, Bool.true_and, Bool.and_eq_true, beq_iff_eq,
    Bool.or_eq_true] at hwf
  obtain ⟨hrsv, ⟨⟨⟨hsid, hpitch⟩, hsep⟩, hvol⟩, hch⟩ := hwf
  rw [argOf, ofNat_toNat_argOf f.ch hch]
  cases f
  simp_all

/-- Well-formed fields are those of the command they give: no field is dropped (R85, R86). -/
theorem fields_operands_of_wellFormed {f : Fields} {o : Op} (hop : f.op = opCode o) (hwf : f.wellFormed = true) :
    (operands o f).fields = f := by
  obtain ⟨rsv, sid, pitch, sep, vol, ch, op⟩ := f
  subst hop
  cases o with
  | setMusic => exact (fields_eq_arg_of_wellFormed rfl hwf).symm
  | fadeTo => exact (fields_eq_arg_of_wellFormed rfl hwf).symm
  | _ => simp_all [Fields.wellFormed, usesOf, opCode, Fields.unusedZero, operands, Instr.fields]

/-- A decoded command's fields are the word's. -/
theorem fields_of_decode {w : CmdWord} {i : Instr} (h : decode w = .ok i) : i.fields = fieldsOf w := by
  obtain ⟨o, hop, hwf, rfl⟩ := decode_eq_ok_iff.mp h
  exact fields_operands_of_wellFormed hop hwf

theorem rsv_eq_zero_of_wellFormed {f : Fields} (h : f.wellFormed = true) : f.rsv = 0 := by
  unfold Fields.wellFormed at h
  split at h
  · simp only [Bool.and_eq_true, beq_iff_eq] at h
    exact h.1
  · cases h

theorem decode_eq_ok_iff_encode_eq {w : CmdWord} {i : Instr} : decode w = .ok i ↔ encode i = w := by
  constructor
  · intro h
    rw [encode, fields_of_decode h, pack_fieldsOf]
  · rintro rfl
    exact decode_encode i

/-- Settles O2: a decoded command's fields are the word's, so packing them gives the word back. -/
theorem encodeOfDecodedWord : Obligations.EncodeOfDecodedWord :=
  fun _ _ h => decode_eq_ok_iff_encode_eq.mp h

/-- Settles O5: a decoded command's fields are the word's, among which `rsv` is 0. -/
theorem operandsAreTheFieldBits : Obligations.OperandsAreTheFieldBits := by
  intro w i h
  obtain ⟨-, -, hwf, -⟩ := decode_eq_ok_iff.mp h
  have hrsv : (0 : BitVec 8) = w.extractLsb' 56 8 := (rsv_eq_zero_of_wellFormed hwf).symm
  rw [fields_of_decode h, hrsv]
  rfl

/-! ## The rows of the opcode map -/

/-- A word that matches a row has the row's opcode: every mask covers the opcode byte (R86). -/
theorem op_of_and_opMask {w : CmdWord} {o : Op} (h : w &&& opMask o = opMatch o) : (fieldsOf w).op = opCode o := by
  obtain ⟨u, -, hmask, hmatch⟩ := exists_usesOf_opCode o
  have hop : (fieldsOf (w &&& opMask o)).op = (fieldsOf (opMatch o)).op := by rw [h]
  rw [fieldsOf_and, hmask, hmatch] at hop
  simpa only [Uses.mask, BitVec.and_allOnes] using hop

/-- A word is a command of a row exactly where it matches the row (R86). -/
theorem exists_decode_rowOf_iff (w : CmdWord) (o : Op) :
    (∃ i, decode w = .ok i ∧ rowOf i = o) ↔ w &&& opMask o = opMatch o := by
  constructor
  · rintro ⟨i, hi, rfl⟩
    rw [← decode_eq_ok_iff_encode_eq.mp hi]
    exact (rowMatch_statement i).1
  · intro h
    have hop := op_of_and_opMask h
    exact ⟨_, decode_eq_ok_iff.mpr ⟨o, hop, (and_opMask_eq_opMatch_iff hop).mp h, rfl⟩, rowOf_operands o _⟩

/-- Settles O4: the table is read off its rows; a command's word matches its row and a word that matches decodes to its
row; two rows that match share the opcode byte, which names one row. -/
theorem opcodeMapRowsMatch : Obligations.OpcodeMapRowsMatch :=
  ⟨by decide, exists_decode_rowOf_iff, fun _ _ _ h h' =>
    opCode_injective ((op_of_and_opMask h).symm.trans (op_of_and_opMask h'))⟩

/-! ## Bytes that are no opcode -/

theorem op_toNat (w : CmdWord) : (fieldsOf w).op.toNat = w.toNat % 256 := by
  simp [fieldsOf]

/-- R87: the bytes with no row. -/
theorem opOfCode_eq_none_iff (b : BitVec 8) : opOfCode b = none ↔ b.toNat = 0 ∨ 13 ≤ b.toNat := by
  revert b
  decide

/-- A word is rejected for its opcode exactly where its low byte has no row. -/
theorem decode_unknownOpcode_iff (w : CmdWord) :
    decode w = .error .unknownOpcode ↔ opOfCode (fieldsOf w).op = none := by
  unfold decode
  cases opOfCode (fieldsOf w).op with
  | none => simp
  | some o => dsimp only; split_ifs <;> simp

/-- Settles O7: only a byte with no row is rejected for its opcode, and those bytes are 0 and 13 to 255. -/
theorem unknownOpcodeBytes : Obligations.UnknownOpcodeBytes := by
  intro w
  rw [decode_unknownOpcode_iff, opOfCode_eq_none_iff, op_toNat]

/-- Settles O6, word by word. -/
theorem specWordsDecode : Obligations.SpecWordsDecode := by
  unfold Obligations.SpecWordsDecode
  decide

end Sys2Proof
end

section
/-! Proofs about the block's arithmetic: the ADPCM nibble step (40_adpcm_decoder.md §1, §2), the formulas of
41_channel_manager.md §2, and the stored values of 42_mixer.md §2, §3. -/

namespace Sys2Proof.Machine

/-! ## The operators of 00_scope.md R12 in plain arithmetic -/

theorem clamp_eq_max_min (v : Int) {lo hi : Int} (h : lo ≤ hi) : clamp v lo hi = max lo (min hi v) := by
  unfold clamp
  split_ifs <;> omega

theorem sat16_eq_max_min (v : Int) : sat16 v = max (-32768) (min 32767 v) :=
  clamp_eq_max_min v (by decide)

theorem asr_eq_ediv (a : Int) (n : Nat) : asr a n = a / 2 ^ n :=
  Int.fdiv_eq_ediv_of_nonneg a (by positivity)

/-- Truncating division is floor division of the magnitude. -/
theorem tdiv_cases (a b : Int) :
    (0 ≤ a ∧ a.tdiv b = a / b) ∨ (a < 0 ∧ a.tdiv b = -(-a / b)) := by
  rcases le_or_gt 0 a with ha | ha
  · exact .inl ⟨ha, Int.tdiv_eq_ediv_of_nonneg ha⟩
  · refine .inr ⟨ha, ?_⟩
    rw [← Int.tdiv_eq_ediv_of_nonneg (by omega), Int.neg_tdiv, neg_neg]

theorem toInt_ofInt_int8 {v : Int} (h : -128 ≤ v) (h' : v ≤ 127) : (BitVec.ofInt 8 v).toInt = v :=
  BitVec.toInt_ofInt_eq_self (by decide) h (by omega)

theorem toInt_ofInt_int16 {v : Int} (h : -32768 ≤ v) (h' : v ≤ 32767) : (BitVec.ofInt 16 v).toInt = v :=
  BitVec.toInt_ofInt_eq_self (by decide) h (by omega)

/-! ## One nibble (R116) -/

theorem nibble_bits (n : BitVec 4) :
    (n.getLsbD 0 = true ↔ n.toNat % 2 = 1) ∧ (n.getLsbD 1 = true ↔ n.toNat / 2 % 2 = 1) ∧
    (n.getLsbD 2 = true ↔ n.toNat / 4 % 2 = 1) ∧ (n.getLsbD 3 = true ↔ 8 ≤ n.toNat) := by
  revert n
  decide

/-- The table of R112 in closed form. -/
theorem indexTable_get (n : BitVec 4) :
    indexTable.get (nibbleMagnitude n).toFin =
      if (n.toNat % 8 : Int) < 4 then -1 else 2 * ((n.toNat % 8 : Int) - 3) := by
  revert n
  decide

/-- The delta of R116 in plain arithmetic. -/
theorem nibbleDelta_eq (step : Nat) (n : BitVec 4) :
    nibbleDelta step n =
      (if 8 ≤ n.toNat then -1 else 1) * ((step : Int) / 8 + (if n.toNat % 2 = 1 then (step : Int) / 4 else 0) +
        (if n.toNat / 2 % 2 = 1 then (step : Int) / 2 else 0) + (if n.toNat / 4 % 2 = 1 then (step : Int) else 0)) := by
  obtain ⟨h0, h1, h2, h3⟩ := nibble_bits n
  unfold nibbleDelta
  simp only [h0, h1, h2, h3]
  push_cast
  norm_num

/-- `clamp(i, 0, 88)` as a number. -/
theorem clampIndex_val (i : Int) : ((clampIndex i).val : Int) = max 0 (min 88 i) := by
  have hle : (0 : Int) ≤ clamp i 0 88 := clamp_ge (by decide)
  rw [← clamp_eq_max_min i (by decide)]
  exact Int.toNat_of_nonneg hle

theorem nibbleStep_acc (tbl : Vector (BitVec 16) 89) (a : Accum) (n : BitVec 4) :
    (nibbleStep tbl a n).acc = sat16 (a.acc + nibbleDelta (tbl.get a.idx).toNat n) := rfl

theorem nibbleStep_idx (tbl : Vector (BitVec 16) 89) (a : Accum) (n : BitVec 4) :
    (nibbleStep tbl a n).idx = clampIndex (a.idx.val + indexTable.get (nibbleMagnitude n).toFin) := rfl

/-- Settles O41: the delta and the table of R116 and R112 in closed form, both sums clamped. -/
theorem nibbleStepResult : Obligations.NibbleStepResult := by
  intro tbl acc idx n
  refine ⟨?_, ?_⟩
  · rw [nibbleStep_acc, sat16_eq_max_min, nibbleDelta_eq]
    by_cases hsign : 8 ≤ n.toNat <;> simp [hsign]
  · rw [nibbleStep_idx, clampIndex_val, indexTable_get]

/-- The high byte of an int16 accumulator is its floor by 256 (R115). -/
theorem highByte_toInt {acc : Int} (h : -32768 ≤ acc) (h' : acc ≤ 32767) : (highByte acc).toInt = acc / 256 := by
  rw [highByte, asr_eq_ediv]
  exact toInt_ofInt_int8 (by omega) (by omega)

theorem abs_nibbleDelta_le {step : Nat} (h : step ≤ 32767) (n : BitVec 4) : |nibbleDelta step n| ≤ 61436 := by
  rw [nibbleDelta_eq, abs_le]
  split_ifs <;> omega

/-- Settles O42: the accumulator and the index are clamped, and every part of a delta is bounded by the step. -/
theorem adpcmRanges : Obligations.AdpcmRanges := by
  intro tbl a n htbl
  obtain ⟨hlo, hhi⟩ := sat16_range (a.acc + nibbleDelta (tbl.get a.idx).toNat n)
  rw [← nibbleStep_acc] at hlo hhi
  exact ⟨hlo, hhi, Nat.le_of_lt_succ (nibbleStep tbl a n).idx.isLt, abs_nibbleDelta_le (htbl a.idx) n,
    highByte_toInt hlo hhi⟩

/-! ## The formulas of the channel manager -/

/-- R143: the pitch cancels. -/
theorem stepOf_eq (c : Config) (rate : Nat) {pitch : Nat} (h : 1 ≤ pitch) :
    stepOf c rate pitch = rate * 65536 / c.outRate := by
  rw [stepOf, mul_right_comm]
  exact Nat.mul_div_mul_right _ _ h

/-- Settles O44: the pitch cancels, and the quotient is at most the largest rate by 65536. -/
theorem stepIgnoresPitch : Obligations.StepIgnoresPitch := by
  intro c rate pitch _ hpitch hrate
  have heq := stepOf_eq c rate hpitch
  have hle : rate * 65536 / c.outRate ≤ rate * 65536 := Nat.div_le_self _ _
  exact ⟨heq, by omega⟩

/-- R144: the coefficient stays below 256, since the divisor has a part besides `201*rate`. -/
theorem smoothCoefOf_le (c : Config) (rate : Nat) (h : 1 ≤ c.outRate) : smoothCoefOf c rate ≤ 255 :=
  Nat.le_of_lt_succ (Nat.div_lt_of_lt_mul (by omega))

/-- Settles O45: the formula is the definition's, and `OUT_RATE` is at least 1. -/
theorem smoothCoefBound : Obligations.SmoothCoefBound :=
  fun c rate h => ⟨rfl, by omega, smoothCoefOf_le c rate h⟩

/-- Floor and truncating division differ on negative numbers alone, where the clamp gives 0 for both (R145). -/
theorem clamped_tdiv_eq_ediv (v : Int) :
    max 0 (min 255 ((v.tdiv 127).tdiv 4)) = max 0 (min 255 (v / 127 / 4)) := by
  obtain ⟨h, e⟩ | ⟨h, e⟩ := tdiv_cases v 127 <;> obtain ⟨h', e'⟩ | ⟨h', e'⟩ := tdiv_cases (v.tdiv 127) 4 <;> omega

theorem leftGain_eq (vol sep : Nat) :
    leftGain vol sep = max 0 (min 255 ((((254 - (sep : Int)) * vol).tdiv 127).tdiv 4)) :=
  clamp_eq_max_min _ (by decide)

theorem rightGain_eq (vol sep : Nat) :
    rightGain vol sep = max 0 (min 255 ((((sep : Int) * vol).tdiv 127).tdiv 4)) :=
  clamp_eq_max_min _ (by decide)

theorem leftGain_le (vol sep : BitVec 8) : leftGain vol.toNat sep.toNat ≤ 127 := by
  have hprod : (254 - (sep.toNat : Int)) * vol.toNat ≤ 254 * 255 :=
    mul_le_mul (by omega) (by omega) (by omega) (by decide)
  rw [leftGain_eq, clamped_tdiv_eq_ediv]
  omega

theorem rightGain_le (vol sep : BitVec 8) : rightGain vol.toNat sep.toNat ≤ 128 := by
  have hprod : (sep.toNat : Int) * vol.toNat ≤ 255 * 255 := mul_le_mul (by omega) (by omega) (by omega) (by decide)
  rw [rightGain_eq, clamped_tdiv_eq_ediv]
  omega

theorem leftGain_nonneg (vol sep : Nat) : 0 ≤ leftGain vol sep := clamp_ge (by decide)

theorem rightGain_nonneg (vol sep : Nat) : 0 ≤ rightGain vol sep := clamp_ge (by decide)

/-- Settles O46: the two divisions differ below 0 alone, and the products are at most `254*255` and `255*255`. -/
theorem gainsBound : Obligations.GainsBound := by
  intro vol sep
  refine ⟨leftGain_eq _ _, rightGain_eq _ _, ?_, ?_, leftGain_le vol sep, rightGain_le vol sep⟩
  · rw [leftGain_eq, clamped_tdiv_eq_ediv]
  · rw [rightGain_eq, clamped_tdiv_eq_ediv]

/-! ## What the mixer stores -/

/-- Settles O47: the clamped sum is an int16, so storing it changes nothing. -/
theorem laneSaturates : Obligations.LaneSaturates := by
  intro old smp gain
  obtain ⟨hlo, hhi⟩ := sat16_range (old.toInt + smp * gain.toNat)
  rw [← sat16_eq_max_min]
  exact toInt_ofInt_int16 hlo hhi

/-- Truncation moves a share of the blend toward 0, so it stays within any bounds around 0. -/
theorem tdiv_256_bounds {v lo hi : Int} (hlo : lo ≤ 0) (hhi : 0 ≤ hi) (h : lo ≤ v) (h' : v ≤ hi) :
    lo ≤ 256 * v.tdiv 256 ∧ 256 * v.tdiv 256 ≤ hi := by
  obtain ⟨hv, e⟩ | ⟨hv, e⟩ := tdiv_cases v 256 <;> omega

/-- A share of an int8 is within the same share of the int8 range. -/
theorem int8_mul_bounds (v : Sample) {weight : Int} (h : 0 ≤ weight) :
    -128 * weight ≤ v.toInt * weight ∧ v.toInt * weight ≤ 127 * weight := by
  have hlo := v.le_toInt
  have hhi := v.toInt_lt
  exact ⟨mul_le_mul_of_nonneg_right (by omega) h, mul_le_mul_of_nonneg_right (by omega) h⟩

/-- The blend of two int8 values with weights that add up to 256 is an int8 (R184). -/
theorem blend_int8 (prev raw : Sample) {weight : Int} (h : 0 ≤ weight) (h' : weight ≤ 256) :
    -128 ≤ (prev.toInt * (256 - weight)).tdiv 256 + (raw.toInt * weight).tdiv 256 ∧
    (prev.toInt * (256 - weight)).tdiv 256 + (raw.toInt * weight).tdiv 256 ≤ 127 := by
  obtain ⟨p1, p2⟩ := int8_mul_bounds prev (weight := 256 - weight) (by omega)
  obtain ⟨r1, r2⟩ := int8_mul_bounds raw h
  obtain ⟨p3, p4⟩ := tdiv_256_bounds (by omega) (by omega) p1 p2
  obtain ⟨r3, r4⟩ := tdiv_256_bounds (by omega) (by omega) r1 r2
  omega

theorem smoothed_eq_raw {c : Config} (h : c.smoothingEnabled = false) (x : Channel) (raw : Int) :
    smoothed c x raw = raw := by
  simp [smoothed, h]

theorem smoothed_eq_blend {c : Config} (h : c.smoothingEnabled = true) (x : Channel) (raw : Int) :
    smoothed c x raw = (x.smoothPrev.toInt * (256 - (x.smoothCoef.toNat : Int))).tdiv 256 +
      (raw * x.smoothCoef.toNat).tdiv 256 := by
  simp [smoothed, h]

theorem smoothed_int8 (c : Config) (x : Channel) (raw : Sample) (h : x.smoothCoef.toNat ≤ 256) :
    -128 ≤ smoothed c x raw.toInt ∧ smoothed c x raw.toInt ≤ 127 := by
  cases hs : c.smoothingEnabled with
  | true =>
    rw [smoothed_eq_blend hs]
    exact blend_int8 x.smoothPrev raw (by omega) (by omega)
  | false =>
    have hlo := raw.le_toInt
    have hhi := raw.toInt_lt
    rw [smoothed_eq_raw hs]
    omega

theorem remember_eq (x : Channel) (c : Config) (smp : Int) :
    x.remember c smp = { x with smoothPrev := if c.smoothingEnabled then BitVec.ofInt 8 smp else x.smoothPrev } := by
  unfold Channel.remember
  split_ifs <;> rfl

/-- Settles O48: the weights of the blend add up to 256, and truncation toward 0 keeps each share within its bounds. -/
theorem smoothedStaysInt8 : Obligations.SmoothedStaysInt8 := by
  intro c x raw hcoef
  obtain ⟨hlo, hhi⟩ := smoothed_int8 c x raw hcoef
  refine ⟨hlo, hhi, fun hs => ⟨smoothed_eq_blend hs x _, ?_⟩, fun hs => ⟨smoothed_eq_raw hs x _, ?_⟩⟩
  · simp only [remember_eq, hs, if_true]
    exact toInt_ofInt_int8 hlo hhi
  · simp [Channel.remember, hs]

end Sys2Proof.Machine
end

section
/-! Proofs about source reads (20_memory.md §1) and the decoder (40_adpcm_decoder.md §2 to §4): when a read is admitted,
which samples a block decodes to, and what `DecodeNext` leaves. -/

namespace Sys2Proof.Machine

/-! ## Reads -/

theorem covers_iff (r : Span) (a : Nat) : r.covers a = true ↔ r.base ≤ a ∧ a < r.base + r.len := by
  simp [Span.covers]

/-- A byte can be read where a named span covers it and something is resident (R51, R263; log 4). -/
theorem byteAt_isSome {s : State} {a : Nat} :
    (byteAt s a).isSome = true ↔
      (∃ r ∈ s.named, r.base ≤ a ∧ a < r.base + r.len) ∧ Memory.read s.mem a ≠ none := by
  simp only [byteAt, ← covers_iff, ← List.any_eq_true, Option.ne_none_iff_isSome]
  split_ifs with h <;> simp [h]

/-- A byte that can be read is the one at its address. -/
theorem byteAt_eq_some {s : State} {a : Nat} {b : Byte} (h : byteAt s a = some b) : Memory.read s.mem a = some b := by
  unfold byteAt at h
  split_ifs at h
  exact h

/-- A read that is admitted gives the bytes in order of address. -/
theorem readBytes_getElem? {s : State} {a n : Nat} {bs : List Byte} (h : readBytes s a n = some bs) {k : Nat}
    (hk : k < n) : bs[k]? = Memory.read s.mem (a + k) := by
  induction n generalizing a bs k with
  | zero => omega
  | succ n ih =>
    simp only [readBytes] at h
    split at h
    · rename_i b rest hb hrest
      cases h
      cases k with
      | zero => exact (byteAt_eq_some hb).symm
      | succ k => simpa [Nat.add_assoc, Nat.add_comm 1 k] using ih hrest (Nat.lt_of_succ_lt_succ hk)
    · cases h

theorem memRead_getElem? {s : State} {a n : Nat} {bs : List Byte} (h : memRead s a n = some bs) {k : Nat}
    (hk : k < n) : bs[k]? = Memory.read s.mem (a + k) := by
  unfold memRead at h
  split_ifs at h
  · omega
  · exact readBytes_getElem? h hk

/-- Settles O39: a read is admitted where each of its bytes can be read, and gives them in order of address. -/
theorem memReadAdmission : Obligations.MemReadAdmission := by
  intro s a n
  refine ⟨?_, fun bs h => ⟨memRead_length h, fun k hk => memRead_getElem? h hk⟩⟩
  rw [← Option.isSome_iff_exists, memRead_isSome]
  simp only [byteAt_isSome]

/-! ## The samples of an ADPCM block -/

/-- Nibble `j` of a block's data: byte `4 + j/2`, low nibble first (R95). -/
def nibbleAt (blk : List Byte) (j : Nat) : BitVec 4 := (blk.getD (4 + j / 2) 0).extractLsb' (4 * (j % 2)) 4

/-- The accumulator after `j` nibbles of a block's data (R115, R116). -/
def accumAfter (tbl : Vector (BitVec 16) 89) (blk : List Byte) (start : Accum) : Nat → Accum
  | 0 => start
  | j + 1 => nibbleStep tbl (accumAfter tbl blk start j) (nibbleAt blk j)

theorem flatMap_nibbles_getElem? (bs : List Byte) (j : Nat) (h : j < 2 * bs.length) :
    (bs.flatMap nibbles)[j]? = some ((bs.getD (j / 2) 0).extractLsb' (4 * (j % 2)) 4) := by
  induction bs generalizing j with
  | nil => simp at h
  | cons b bs ih =>
    match j with
    | 0 => rfl
    | 1 => rfl
    | j + 2 =>
      have hj := ih j (by simp at h; omega)
      simpa [nibbles] using hj

/-- The nibbles decoded are those of the data, in order. -/
theorem nibbles_eq_nibbleAt {blk : List Byte} {j : Nat} (h : j < 2 * (blk.length - 4)) :
    ((blk.drop 4).flatMap nibbles)[j]? = some (nibbleAt blk j) := by
  rw [flatMap_nibbles_getElem? _ j (by simpa using h)]
  simp [nibbleAt]

/-- Sample `j` of a run of nibbles is the high byte of the accumulator after nibble `j`, for any sequence of accumulators
that takes the nibble steps. -/
theorem decodeNibbles_getElem? {tbl : Vector (BitVec 16) 89} {acc : Nat → Accum} {ns : List (BitVec 4)}
    (hstep : ∀ j n, ns[j]? = some n → acc (j + 1) = nibbleStep tbl (acc j) n) {j : Nat} (h : j < ns.length) :
    (decodeNibbles tbl (acc 0) ns)[j]? = some (highByte (acc (j + 1)).acc) := by
  induction ns generalizing acc j with
  | nil => simp at h
  | cons n ns ih =>
    have h0 : nibbleStep tbl (acc 0) n = acc 1 := (hstep 0 n rfl).symm
    simp only [decodeNibbles, h0]
    cases j with
    | zero => rfl
    | succ j => exact ih (acc := fun i => acc (i + 1)) (fun i m hm => hstep (i + 1) m hm) (Nat.lt_of_succ_lt_succ h)

theorem decodeAdpcm_short {tbl : Vector (BitVec 16) 89} {blk : List Byte} (h : blk.length < 4) :
    decodeAdpcm tbl blk = [] := by
  rw [decodeAdpcm, if_pos h]

/-- R114: an index above 88 or a reserved byte that is not 0 rejects the block. -/
theorem decodeAdpcm_rejected {tbl : Vector (BitVec 16) 89} {blk : List Byte}
    (h : 88 < (blk.getD 2 0).toNat ∨ blk.getD 3 0 ≠ 0) : decodeAdpcm tbl blk = [] := by
  have h' : 88 < byteOf blk 2 ∨ byteOf blk 3 ≠ 0 := by
    simpa [byteOf, ← BitVec.toNat_inj] using h
  unfold decodeAdpcm
  split_ifs
  · rfl
  · exact dif_pos h'

/-- The seed and the index of a header that passes (R94). -/
def blockStart (blk : List Byte) (h : (blk.getD 2 0).toNat ≤ 88) : Accum :=
  ⟨(BitVec.ofNat 16 ((blk.getD 0 0).toNat + 256 * (blk.getD 1 0).toNat)).toInt, ⟨(blk.getD 2 0).toNat, by omega⟩⟩

theorem le16_slice_zero (blk : List Byte) :
    le16 (slice blk 0 2) = (blk.getD 0 0).toNat + 256 * (blk.getD 1 0).toNat := by
  match blk with
  | [] => rfl
  | [b] => simp [le16, slice, byteOf]
  | b :: b' :: rest => simp [le16, slice, byteOf, Nat.mul_comm]

/-- R115: a block that passes is its seed's high byte, then the samples of its nibbles. -/
theorem decodeAdpcm_passed {tbl : Vector (BitVec 16) 89} {blk : List Byte} (hlen : 4 ≤ blk.length)
    (hidx : (blk.getD 2 0).toNat ≤ 88) (hrsv : blk.getD 3 0 = 0) :
    decodeAdpcm tbl blk = highByte (blockStart blk hidx).acc ::
      decodeNibbles tbl (blockStart blk hidx) ((blk.drop 4).flatMap nibbles) := by
  have hno : ¬ (88 < byteOf blk 2 ∨ byteOf blk 3 ≠ 0) := by
    simp only [byteOf, hrsv]
    simpa using hidx
  rw [decodeAdpcm, if_neg (by omega)]
  simp only [dif_neg hno, sext, le16_slice_zero]
  rfl

theorem decodeAdpcm_passed_length {tbl : Vector (BitVec 16) 89} {blk : List Byte} (hlen : 4 ≤ blk.length)
    (hidx : (blk.getD 2 0).toNat ≤ 88) (hrsv : blk.getD 3 0 = 0) :
    (decodeAdpcm tbl blk).length = 1 + 2 * (blk.length - 4) := by
  obtain h | h := decodeAdpcm_length tbl blk
  · rw [decodeAdpcm_passed hlen hidx hrsv] at h
    cases h
  · exact h

/-- R115, R116: sample `j` is the high byte of the accumulator after `j` nibbles. -/
theorem decodeAdpcm_getElem? {tbl : Vector (BitVec 16) 89} {blk : List Byte} (hlen : 4 ≤ blk.length)
    (hidx : (blk.getD 2 0).toNat ≤ 88) (hrsv : blk.getD 3 0 = 0) {j : Nat} (h : j < 1 + 2 * (blk.length - 4)) :
    (decodeAdpcm tbl blk)[j]? = some (highByte (accumAfter tbl blk (blockStart blk hidx) j).acc) := by
  rw [decodeAdpcm_passed hlen hidx hrsv]
  cases j with
  | zero => rfl
  | succ j =>
    have hcount : ((blk.drop 4).flatMap nibbles).length = 2 * (blk.length - 4) := by
      rw [flatMap_nibbles_length, List.length_drop]
    refine decodeNibbles_getElem? (acc := accumAfter tbl blk (blockStart blk hidx)) (fun i n hn => ?_) (by omega)
    have hi : i < 2 * (blk.length - 4) := hcount ▸ (List.getElem?_eq_some_iff.mp hn).1
    rw [nibbles_eq_nibbleAt hi] at hn
    cases hn
    rfl

theorem nibbleAt_even (blk : List Byte) (k : Nat) :
    nibbleAt blk (2 * k) = (blk.getD (4 + k) 0).extractLsb' 0 4 := by
  simp [nibbleAt]

theorem nibbleAt_odd (blk : List Byte) (k : Nat) :
    nibbleAt blk (2 * k + 1) = (blk.getD (4 + k) 0).extractLsb' 4 4 := by
  have hdiv : (2 * k + 1) / 2 = k := by omega
  have hmod : (2 * k + 1) % 2 = 1 := by omega
  simp [nibbleAt, hdiv, hmod]

theorem highByte_eq (acc : Int) : highByte acc = BitVec.ofInt 8 (acc / 256) := by
  rw [highByte, asr_eq_ediv]
  rfl

/-- Settles O40: the header check is the definition's; the accumulators are those after the first nibbles of the
data. -/
theorem adpcmSampleCount : Obligations.AdpcmSampleCount := by
  intro tbl blk
  refine ⟨decodeAdpcm_short, decodeAdpcm_rejected, fun hlen hidx hrsv => ⟨decodeAdpcm_passed_length hlen hidx hrsv,
    accumAfter tbl blk (blockStart blk hidx), rfl, rfl, fun k => ?_, fun k => ?_, fun j hj => ?_⟩,
    fun c hle => decodeBlock_length_le { c with stepTable := tbl } .adpcm blk hle⟩
  · rw [← nibbleAt_even]
    rfl
  · rw [← nibbleAt_odd]
    rfl
  · rw [decodeAdpcm_getElem? hlen hidx hrsv hj, highByte_eq]

/-! ## `DecodeNext` -/

theorem blockBytes_eq (c : Config) (f : Format) :
    blockBytes c f = if f = .adpcm then c.adpcmBlockBytes else 1 + 2 * (c.adpcmBlockBytes - 4) := by
  cases f <;> rfl

theorem decodeBlock_eq (c : Config) (f : Format) (bs : List Byte) :
    decodeBlock c f bs = if f = .adpcm then decodeAdpcm c.stepTable bs else bs := by
  cases f with
  | adpcm => rfl
  | raw => exact List.map_id' bs

theorem decodeNext_of_memRead_none {s : State} {x : Channel}
    (h : memRead s x.srcPos.toNat (min (blockBytes s.cfg x.format) x.remaining) = none) : decodeNext s x = none := by
  simp [decodeNext, h]

theorem decodeNext_of_memRead_some {s : State} {x : Channel} {bs : List Byte}
    (h : memRead s x.srcPos.toNat (min (blockBytes s.cfg x.format) x.remaining) = some bs) :
    decodeNext s x = some (x.take (min (blockBytes s.cfg x.format) x.remaining) (decodeBlock s.cfg x.format bs)) := by
  simp [decodeNext, h]

/-- Under legal parameters the count of a decoded block is not cut (R31, R117). -/
theorem take_count {c : Config} (hc : c.Legal) (x : Channel) (n : Nat) {bs : List Byte}
    (h : bs.length ≤ blockBytes c x.format) :
    (x.take n (decodeBlock c x.format bs)).decodedCount.toNat = (decodeBlock c x.format bs).length := by
  have hle := decodeBlock_length_le c x.format bs h
  have hcap := decodeCap_le hc
  exact Nat.mod_eq_of_lt (by omega)

/-- Settles O43: the read decides, and the count and cursor of the block taken fit their fields. -/
theorem decodeNextResult : Obligations.DecodeNextResult := by
  intro s x hc
  rw [← blockBytes_eq]
  refine ⟨decodeNext_of_memRead_none, fun bs hbs => ?_⟩
  rw [← decodeBlock_eq]
  have hnext := decodeNext_of_memRead_some hbs
  have hlen := memRead_length hbs
  exact ⟨_, hnext, take_srcPos x (Nat.min_le_right _ _) _, rfl, take_count hc x _ (by omega), rfl,
    fun hrem => decodeNext_at_end hnext hrem⟩

end Sys2Proof.Machine
end

section
/-! Proofs about the mixer (42_mixer.md §1 to §4): the block crossing, a frame of a channel, the order of the channels,
the channel that never moves, and independence of the buffer's content. -/

namespace Sys2Proof.Machine

/-! ## The block crossing (R187) -/

theorem crossFrame_inside {s : State} {x : Channel} (h : x.offset.toNat < x.blockEnd) :
    crossFrame s x = ⟨.ok, false, x⟩ := by
  simp only [crossFrame, crossBound, crossBlocks, if_neg (Nat.not_le_of_lt h)]

theorem crossFrame_bus {s : State} {x : Channel} (h : x.blockEnd ≤ x.offset.toNat)
    (hn : decodeNext s x.wrapBlock = none) : crossFrame s x = ⟨.bus, false, x.wrapBlock⟩ := by
  simp only [crossFrame, crossBound, crossBlocks, if_pos h, hn]

theorem crossFrame_stops {s : State} {x y : Channel} (h : x.blockEnd ≤ x.offset.toNat)
    (hy : decodeNext s x.wrapBlock = some y) (h0 : y.decodedCount = 0) : crossFrame s x = ⟨.ok, true, y⟩ := by
  simp only [crossFrame, crossBound, crossBlocks, if_pos h, hy, if_pos h0]

/-- With a block that is not empty the test is made again, on a bound that is still enough. -/
theorem crossFrame_again {s : State} {x y : Channel} (h : x.blockEnd ≤ x.offset.toNat)
    (hy : decodeNext s x.wrapBlock = some y) (h0 : y.decodedCount ≠ 0) : crossFrame s x = crossFrame s y := by
  have hless := (decodeNext_progress hy h0).trans_eq (wrapBlock_remaining x)
  rw [crossFrame, crossBound]
  simp only [crossBlocks, if_pos h, hy, if_neg h0]
  exact crossBlocks_bound s _ _ y hless (Nat.lt_succ_self _)

/-- Settles O49: one turn of the crossing is the `while`'s, and every block decoded leaves less payload, so the bound
never shows. -/
theorem crossingRepeatsWhile : Obligations.CrossingRepeatsWhile :=
  fun _ _ => ⟨crossFrame_inside, fun hend => ⟨crossFrame_bus hend, fun _ hy =>
    ⟨crossFrame_stops hend hy, crossFrame_again hend hy⟩⟩⟩

/-! ## A frame, and the order of the channels -/

theorem sample_eq_some {x : Channel} {raw : Sample} (h : x.sample = some raw) :
    x.decodedBlock[x.offset.toNat / 65536]? = some raw := by
  unfold Channel.sample at h
  dsimp only at h
  split_ifs at h
  exact h

/-- R184, R187: the channel after a frame's sample, before the crossing test. -/
theorem played_eq (x : Channel) (c : Config) (raw : Sample) :
    x.played c raw = { x with
      offset := BitVec.ofNat 64 (x.offset.toNat + x.step.toNat)
      smoothPrev := if c.smoothingEnabled then BitVec.ofInt 8 (smoothed c x raw.toInt) else x.smoothPrev } := by
  rw [Channel.played, remember_eq]
  rfl

theorem active_eq_false_iff (x : Channel) : x.active = false ↔ x.decodedCount = 0 := by
  simp [Channel.active]

/-- Settles O50: a positioned channel has a sample, and a frame and the pass over the channels go on or end as the
crossing says. -/
theorem mixFrameResult : Obligations.MixFrameResult := by
  refine ⟨fun s x l r rest hrange hpos hactive => ?_, fun s x xs buf => ⟨fun h => ?_, fun h hok => ?_, fun h hbus => ?_⟩⟩
  · obtain ⟨raw, hraw⟩ := sample_isSome hrange hpos hactive
    refine ⟨raw, sample_eq_some hraw, ?_⟩
    intro smp y cr
    have hcr : cr = crossFrame s (x.played s.cfg raw) := by rw [played_eq]
    rw [hcr]
    refine ⟨fun hok hgoes => mixChannel_goesOn hraw ⟨hok, hgoes⟩, fun hok hstop => ?_, fun hbus => ?_⟩
    · rw [mixChannel_ends hraw (by simp [hstop]), hok]
    · rw [mixChannel_ends hraw (by simp [hbus]), hbus]
  · exact mixChannels_inactive ((active_eq_false_iff x).mpr h)
  · exact mixChannels_mixed ((active_iff x).mpr h) hok
  · rw [mixChannels_failed ((active_iff x).mpr h) (by simp [hbus]), hbus]

/-! ## Step 0 (R189) -/

/-- A frame of a channel whose step is 0 leaves all but its filter memory, and crosses nothing. -/
theorem played_of_step_zero {x : Channel} (h : x.step = 0) (c : Config) (raw : Sample) :
    x.played c raw = { x with smoothPrev := (x.played c raw).smoothPrev } := by
  rw [played_eq]
  simp [h]

theorem crossFrame_of_step_zero {s : State} {x : Channel} (hpos : x.Positioned) (hactive : x.decodedCount ≠ 0)
    (hstep : x.step = 0) (raw : Sample) :
    crossFrame s (x.played s.cfg raw) = ⟨.ok, false, x.played s.cfg raw⟩ := by
  refine crossFrame_inside ?_
  rw [played_of_step_zero hstep]
  exact hpos hactive

/-- Settles O51, by induction on the frames: with step 0 no frame crosses a block. -/
theorem zeroStepNeverEnds : Obligations.ZeroStepNeverEnds := by
  intro s x buf hrange hpos hactive hstep
  induction x, buf using mixChannel.induct s with
  | case1 x l r rest hnone =>
    obtain ⟨raw, hraw⟩ := sample_isSome hrange hpos hactive
    rw [hnone] at hraw
    cases hraw
  | case2 x l r rest raw hraw cr hgoes ih =>
    have hcr : cr.chan = x.played s.cfg raw :=
      congrArg Crossed.chan (crossFrame_of_step_zero hpos hactive hstep raw)
    have hplayed := played_of_step_zero hstep s.cfg raw
    rw [mixChannel_goesOn hraw hgoes]
    rw [hcr, hplayed] at ih
    obtain ⟨hok, hchan⟩ := ih hrange hpos hactive hstep
    rw [show crossFrame s (x.played s.cfg raw) = cr from rfl, hcr, hplayed]
    exact ⟨hok, hchan⟩
  | case3 x l r rest raw hraw cr hends =>
    have hcr := crossFrame_of_step_zero (s := s) hpos hactive hstep raw
    exact absurd ⟨congrArg Crossed.verdict hcr, congrArg Crossed.stopped hcr⟩ hends
  | case4 x buf hshort =>
    rw [mixChannel_short hshort]
    exact ⟨rfl, rfl⟩

/-! ## Independence of the buffer's content -/

/-- A buffer as long as one that begins with a frame begins with a frame. -/
theorem exists_frame_of_length {l r : Pcm} {rest buf : List Pcm} (h : (l :: r :: rest).length = buf.length) :
    ∃ l' r' rest', buf = l' :: r' :: rest' := by
  match buf, h with
  | l' :: r' :: rest', _ => exact ⟨l', r', rest', rfl⟩

/-- Settles O52, by induction on the frames: each frame's crossing sees the channel alone. -/
theorem channelIgnoresBufferContent : Obligations.ChannelIgnoresBufferContent := by
  intro s x buf buf' hlen
  induction x, buf using mixChannel.induct s generalizing buf' with
  | case4 x buf hshort =>
    have hshort' : ∀ l r rest, buf' = l :: r :: rest → False := by
      rintro l r rest rfl
      match buf with
      | [] => simp at hlen
      | [_] => simp at hlen
      | l' :: r' :: rest' => exact hshort l' r' rest' rfl
    rw [mixChannel_short hshort, mixChannel_short hshort']
    exact ⟨rfl, rfl⟩
  | case1 x l r rest hnone =>
    obtain ⟨l', r', rest', rfl⟩ := exists_frame_of_length hlen
    rw [mixChannel_noSample hnone, mixChannel_noSample hnone]
    exact ⟨rfl, rfl⟩
  | case2 x l r rest raw hraw cr hgoes ih =>
    obtain ⟨l', r', rest', rfl⟩ := exists_frame_of_length hlen
    rw [mixChannel_goesOn hraw hgoes, mixChannel_goesOn hraw hgoes]
    exact ih rest' (by simpa using hlen)
  | case3 x l r rest raw hraw cr hends =>
    obtain ⟨l', r', rest', rfl⟩ := exists_frame_of_length hlen
    rw [mixChannel_ends hraw hends, mixChannel_ends hraw hends]
    exact ⟨rfl, rfl⟩

end Sys2Proof.Machine
end

section
/-! Proofs about the fade (43_fade.md §1) and the filling of a buffer (44_scheduler.md §1). -/

namespace Sys2Proof.Machine

/-! ## The ramp -/

/-- Settles O53: the ramp's numbers, and the frame equation of the buffer's fade. -/
theorem rampStepResult : Obligations.RampStepResult := by
  intro c l _
  obtain ⟨hout, hout'⟩ := rampStep_out (c := c) (l := l)
  obtain ⟨hin, hin'⟩ := rampStep_in (c := c) (l := l)
  obtain ⟨hnone, hsilent⟩ := rampStep_still (c := c) (l := l)
  refine ⟨⟨?_, ?_⟩, ⟨hin, ?_⟩, hnone, hsilent, fun st e0 e1 rest => fadeBuffer_frame c ⟨st, l⟩ e0 e1 rest⟩
  · rw [hout, Nat.zero_max]
  · rw [hout']
    exact if_congr Nat.sub_eq_zero_iff_le rfl rfl
  · rw [hin']
    exact if_congr (by omega) rfl rfl

/-- The fade-out from full after `k` ramp steps (R211). -/
theorem rampStep_iterate_fadingOut (c : Config) (k : Nat) :
    (rampStep c)^[k] ⟨.fadingOut, 65536⟩ =
      ⟨if 65536 - k * c.fadeStep = 0 then .silent else .fadingOut, BitVec.ofNat 17 (65536 - k * c.fadeStep)⟩ := by
  induction k with
  | zero => simp
  | succ k ih =>
    have hsub : 65536 - (k + 1) * c.fadeStep = 65536 - k * c.fadeStep - c.fadeStep := by
      rw [Nat.succ_mul, Nat.sub_sub]
    rw [Function.iterate_succ_apply', ih, hsub]
    generalize hl : 65536 - k * c.fadeStep = level
    have hlevel : (BitVec.ofNat 17 level).toNat = level := Nat.mod_eq_of_lt (by omega)
    by_cases h0 : level = 0
    · simp [h0, rampStep]
    · simp [h0, rampStep, hlevel]

/-- Settles O55: after `k` steps the level is what `k` steps have left of 65536, and `Silent` is level 0. -/
theorem fadeOutLength : Obligations.FadeOutLength := by
  intro c k hstep
  rw [rampStep_iterate_fadingOut, ← Nat.ceilDiv_eq_add_pred_div, ceilDiv_le_iff_le_mul hstep, Nat.mul_comm c.fadeStep,
    ← Nat.sub_eq_zero_iff_le]
  split_ifs with h <;> simp [h]

/-! ## What the fade makes of an element (R212) -/

theorem fadeElement_ramping {f : Fade} (h : f.state = .fadingOut ∨ f.state = .fadingIn) (x : Pcm) :
    fadeElement f x = BitVec.ofInt 16 (x.toInt * f.level.toNat / 65536) := by
  obtain h | h := h <;> simp only [fadeElement, h, asr_eq_ediv] <;> rfl

/-- A share of at most all of a number, rounded down, lies between 0 and the number. -/
theorem mul_ediv_65536_bounds (v : Int) {level : Nat} (h : level ≤ 65536) :
    min 0 v ≤ v * level / 65536 ∧ v * level / 65536 ≤ max 0 v := by
  obtain hv | hv := le_total 0 v
  · have hlo : 0 ≤ v * level := mul_nonneg hv (by omega)
    have hhi : v * level ≤ v * 65536 := mul_le_mul_of_nonneg_left (by omega) hv
    omega
  · have hlo : v * 65536 ≤ v * level := mul_le_mul_of_nonpos_left (by omega) hv
    have hhi : v * level ≤ 0 := mul_nonpos_of_nonpos_of_nonneg hv (by omega)
    omega

theorem fadeElement_ramping_toInt {f : Fade} (h : f.state = .fadingOut ∨ f.state = .fadingIn)
    (hlevel : f.level.toNat ≤ 65536) (x : Pcm) : (fadeElement f x).toInt = x.toInt * f.level.toNat / 65536 := by
  obtain ⟨hlo, hhi⟩ := mul_ediv_65536_bounds x.toInt hlevel
  have hx := x.le_toInt
  have hx' := x.toInt_lt
  rw [fadeElement_ramping h]
  exact toInt_ofInt_int16 (by omega) (by omega)

theorem fadeElement_silent {f : Fade} (h : f.state = .silent) (x : Pcm) : fadeElement f x = 0 := by
  simp [fadeElement, h]

theorem fadeElement_none {f : Fade} (h : f.state = .none) (x : Pcm) : fadeElement f x = x := by
  simp [fadeElement, h]

/-- What the fade makes of an element lies between 0 and the element. -/
theorem fadeElement_bounds {f : Fade} (hlevel : f.level.toNat ≤ 65536) (x : Pcm) :
    min 0 x.toInt ≤ (fadeElement f x).toInt ∧ (fadeElement f x).toInt ≤ max 0 x.toInt := by
  cases hst : f.state with
  | none => rw [fadeElement_none hst]; omega
  | silent => rw [fadeElement_silent hst, show (0 : Pcm).toInt = 0 from rfl]; omega
  | fadingOut => rw [fadeElement_ramping_toInt (.inl hst) hlevel]; exact mul_ediv_65536_bounds _ hlevel
  | fadingIn => rw [fadeElement_ramping_toInt (.inr hst) hlevel]; exact mul_ediv_65536_bounds _ hlevel

/-- Settles O54: the product's floor is a share of the element, so it is an int16 and storing it changes nothing. -/
theorem fadedElementBetween : Obligations.FadedElementBetween := by
  intro f x hlevel
  obtain ⟨hlo, hhi⟩ := fadeElement_bounds hlevel x
  exact ⟨fun h => fadeElement_silent h x, fun h => fadeElement_none h x,
    fun h => fadeElement_ramping_toInt h hlevel x, hlo, hhi⟩

/-! ## Whole buffers under a still fade -/

theorem fadeBuffer_none (c : Config) (l : BitVec 17) (buf : List Pcm) :
    fadeBuffer c ⟨.none, l⟩ buf = ⟨⟨.none, l⟩, buf⟩ := by
  match buf with
  | [] => rw [fadeBuffer_short (by simp)]
  | [_] => rw [fadeBuffer_short (by simp)]
  | e0 :: e1 :: rest =>
    rw [fadeBuffer_frame, rampStep_still.1, fadeBuffer_none c l rest, fadeElement_none rfl, fadeElement_none rfl]

theorem fadeBuffer_silent (c : Config) (l : BitVec 17) (m : Nat) (buf : List Pcm) (h : buf.length = 2 * m) :
    fadeBuffer c ⟨.silent, l⟩ buf = ⟨⟨.silent, l⟩, List.replicate (2 * m) 0⟩ := by
  induction m generalizing buf with
  | zero =>
    obtain rfl := List.length_eq_zero_iff.mp h
    exact fadeBuffer_short (by simp)
  | succ m ih =>
    obtain ⟨e0, e1, rest, rfl⟩ : ∃ e0 e1 rest, buf = e0 :: e1 :: rest := by
      match buf, h with
      | e0 :: e1 :: rest, _ => exact ⟨e0, e1, rest, rfl⟩
    have hrest : rest.length = 2 * m := by simpa [Nat.mul_succ] using h
    rw [fadeBuffer_frame, rampStep_still.2, ih rest hrest, fadeElement_silent rfl, fadeElement_silent rfl]
    rfl

/-- Settles O56: in the two states at rest the ramp stays, so every frame is treated alike. -/
theorem silentAndPassThroughBuffers : Obligations.SilentAndPassThroughBuffers :=
  fun c l buf => ⟨fun m h => fadeBuffer_silent c l m buf h, fadeBuffer_none c l buf⟩

/-! ## Filling a buffer (R232) -/

theorem afterBase_music {s : State} (h : s.musicEnabled = true) : afterBase s = { s with draws := s.draws.afterMusic } := by
  simp [afterBase, h]

theorem afterBase_silence {s : State} (h : s.musicEnabled = false) : afterBase s = s := by
  simp [afterBase, h]

theorem baseContent_music {s : State} (h : s.musicEnabled = true) :
    baseContent s = (List.range (2 * s.cfg.bufferFrames)).map (musicElement s.draws) := by
  simp [baseContent, h]

theorem baseContent_silence {s : State} (h : s.musicEnabled = false) :
    baseContent s = List.replicate (2 * s.cfg.bufferFrames) 0 := by
  simp [baseContent, h]

/-- Asking the music port does not change what the channels mix to. -/
theorem mixChannels_afterBase (s : State) (xs : List Channel) (buf : List Pcm) :
    mixChannels (afterBase s) xs buf = mixChannels s xs buf :=
  mixChannels_congr (by simp) (by simp) (by simp) xs buf

theorem fillBuffer_of_ok {s : State} (b : Buffer) (h : (mixChannels s s.ch (baseContent s)).verdict = .ok) :
    fillBuffer s b = .done (filledState s b) := by
  obtain ⟨-, e⟩ | ⟨hv, -⟩ | ⟨hv, -⟩ := fillBuffer_cases s b
  · exact e
  · rw [mixChannels_afterBase, afterBase_ch, h] at hv; cases hv
  · rw [mixChannels_afterBase, afterBase_ch, h] at hv; cases hv

/-- With no channel active and no fade, a filled buffer is its base content. -/
theorem fillBuffer_of_quiet {s : State} (b : Buffer) (hch : ∀ x ∈ s.ch, x.decodedCount = 0) (hfade : s.fadeState = .none) :
    fillBuffer s b = .done { afterBase s with core := some ⟨b.id, baseContent s⟩ } := by
  have hquiet := mixChannels_silent s s.ch (baseContent s) hch
  rw [fillBuffer_of_ok b (by rw [hquiet]), filledState]
  simp only [mixChannels_afterBase, afterBase_ch, hquiet, afterBase_fadeState, hfade, fadeBuffer_none,
    afterBase_fadeLevel]

/-- Settles O57: with nothing to mix and no fade only the base content is left, the port asked once or not at all. -/
theorem baseContentReachesBuffer : Obligations.BaseContentReachesBuffer := by
  intro s b hch hfade
  refine ⟨fun hmusic => ?_, fun hmusic => ?_⟩
  · rw [fillBuffer_of_quiet b hch hfade, afterBase_music hmusic, baseContent_music hmusic]
  · rw [fillBuffer_of_quiet b hch hfade, afterBase_silence hmusic, baseContent_silence hmusic]

theorem fillBuffer_done {s t : State} {b : Buffer} (h : fillBuffer s b = .done t) :
    (mixChannels s s.ch (baseContent s)).verdict = .ok ∧ t = filledState s b := by
  obtain ⟨hv, e⟩ | ⟨-, e⟩ | ⟨-, e⟩ := fillBuffer_cases s b <;> rw [e] at h <;> cases h
  rw [mixChannels_afterBase, afterBase_ch] at hv
  exact ⟨hv, rfl⟩

/-- The channels a filled buffer leaves are those of the mix (R232). -/
theorem filledState_ch (s : State) (b : Buffer) : (filledState s b).ch = (mixChannels s s.ch (baseContent s)).chans := by
  simp only [filledState, mixChannels_afterBase, afterBase_ch]

theorem filledState_draws (s : State) (b : Buffer) : (filledState s b).draws = (afterBase s).draws := rfl

/-- The fade of a filled buffer is that of the mix (R232). -/
def fadedMix (s : State) : Faded :=
  fadeBuffer s.cfg ⟨s.fadeState, s.fadeLevel⟩ (mixChannels s s.ch (baseContent s)).buf

theorem filledState_fade (s : State) (b : Buffer) :
    (filledState s b).core = some ⟨b.id, (fadedMix s).buf⟩ ∧ (filledState s b).fadeState = (fadedMix s).fade.state ∧
    (filledState s b).fadeLevel = (fadedMix s).fade.level := by
  simp only [filledState, mixChannels_afterBase, afterBase_ch, afterBase_cfg, afterBase_fadeState,
    afterBase_fadeLevel]
  exact ⟨rfl, rfl, rfl⟩

/-- Settles O58: the fill is the mix and then its fade, and neither the mix nor the draws look at the fade. -/
theorem fillBufferOrder : Obligations.FillBufferOrder := by
  intro s t b h
  obtain ⟨hok, rfl⟩ := fillBuffer_done h
  refine ⟨hok, filledState_ch s b, filledState_fade s b, fun f l => ?_⟩
  have hmix : mixChannels { s with fadeState := f, fadeLevel := l } s.ch (baseContent s) =
      mixChannels s s.ch (baseContent s) :=
    mixChannels_congr (s := s) (t := { s with fadeState := f, fadeLevel := l }) rfl rfl rfl _ _
  refine ⟨_, fillBuffer_of_ok b ?_, ?_, ?_⟩
  · exact (congrArg MixedAll.verdict hmix).trans hok
  · rw [filledState_ch, filledState_ch]
    exact congrArg MixedAll.chans hmix
  · rw [filledState_draws, filledState_draws, afterBase, afterBase]
    split_ifs <;> rfl

end Sys2Proof.Machine
end

section
/-! Proofs about the assembler (30_encoding.md §5): the check of a line's pairs, the row of a mnemonic, and what a line
assembles to (R90, R91). -/

namespace Sys2Proof

/-! ## The pairs of a line -/

/-- Every pair of a line names a field of the list and fits it (R90). -/
def PairsFit (ws ps : List (String × Nat)) : Prop := ∀ p ∈ ps, ∃ q ∈ ws, q.1 = p.1 ∧ p.2 < 2 ^ q.2

/-- Among fields with distinct names a search by name finds the one of that name. -/
theorem find?_name_eq_some_iff {ws : List (String × Nat)} (hws : (ws.map Prod.fst).Nodup) {name : String}
    {q : String × Nat} : ws.find? (fun q => q.1 == name) = some q ↔ q ∈ ws ∧ q.1 = name := by
  constructor
  · intro h
    exact ⟨List.mem_of_find?_eq_some h, by simpa using List.find?_some h⟩
  · rintro ⟨hq, rfl⟩
    induction ws with
    | nil => simp at hq
    | cons w ws ih =>
      obtain ⟨hw, hrest⟩ := List.nodup_cons.mp hws
      obtain rfl | hq := List.mem_cons.mp hq
      · simp
      · have hne : w.1 ≠ q.1 := fun e => hw (e ▸ List.mem_map_of_mem hq)
        simpa [hne] using ih hrest hq

/-- The check accepts exactly the lines whose pairs fit and name no field twice (R90; log 16). -/
theorem checkPairs_eq_ok_iff {ws : List (String × Nat)} (hws : (ws.map Prod.fst).Nodup) (ps : List (String × Nat)) :
    checkPairs ws ps = .ok () ↔ PairsFit ws ps ∧ (ps.map Prod.fst).Nodup := by
  induction ps with
  | nil => simp [checkPairs, PairsFit]
  | cons p ps ih =>
    have hfit : PairsFit ws (p :: ps) ↔ (∃ q ∈ ws, q.1 = p.1 ∧ p.2 < 2 ^ q.2) ∧ PairsFit ws ps :=
      List.forall_mem_cons
    rw [hfit, List.map_cons, List.nodup_cons, checkPairs]
    cases hq : ws.find? (fun q => q.1 == p.1) with
    | none =>
      have hno : ∀ q ∈ ws, q.1 ≠ p.1 := by simpa using hq
      simp only [reduceCtorEq, false_iff]
      rintro ⟨⟨⟨q, hmem, hname, -⟩, -⟩, -⟩
      exact hno q hmem hname
    | some q =>
      have hwidth : (∃ q' ∈ ws, q'.1 = p.1 ∧ p.2 < 2 ^ q'.2) ↔ p.2 < 2 ^ q.2 := by
        constructor
        · rintro ⟨q', hmem, hname, hlt⟩
          have hsame := hq.symm.trans ((find?_name_eq_some_iff hws).mpr ⟨hmem, hname⟩)
          cases hsame
          exact hlt
        · intro hlt
          obtain ⟨hmem, hname⟩ := (find?_name_eq_some_iff hws).mp hq
          exact ⟨q, hmem, hname, hlt⟩
      have hany : ps.any (fun r => r.1 == p.1) = true ↔ p.1 ∈ ps.map Prod.fst := by simp
      simp only [hwidth, hany]
      split_ifs with hwide hrep
      · simp [Nat.not_lt.mpr hwide]
      · simp [hrep]
      · rw [ih]
        simp only [Nat.lt_of_not_le hwide, hrep, not_false_eq_true, true_and]

theorem pairValue_of_mem {ps : List (String × Nat)} (hps : (ps.map Prod.fst).Nodup) {p : String × Nat} (hp : p ∈ ps) :
    pairValue ps p.1 = p.2 := by
  simp only [pairValue, (find?_name_eq_some_iff hps).mpr ⟨hp, rfl⟩]

theorem pairValue_of_omitted {ps : List (String × Nat)} {name : String} (h : name ∉ ps.map Prod.fst) :
    pairValue ps name = 0 := by
  have hnone : ps.find? (fun p => p.1 == name) = none := by
    rw [List.find?_eq_none]
    intro p hp hname
    exact h (List.mem_map.mpr ⟨p, hp, by simpa using hname⟩)
  simp only [pairValue, hnone]

/-- A field's value stays below any bound that every pair of that name meets. -/
theorem pairValue_lt {ps : List (String × Nat)} {name : String} {bound : Nat} (hpos : 0 < bound)
    (h : ∀ p ∈ ps, p.1 = name → p.2 < bound) : pairValue ps name < bound := by
  unfold pairValue
  split
  · rename_i p hp
    exact h p (List.mem_of_find?_eq_some hp) (by simpa using List.find?_some hp)
  · exact hpos

/-! ## A line of a mnemonic -/

theorem fieldWidths_nodup (o : Op) : ((fieldWidths o).map Prod.fst).Nodup := by
  cases o <;> decide

/-- The mnemonics of R91. -/
def pseudoNames : List String := ["FADE_OUT", "FADE_IN", "MUSIC_ON", "MUSIC_OFF"]

theorem expandPseudo_of_not_pseudo {l : AsmLine} (h : l.mnemonic ∉ pseudoNames) : expandPseudo l = .ok l := by
  simp only [pseudoNames, List.mem_cons, List.not_mem_nil, or_false, not_or] at h
  obtain ⟨h1, h2, h3, h4⟩ := h
  simp only [expandPseudo, h1, h2, h3, h4, if_false]

theorem assemble_accepts {l : AsmLine} {o : Op} (hpseudo : l.mnemonic ∉ pseudoNames)
    (hop : opOfName l.mnemonic = some o) (hcheck : checkPairs (fieldWidths o) l.pairs = .ok ()) :
    assemble l = .ok (encode (instrOfPairs o l.pairs)) := by
  simp only [assemble, expandPseudo_of_not_pseudo hpseudo, hop, hcheck]

theorem assemble_refuses {l : AsmLine} {o : Op} (hpseudo : l.mnemonic ∉ pseudoNames)
    (hop : opOfName l.mnemonic = some o) (hcheck : checkPairs (fieldWidths o) l.pairs ≠ .ok ()) :
    ∃ e, assemble l = .error e := by
  simp only [assemble, expandPseudo_of_not_pseudo hpseudo, hop]
  cases hc : checkPairs (fieldWidths o) l.pairs with
  | error e => exact ⟨e, rfl⟩
  | ok u => exact absurd hc hcheck

/-- Whatever the assembler yields is a command's word. -/
theorem encode_of_assemble {l : AsmLine} {w : CmdWord} (h : assemble l = .ok w) : ∃ i, encode i = w := by
  unfold assemble at h
  split at h
  · cases h
  · split at h
    · cases h
    · split at h
      · cases h
      · cases h
        exact ⟨_, rfl⟩

/-! ## The rows of R90's mnemonics -/

/-- A mnemonic, its fields and how its command is made of them, as the statement lists them. -/
abbrev MnemonicRow := String × List (String × Nat) × ((String → Nat) → Instr)

/-- A listed row says what the assembler does for row `o` of the opcode map. -/
def MnemonicRow.IsOp (r : MnemonicRow) (o : Op) : Prop :=
  r.1 ∉ pseudoNames ∧ opOfName r.1 = some o ∧ r.2.1 = fieldWidths o ∧
  ∀ ps, PairsFit (fieldWidths o) ps → instrOfPairs o ps = r.2.2 (pairValue ps)

/-- A value that fits bit 0 is that bit (R84). -/
theorem argOf_ofNat {v : Nat} (h : v < 2) : (BitVec.ofNat 8 v).getLsbD 0 = decide (v = 1) := by
  interval_cases v <;> decide

theorem arg_lt_of_fits {ps : List (String × Nat)} (h : PairsFit [("arg", 1)] ps) : pairValue ps "arg" < 2 := by
  refine pairValue_lt (by decide) fun p hp _ => ?_
  obtain ⟨q, hq, -, hlt⟩ := h p hp
  obtain rfl := List.mem_singleton.mp hq
  exact hlt

theorem instrOfPairs_setMusic {ps : List (String × Nat)} (h : PairsFit [("arg", 1)] ps) :
    instrOfPairs .setMusic ps = .setMusic (decide (pairValue ps "arg" = 1)) :=
  congrArg Instr.setMusic (argOf_ofNat (arg_lt_of_fits h))

theorem instrOfPairs_fadeTo {ps : List (String × Nat)} (h : PairsFit [("arg", 1)] ps) :
    instrOfPairs .fadeTo ps = .fadeTo (decide (pairValue ps "arg" = 1)) :=
  congrArg Instr.fadeTo (argOf_ofNat (arg_lt_of_fits h))

/-- R90: what a line of a listed row assembles to, and what is refused. -/
theorem assemble_row {r : MnemonicRow} {o : Op} (h : r.IsOp o) (ps : List (String × Nat)) :
    (PairsFit r.2.1 ps → (ps.map Prod.fst).Nodup →
      ∃ v : String → Nat, (∀ p ∈ ps, v p.1 = p.2) ∧ (∀ name, name ∉ ps.map Prod.fst → v name = 0) ∧
        assemble ⟨r.1, ps⟩ = .ok (encode (r.2.2 v))) ∧
    ((∃ p ∈ ps, p.1 ∉ r.2.1.map Prod.fst) → ∃ e, assemble ⟨r.1, ps⟩ = .error e) ∧
    ((∃ p ∈ ps, ∃ q ∈ r.2.1, q.1 = p.1 ∧ 2 ^ q.2 ≤ p.2) → ∃ e, assemble ⟨r.1, ps⟩ = .error e) := by
  obtain ⟨hpseudo, hop, hws, hinstr⟩ := h
  rw [hws]
  have hcheck := checkPairs_eq_ok_iff (fieldWidths_nodup o) ps
  refine ⟨fun hfit hnodup => ?_, ?_, ?_⟩
  · refine ⟨pairValue ps, fun p hp => pairValue_of_mem hnodup hp, fun name => pairValue_of_omitted, ?_⟩
    rw [assemble_accepts hpseudo hop (hcheck.mpr ⟨hfit, hnodup⟩), hinstr ps hfit]
  · rintro ⟨p, hp, hunused⟩
    refine assemble_refuses hpseudo hop fun hok => ?_
    obtain ⟨q, hq, hname, -⟩ := (hcheck.mp hok).1 p hp
    exact hunused (List.mem_map.mpr ⟨q, hq, hname⟩)
  · rintro ⟨p, hp, q, hq, hname, hwide⟩
    refine assemble_refuses hpseudo hop fun hok => ?_
    obtain ⟨q', hq', hname', hlt⟩ := (hcheck.mp hok).1 p hp
    have hsame : q' = q := List.inj_on_of_nodup_map (fieldWidths_nodup o) hq' hq (hname'.trans hname.symm)
    exact absurd hlt (Nat.not_lt.mpr (hsame ▸ hwide))

/-- A mnemonic of no row and no pseudo-instruction is refused. -/
theorem assemble_unknown {l : AsmLine} (hpseudo : l.mnemonic ∉ pseudoNames) (hop : opOfName l.mnemonic = none) :
    assemble l = .error .unknownMnemonic := by
  simp only [assemble, expandPseudo_of_not_pseudo hpseudo, hop]

/-- R91: a pseudo-instruction takes no field. -/
theorem assemble_pseudo_with_field {m : String} (hm : m ∈ pseudoNames) {ps : List (String × Nat)} (hps : ps ≠ []) :
    ∃ e, assemble ⟨m, ps⟩ = .error e := by
  have hexpand : expandPseudo ⟨m, ps⟩ = .error .unusedField := by
    simp only [pseudoNames, List.mem_cons, List.not_mem_nil, or_false] at hm
    obtain rfl | rfl | rfl | rfl := hm <;> simp [expandPseudo, hps]
  exact ⟨.unusedField, by simp only [assemble, hexpand]⟩

/-- Settles O8: each listed row is a row of the opcode map, whose lines the check of the pairs decides; the assembler
yields nothing but commands' words. -/
theorem assembledWordDecodes : Obligations.AssembledWordDecodes := by
  unfold Obligations.AssembledWordDecodes
  intro rows
  refine ⟨fun r hr ps => ?_, fun l hno hpseudo => ?_, fun l w h => ?_, fun r hr => ?_⟩
  · have hrow : ∃ o, MnemonicRow.IsOp r o := by
      simp only [rows, List.mem_cons, List.not_mem_nil, or_false] at hr
      obtain rfl | rfl | rfl | rfl | rfl | rfl | rfl | rfl | rfl | rfl | rfl | rfl := hr
      · exact ⟨.init, by decide, by decide, rfl, fun _ _ => rfl⟩
      · exact ⟨.shutdown, by decide, by decide, rfl, fun _ _ => rfl⟩
      · exact ⟨.lookup, by decide, by decide, rfl, fun _ _ => rfl⟩
      · exact ⟨.startSound, by decide, by decide, rfl, fun _ _ => rfl⟩
      · exact ⟨.updateParams, by decide, by decide, rfl, fun _ _ => rfl⟩
      · exact ⟨.stopSound, by decide, by decide, rfl, fun _ _ => rfl⟩
      · exact ⟨.isPlaying, by decide, by decide, rfl, fun _ _ => rfl⟩
      · exact ⟨.updateSound, by decide, by decide, rfl, fun _ _ => rfl⟩
      · exact ⟨.precache, by decide, by decide, rfl, fun _ _ => rfl⟩
      · exact ⟨.setMusic, by decide, by decide, rfl, fun _ h => instrOfPairs_setMusic h⟩
      · exact ⟨.fadeTo, by decide, by decide, rfl, fun _ h => instrOfPairs_fadeTo h⟩
      · exact ⟨.isFading, by decide, by decide, rfl, fun _ _ => rfl⟩
    obtain ⟨o, ho⟩ := hrow
    exact assemble_row ho ps
  · refine assemble_unknown hpseudo ?_
    simp only [rows, List.map_cons, List.map_nil, List.mem_cons, List.not_mem_nil, or_false, not_or] at hno
    simp [opOfName, hno]
  · obtain ⟨i, rfl⟩ := encode_of_assemble h
    exact ⟨i, decode_encode i, rfl⟩
  · refine ⟨?_, fun ps hps => assemble_pseudo_with_field ?_ hps⟩
    · revert r
      decide
    · revert r
      decide

end Sys2Proof
end

section
/-! Proofs about the step and the commands without a loop: what a step serves (00_scope.md §4), a faulted block
(60_exceptions.md §2), reset (70_reset_and_hazards.md §1), and the results of `INIT`, `SET_MUSIC`, `LOOKUP` and
`UPDATE_PARAMS`. -/

namespace Sys2Proof.Machine

/-! ## What a step serves -/

theorem step_idle {s : State} (h : s.inputs = []) : step s = .next s := by
  simp only [step, serveNext, h]

/-- A step with an event pending serves it, taken off the queue. -/
theorem step_serves {s : State} {e : Event} {rest : List Event} (h : s.inputs = e :: rest) :
    step s = serve e { s with inputs := rest } := by
  simp only [step, serveNext, h]

theorem serveWord_of_decode_ok {w : CmdWord} {i : Instr} (h : decode w = .ok i) (s : State) :
    serveWord w s = exec i s := by
  simp only [serveWord, h]

theorem serve_command (w : CmdWord) (s : State) : serve (.command w) s = answered (serveWord w s) := rfl

theorem answered_next (t : State) : answered (.next t) = .next { t with responses := t.responses ++ [t.resp] } := rfl

theorem answered_fault (f : Fault) : answered (.fault f) = .fault f := rfl

theorem serve_sinkPlay (s : State) : serve .sinkPlay s = .next (playOnce s) := rfl

theorem serve_reset (s : State) : serve .reset s = .next (applyReset s) := rfl

/-- A step whose event is a command word runs the word's command. -/
theorem step_command {s : State} {w : CmdWord} {rest : List Event} {i : Instr} (h : s.inputs = .command w :: rest)
    (hi : decode w = .ok i) : step s = answered (exec i { s with inputs := rest }) := by
  rw [step_serves h, serve_command, serveWord_of_decode_ok hi]

/-- Settles O9: a step with a command word pending is the command, then the host's read of the response. -/
theorem stepRunsDecodedCommand : Obligations.StepRunsDecodedCommand := by
  intro s w rest i hin hi
  have hstep := step_command hin hi
  exact ⟨hstep, fun t ht => by rw [hstep, ht, answered_next], fun f hf => by rw [hstep, hf, answered_fault]⟩

theorem withFetchWord_toNat (s : State) (w : CmdWord) : s.withFetchWord 64 w.toNat = issue s w := by
  rw [State.withFetchWord, Nat.mod_eq_of_lt w.isLt, BitVec.ofNat_toNat, BitVec.setWidth_eq]

/-- Settles O10: the word placed is the encoded one, which decodes to the command. -/
theorem fetchedWordRunsNext : Obligations.FetchedWordRunsNext := by
  intro s t i h
  rw [withFetchWord_toNat, step_command (issue_inputs s _) (decode_encode i), ← answered_next, ← h]
  rfl

theorem playOnce_of_none_filled {s : State} (h : s.filled = []) : playOnce s = s := by
  simp only [playOnce, h]

theorem playOnce_of_filled {s : State} {f : Filled} {fs : List Filled} (h : s.filled = f :: fs) :
    playOnce s = { s with
      filled := fs, empty := s.empty ++ [f.buffer], played := s.played ++ [f.buffer.samples.take f.count] } := by
  simp only [playOnce, h]

/-- Settles O11, one event of the outside after the other. -/
theorem stepServesOutsideMoves : Obligations.StepServesOutsideMoves := by
  refine ⟨fun s => step_idle, fun s w rest r hin hfault hr => ?_, fun s rest hin hfilled => ?_,
    fun s rest f fs hin hfilled => ?_⟩
  · rw [step_serves hin, serve_command, serveWord_of_decode_error hr,
      illegalWord_of_not_faulted (s := { s with inputs := rest }) hfault, answered_next]
  · rw [step_serves hin, serve_sinkPlay, playOnce_of_none_filled (s := { s with inputs := rest }) hfilled]
  · rw [step_serves hin, serve_sinkPlay, playOnce_of_filled (s := { s with inputs := rest }) hfilled]

/-- Settles O12: reset completes, and its state is the reset state around what is the outside's. -/
theorem resetLeavesResetState : Obligations.ResetLeavesResetState := by
  intro s rest hin
  refine ⟨applyReset { s with inputs := rest }, by rw [step_serves hin, serve_reset], ?_⟩
  simp [State.resetWith, Channel.reset, Buffer.reset, Function.comp_def]

/-! ## A faulted block (R262) -/

theorem preamble_of_faulted {s : State} (h : s.faulted = true) (body : State → Result) :
    preamble s body = .next (respond s respFaulted) := by
  simp only [preamble, h, if_true]

/-- Every command begins with the preamble, so a faulted block answers each alike. -/
theorem exec_of_faulted {s : State} (h : s.faulted = true) (i : Instr) : exec i s = .next (respond s respFaulted) := by
  cases i <;>
    simp only [exec, execInit, execShutdown, execLookup, execStartSound, execUpdateParams, execStopSound,
      execIsPlaying, execUpdateSound, execPrecache, execSetMusic, execFadeTo, execIsFading, preamble_of_faulted h]

theorem serveWord_of_faulted {s : State} (h : s.faulted = true) (w : CmdWord) :
    serveWord w s = .next (respond s respFaulted) := by
  cases hw : decode w with
  | ok i => rw [serveWord_of_decode_ok hw, exec_of_faulted h]
  | error r => rw [serveWord_of_decode_error hw, illegalWord, preamble_of_faulted h]

/-- Settles O13: every command and an illegal word begin with the preamble, which answers for a faulted block. -/
theorem faultedBlockAnswersFaulted : Obligations.FaultedBlockAnswersFaulted :=
  ⟨fun i _ h => exec_of_faulted h i, fun w _ h => serveWord_of_faulted h w, fun _ _ => rfl⟩

/-! ## The commands on a block without fault -/

theorem exec_init_of_initialized {s : State} (h : s.faulted = false) (hi : s.initialized = true) :
    exec .init s = .next (respond s respOk) := by
  simp only [exec, execInit, preamble_of_not_faulted h, hi, if_true]

theorem exec_init_of_setup_fails {s : State} (h : s.faulted = false) (hi : s.initialized = false)
    (hs : setupAnswer s.draws = false) : exec .init s = .next (respond { s with draws := s.draws.afterSetup } respFail) := by
  simp only [exec, execInit, preamble_of_not_faulted h, hi, hs, Bool.false_eq_true, if_false]

theorem exec_init_of_setup {s : State} (h : s.faulted = false) (hi : s.initialized = false)
    (hs : setupAnswer s.draws = true) :
    exec .init s =
      .next (respond { stopAll { s with draws := s.draws.afterSetup } with initialized := true } respOk) := by
  simp only [exec, execInit, preamble_of_not_faulted h, hi, hs, Bool.false_eq_true, if_false, if_true]

/-- Settles O17: the three paths of R238. -/
theorem initResult : Obligations.InitResult :=
  fun _ h => ⟨exec_init_of_initialized h, exec_init_of_setup_fails h, exec_init_of_setup h⟩

theorem exec_setMusic_of_not_faulted {s : State} (h : s.faulted = false) (arg : Bool) :
    exec (.setMusic arg) s = .next (respond { s with musicEnabled := arg } respOk) := by
  simp only [exec, execSetMusic, preamble_of_not_faulted h]

/-- Settles O19: past the preamble `SET_MUSIC` is one write and the answer. -/
theorem setMusicResult : Obligations.SetMusicResult :=
  fun _ arg h => exec_setMusic_of_not_faulted h arg

theorem afterLookup_of_miss {s : State} {sid : BitVec 16} (h : assetOf s.cfg sid = none) : afterLookup s sid = s := by
  simp only [afterLookup, h]

theorem afterLookup_of_hit {s : State} {sid : BitVec 16} {hit : Hit} (h : assetOf s.cfg sid = some hit) :
    afterLookup s sid = noteSpan s hit := by
  simp only [afterLookup, h]

/-- R51: noting a span writes the spans named and nothing else. -/
theorem noteSpan_eq (s : State) (h : Hit) : noteSpan s h = { s with
    named := if (⟨h.base.toNat, h.len⟩ : Span) ∈ s.named then s.named
      else s.named ++ [⟨h.base.toNat, h.len⟩] } := by
  unfold noteSpan
  dsimp only
  split_ifs <;> rfl

theorem exec_lookup_of_miss {s : State} (h : s.faulted = false) {sid : BitVec 16} (hm : assetOf s.cfg sid = none) :
    exec (.lookup sid) s = .next (respond s respFail) := by
  simp only [exec, execLookup, preamble_of_not_faulted h, afterLookup_of_miss hm, hm]

theorem exec_lookup_of_hit {s : State} (h : s.faulted = false) {sid : BitVec 16} {hit : Hit}
    (hh : assetOf s.cfg sid = some hit) : exec (.lookup sid) s = .next (respond (noteSpan s hit) hit.lumpNo) := by
  simp only [exec, execLookup, preamble_of_not_faulted h, afterLookup_of_hit hh, hh]

/-- Settles O20: the asset port's answer decides, and a hit's span is noted. -/
theorem lookupResult : Obligations.LookupResult := by
  refine fun s sid h => ⟨exec_lookup_of_miss h, fun hit hh => ?_⟩
  rw [exec_lookup_of_hit h hh, noteSpan_eq]
  rfl

theorem exec_updateParams_of_not_faulted {s : State} (h : s.faulted = false) (ch vol sep : BitVec 8) :
    exec (.updateParams ch vol sep) s = .next (respond
      (if gate s ch then setChan s ch.toNat ((chan s ch.toNat).withGains vol sep) else s) respOk) := by
  simp only [exec, execUpdateParams, preamble_of_not_faulted h]

/-- Settles O22: past the gate the named channel gets the gains of R145, and with the gate closed there is only the
answer. -/
theorem updateParamsResult : Obligations.UpdateParamsResult := by
  intro s ch vol sep x hfault
  refine ⟨fun hinit hch hx => ?_, fun hclosed => ?_⟩
  · rw [exec_updateParams_of_not_faulted hfault, if_pos (gate_eq_true_iff.mpr ⟨hinit, hch⟩), chan_of_getElem? hx,
      ← leftGain_eq, ← rightGain_eq]
    rfl
  · rw [exec_updateParams_of_not_faulted hfault, gate_eq_false_iff.mpr hclosed]
    rfl

end Sys2Proof.Machine
end

section
/-! Proofs about `START_SOUND` (41_channel_manager.md §1, §2): each path of R141, everything the command can do past the
gate, and what a failed start and a rejected first block leave (R140, R146). -/

namespace Sys2Proof.Machine

/-! ## The header -/

theorem formatOf_eq_some_iff {c : Config} {tag : Nat} {fmt : Format} :
    formatOf c tag = some fmt ↔ (tag = 0x8003 ∧ fmt = .adpcm) ∨
      (tag ≠ 0x8003 ∧ tag = c.rawFormatTag.toNat ∧ fmt = .raw) := by
  unfold formatOf
  split_ifs with h h'
  · simp [h, eq_comm]
  · subst h'
    simp [h, eq_comm]
  · simp [h, h']

theorem formatOf_eq_none {c : Config} {tag : Nat} (h : tag ≠ 0x8003) (h' : tag ≠ c.rawFormatTag.toNat) :
    formatOf c tag = none := by
  simp only [formatOf, h, h', if_false]

/-- R92, R53: the fields of a lump header, byte by byte. -/
theorem lumpHeader_bytes (b0 b1 b2 b3 b4 b5 b6 b7 : Byte) : lumpHeader [b0, b1, b2, b3, b4, b5, b6, b7] =
    ⟨b0.toNat + 256 * b1.toNat, b2.toNat + 256 * b3.toNat,
      (BitVec.ofNat 32 (b4.toNat + 2 ^ 8 * b5.toNat + 2 ^ 16 * b6.toNat + 2 ^ 24 * b7.toNat)).toInt⟩ := by
  have hsum : b4.toNat + b5.toNat * 256 + (b6.toNat + b7.toNat * 256) * 65536 =
      b4.toNat + 256 * b5.toNat + 65536 * b6.toNat + 16777216 * b7.toNat := by ring
  simp [lumpHeader, le16, le32, slice, byteOf, sext, hsum, Nat.mul_comm]

/-- A payload is shorter than half the address space: the declared length is a signed word (R92). -/
theorem payloadLength_toNat_lt (hdr : List Byte) (len : Nat) :
    (payloadLength (lumpHeader hdr).declared len).toNat < 2 ^ 31 := by
  have hdecl : (lumpHeader hdr).declared < 2 ^ 31 := BitVec.toInt_lt (w := 32)
  unfold payloadLength
  omega

/-- A payload ends within its span (R142). -/
theorem payloadLength_toNat_le {declared : Int} {len : Nat} (h : 8 ≤ len) :
    8 + (payloadLength declared len).toNat ≤ len := by
  unfold payloadLength
  omega

/-! ## The paths of R141 on the answer of the asset port -/

theorem startLump_short {s : State} {ch vol sep pitch : BitVec 8} {h : Hit} (hlen : h.len < 8) :
    startLump s ch vol sep pitch h = respond s respFail := by
  simp only [startLump, if_pos hlen]

theorem startLump_unreadable {s : State} {ch vol sep pitch : BitVec 8} {h : Hit} (hlen : 8 ≤ h.len)
    (hread : memRead s h.base.toNat 8 = none) : startLump s ch vol sep pitch h = raiseFault s .srcBus := by
  simp only [startLump, if_neg (Nat.not_lt.mpr hlen), hread]

theorem startLump_header {s : State} {ch vol sep pitch : BitVec 8} {h : Hit} {hdr : List Byte} (hlen : 8 ≤ h.len)
    (hread : memRead s h.base.toNat 8 = some hdr) :
    startLump s ch vol sep pitch h = checkHeader s ch vol sep pitch h (lumpHeader hdr) := by
  simp only [startLump, if_neg (Nat.not_lt.mpr hlen), hread]

theorem checkHeader_unknownTag {s : State} {ch vol sep pitch : BitVec 8} {h : Hit} {hdr : LumpHeader}
    (htag : formatOf s.cfg hdr.tag = none) : checkHeader s ch vol sep pitch h hdr = respond s respFail := by
  simp only [checkHeader, htag]

theorem checkHeader_noPayload {s : State} {ch vol sep pitch : BitVec 8} {h : Hit} {hdr : LumpHeader} {fmt : Format}
    (htag : formatOf s.cfg hdr.tag = some fmt) (hlen : payloadLength hdr.declared h.len ≤ 0) :
    checkHeader s ch vol sep pitch h hdr = respond s respFail := by
  simp only [checkHeader, htag, if_pos hlen]

theorem checkHeader_pitchZero {s : State} {ch vol sep pitch : BitVec 8} {h : Hit} {hdr : LumpHeader} {fmt : Format}
    (htag : formatOf s.cfg hdr.tag = some fmt) (hlen : 0 < payloadLength hdr.declared h.len) (hpitch : pitch = 0) :
    checkHeader s ch vol sep pitch h hdr = raiseFault s .pitchZero := by
  simp only [checkHeader, htag, if_neg (not_le.mpr hlen), if_pos hpitch]

theorem checkHeader_begins {s : State} {ch vol sep pitch : BitVec 8} {h : Hit} {hdr : LumpHeader} {fmt : Format}
    (htag : formatOf s.cfg hdr.tag = some fmt) (hlen : 0 < payloadLength hdr.declared h.len) (hpitch : pitch ≠ 0) :
    checkHeader s ch vol sep pitch h hdr =
      beginPlayback s ch vol sep pitch fmt h.base.toNat (payloadLength hdr.declared h.len).toNat hdr.rate := by
  simp only [checkHeader, htag, if_neg (not_le.mpr hlen), if_neg hpitch]

/-- The channel that step 11 of R141 sets up on the channel of index `ch`. -/
def startedChannel (s : State) (ch pitch : BitVec 8) (h : Hit) (hdr : LumpHeader) (fmt : Format) : Channel :=
  (chan s ch.toNat).started s.cfg fmt h.base.toNat (payloadLength hdr.declared h.len).toNat hdr.rate pitch.toNat

/-- A lump whose checks all pass is played from its first block on (R141, steps 4 to 11). -/
theorem startLump_begins {s : State} {ch vol sep pitch : BitVec 8} {h : Hit} {hdr : List Byte} {fmt : Format}
    (hlen : 8 ≤ h.len) (hread : memRead s h.base.toNat 8 = some hdr)
    (htag : formatOf s.cfg (lumpHeader hdr).tag = some fmt)
    (hpayload : 0 < payloadLength (lumpHeader hdr).declared h.len) (hpitch : pitch ≠ 0) :
    startLump s ch vol sep pitch h =
      beginPlayback s ch vol sep pitch fmt h.base.toNat (payloadLength (lumpHeader hdr).declared h.len).toNat
        (lumpHeader hdr).rate := by
  rw [startLump_header hlen hread, checkHeader_begins htag hpayload hpitch]

theorem beginPlayback_bus {s : State} {ch vol sep pitch : BitVec 8} {h : Hit} {hdr : LumpHeader} {fmt : Format}
    (hnext : decodeNext s (startedChannel s ch pitch h hdr fmt) = none) :
    beginPlayback s ch vol sep pitch fmt h.base.toNat (payloadLength hdr.declared h.len).toNat hdr.rate =
      raiseFault (setChan s ch.toNat (startedChannel s ch pitch h hdr fmt)) .srcBus := by
  rw [startedChannel] at hnext ⊢
  simp only [beginPlayback, hnext]

theorem beginPlayback_starts {s : State} {ch vol sep pitch : BitVec 8} {h : Hit} {hdr : LumpHeader} {fmt : Format}
    {y : Channel} (hnext : decodeNext s (startedChannel s ch pitch h hdr fmt) = some y) :
    beginPlayback s ch vol sep pitch fmt h.base.toNat (payloadLength hdr.declared h.len).toNat hdr.rate =
      respond (setChan s ch.toNat (y.withGains vol sep)) (respChannel ch) := by
  rw [startedChannel] at hnext
  simp only [beginPlayback, hnext]

/-! ## The command -/

theorem exec_startSound_of_gate_closed {s : State} (h : s.faulted = false) {ch : BitVec 8} (hgate : gate s ch = false)
    (sid : BitVec 16) (vol sep pitch : BitVec 8) :
    exec (.startSound sid ch vol sep pitch) s = .next (respond s respFail) := by
  simp only [exec, execStartSound, preamble_of_not_faulted h, hgate, Bool.false_eq_true, if_false]

theorem exec_startSound_of_gate_open {s : State} (h : s.faulted = false) {ch : BitVec 8} (hgate : gate s ch = true)
    (sid : BitVec 16) (vol sep pitch : BitVec 8) :
    exec (.startSound sid ch vol sep pitch) s = .next (startChannel s sid ch vol sep pitch) := by
  simp only [exec, execStartSound, preamble_of_not_faulted h, hgate, if_true]

theorem startChannel_of_miss {s : State} {sid : BitVec 16} (h : assetOf s.cfg sid = none) (ch vol sep pitch : BitVec 8) :
    startChannel s sid ch vol sep pitch = respond (stopChannel s ch.toNat) respFail := by
  simp only [startChannel, h, afterLookup_of_miss (s := stopChannel s ch.toNat) h]

theorem startChannel_of_hit {s : State} {sid : BitVec 16} {h : Hit} (hh : assetOf s.cfg sid = some h)
    (ch vol sep pitch : BitVec 8) :
    startChannel s sid ch vol sep pitch = startLump (noteSpan (stopChannel s ch.toNat) h) ch vol sep pitch h := by
  simp only [startChannel, hh, afterLookup_of_hit (s := stopChannel s ch.toNat) hh]

/-- Stopping a channel that exists is one write to its count (R150). -/
theorem stopChannel_eq {s : State} {c : Nat} {x : Channel} (h : s.ch[c]? = some x) :
    stopChannel s c = { s with ch := s.ch.set c { x with decodedCount := 0 } } := by
  rw [stopChannel, chan_of_getElem? h]
  rfl

theorem respChannel_eq (ch : BitVec 8) : respChannel ch = BitVec.ofNat 32 ch.toNat := by
  apply BitVec.eq_of_toNat_eq
  simp [respChannel]

/-- A channel written a second time holds the second value. -/
theorem setChan_of_ch_set {s : State} {chs : List Channel} {c : Nat} {x : Channel} (h : s.ch = chs.set c x) (y : Channel) :
    setChan s c y = { s with ch := chs.set c y } := by
  rw [setChan, h, List.set_set]

/-- Settles O21: past the gate the command stops the channel and notes the hit's span, and from there each path is a
path of the lump's checks. -/
theorem startSoundSteps : Obligations.StartSoundSteps := by
  refine ⟨lumpHeader_bytes, fun s sid ch vol sep pitch x hfault hinit hch hx => ?_⟩
  have hopen := exec_startSound_of_gate_open hfault (gate_eq_true_iff.mpr ⟨hinit, hch⟩) sid vol sep pitch
  have hstopped := stopChannel_eq hx
  intro stopped
  refine ⟨fun hmiss => ?_, fun h hh => ?_⟩
  · rw [hopen, startChannel_of_miss hmiss, hstopped]
    rfl
  intro s2
  have hs2 : noteSpan (stopChannel s ch.toNat) h = s2 := by rw [hstopped, noteSpan_eq]
  have hset := setChan_of_ch_set (s := s2) (chs := s.ch) rfl
  have hchan : chan s2 ch.toNat = { x with decodedCount := 0 } :=
    chan_of_getElem? (List.getElem?_set_self (List.getElem?_eq_some_iff.mp hx).1)
  rw [startChannel_of_hit hh, hs2] at hopen
  rw [hopen]
  refine ⟨fun hlen => ?_, fun hlen hread => ?_, fun hdr hlen hread => ⟨fun htag htag' => ?_, fun fmt hfmt => ?_⟩⟩
  · rw [startLump_short hlen]
    rfl
  · rw [startLump_unreadable hlen hread]
    rfl
  · have hnone : formatOf s2.cfg (lumpHeader hdr).tag = none := formatOf_eq_none htag htag'
    rw [startLump_header hlen hread, checkHeader_unknownTag hnone]
    rfl
  have htag : formatOf s2.cfg (lumpHeader hdr).tag = some fmt := formatOf_eq_some_iff.mpr hfmt
  refine ⟨fun hpayload => ?_, fun hpayload => ⟨fun hpitch => ?_, fun hpitch => ?_⟩⟩
  · rw [startLump_header hlen hread, checkHeader_noPayload htag hpayload]
    rfl
  · rw [startLump_header hlen hread, checkHeader_pitchZero htag hpayload hpitch]
    rfl
  intro y
  have hy : startedChannel s2 ch pitch h (lumpHeader hdr) fmt = y := by
    rw [startedChannel, hchan]
    rfl
  rw [startLump_begins hlen hread htag hpayload hpitch]
  refine ⟨fun hnext => ?_, fun z hnext => ?_⟩
  · rw [← hy] at hnext
    rw [beginPlayback_bus hnext, hy, hset]
    rfl
  · rw [← hy] at hnext
    rw [beginPlayback_starts hnext, hset, respChannel_eq]
    rfl

/-! ## Everything the command can do past the gate -/

/-- The state from step 4 of R141 on: the channel stopped, the lookup made. -/
def lookedUp (s : State) (sid : BitVec 16) (ch : BitVec 8) : State := afterLookup (stopChannel s ch.toNat) sid

section
variable (s : State) (sid : BitVec 16) (ch : BitVec 8)

@[simp] theorem lookedUp_cfg : (lookedUp s sid ch).cfg = s.cfg := by simp [lookedUp]
@[simp] theorem lookedUp_initialized : (lookedUp s sid ch).initialized = s.initialized := by simp [lookedUp]
@[simp] theorem lookedUp_musicEnabled : (lookedUp s sid ch).musicEnabled = s.musicEnabled := by simp [lookedUp]
@[simp] theorem lookedUp_fadeState : (lookedUp s sid ch).fadeState = s.fadeState := by simp [lookedUp]
@[simp] theorem lookedUp_fadeLevel : (lookedUp s sid ch).fadeLevel = s.fadeLevel := by simp [lookedUp]
@[simp] theorem lookedUp_faulted : (lookedUp s sid ch).faulted = s.faulted := by simp [lookedUp]
@[simp] theorem lookedUp_faultReason : (lookedUp s sid ch).faultReason = s.faultReason := by simp [lookedUp]
@[simp] theorem lookedUp_ch : (lookedUp s sid ch).ch = s.ch.set ch.toNat (chan s ch.toNat).stopped := by
  simp [lookedUp]
@[simp] theorem lookedUp_mem : (lookedUp s sid ch).mem = s.mem := by simp [lookedUp]
@[simp] theorem lookedUp_empty : (lookedUp s sid ch).empty = s.empty := by simp [lookedUp]
@[simp] theorem lookedUp_core : (lookedUp s sid ch).core = s.core := by simp [lookedUp]
@[simp] theorem lookedUp_filled : (lookedUp s sid ch).filled = s.filled := by simp [lookedUp]
@[simp] theorem lookedUp_inputs : (lookedUp s sid ch).inputs = s.inputs := by simp [lookedUp]
@[simp] theorem lookedUp_draws : (lookedUp s sid ch).draws = s.draws := by simp [lookedUp]
@[simp] theorem lookedUp_played : (lookedUp s sid ch).played = s.played := by simp [lookedUp]
@[simp] theorem lookedUp_responses : (lookedUp s sid ch).responses = s.responses := by simp [lookedUp]

end

/-- Everything `START_SOUND` can leave past the gate (R141): a sentinel, a fault before the channel is set up, a fault at
its first block, or a started channel. -/
inductive StartOutcome (s : State) (sid : BitVec 16) (ch vol sep pitch : BitVec 8) : State → Prop
  | failed : StartOutcome s sid ch vol sep pitch (respond (lookedUp s sid ch) respFail)
  | headerBus (h : Hit) (hit : assetOf s.cfg sid = some h) (hlen : 8 ≤ h.len)
      (hread : memRead (lookedUp s sid ch) h.base.toNat 8 = none) :
      StartOutcome s sid ch vol sep pitch (raiseFault (lookedUp s sid ch) .srcBus)
  | pitchZero (hpitch : pitch = 0) : StartOutcome s sid ch vol sep pitch (raiseFault (lookedUp s sid ch) .pitchZero)
  | blockBus (h : Hit) (hdr : List Byte) (fmt : Format) (hit : assetOf s.cfg sid = some h) (hlen : 8 ≤ h.len)
      (hnext : decodeNext (lookedUp s sid ch)
        (startedChannel (lookedUp s sid ch) ch pitch h (lumpHeader hdr) fmt) = none) :
      StartOutcome s sid ch vol sep pitch (raiseFault (setChan (lookedUp s sid ch) ch.toNat
        (startedChannel (lookedUp s sid ch) ch pitch h (lumpHeader hdr) fmt)) .srcBus)
  | started (h : Hit) (hdr : List Byte) (fmt : Format) (y : Channel) (hit : assetOf s.cfg sid = some h)
      (hlen : 8 ≤ h.len)
      (hnext : decodeNext (lookedUp s sid ch)
        (startedChannel (lookedUp s sid ch) ch pitch h (lumpHeader hdr) fmt) = some y) :
      StartOutcome s sid ch vol sep pitch
        (respond (setChan (lookedUp s sid ch) ch.toNat (y.withGains vol sep)) (respChannel ch))

theorem startChannel_outcome (s : State) (sid : BitVec 16) (ch vol sep pitch : BitVec 8) :
    StartOutcome s sid ch vol sep pitch (startChannel s sid ch vol sep pitch) := by
  cases hit : assetOf s.cfg sid with
  | none =>
    have hup : lookedUp s sid ch = stopChannel s ch.toNat := afterLookup_of_miss hit
    rw [startChannel_of_miss hit, ← hup]
    exact .failed
  | some h =>
    have hup : lookedUp s sid ch = noteSpan (stopChannel s ch.toNat) h := afterLookup_of_hit hit
    rw [startChannel_of_hit hit, ← hup]
    rcases Nat.lt_or_ge h.len 8 with hlen | hlen
    · rw [startLump_short hlen]
      exact .failed
    cases hread : memRead (lookedUp s sid ch) h.base.toNat 8 with
    | none =>
      rw [startLump_unreadable hlen hread]
      exact .headerBus h hit hlen hread
    | some hdr =>
      cases htag : formatOf (lookedUp s sid ch).cfg (lumpHeader hdr).tag with
      | none =>
        rw [startLump_header hlen hread, checkHeader_unknownTag htag]
        exact .failed
      | some fmt =>
        rcases le_or_gt (payloadLength (lumpHeader hdr).declared h.len) 0 with hpayload | hpayload
        · rw [startLump_header hlen hread, checkHeader_noPayload htag hpayload]
          exact .failed
        by_cases hpitch : pitch = 0
        · rw [startLump_header hlen hread, checkHeader_pitchZero htag hpayload hpitch]
          exact .pitchZero hpitch
        rw [startLump_begins hlen hread htag hpayload hpitch]
        cases hnext : decodeNext (lookedUp s sid ch)
            (startedChannel (lookedUp s sid ch) ch pitch h (lumpHeader hdr) fmt) with
        | none =>
          rw [beginPlayback_bus hnext]
          exact .blockBus h hdr fmt hit hlen hnext
        | some y =>
          rw [beginPlayback_starts hnext]
          exact .started h hdr fmt y hit hlen hnext

/-- Everything `START_SOUND` can do (R140, R141, R262). -/
theorem exec_startSound_cases {s t : State} {sid : BitVec 16} {ch vol sep pitch : BitVec 8}
    (h : exec (.startSound sid ch vol sep pitch) s = .next t) :
    t = respond s respFaulted ∨ t = respond s respFail ∨ (gate s ch = true ∧ s.faulted = false ∧
      StartOutcome s sid ch vol sep pitch t) := by
  cases hfault : s.faulted with
  | true =>
    rw [exec_of_faulted hfault] at h
    cases h
    exact .inl rfl
  | false =>
    cases hgate : gate s ch with
    | false =>
      rw [exec_startSound_of_gate_closed hfault hgate] at h
      cases h
      exact .inr (.inl rfl)
    | true =>
      rw [exec_startSound_of_gate_open hfault hgate] at h
      cases h
      exact .inr (.inr ⟨rfl, rfl, startChannel_outcome s sid ch vol sep pitch⟩)

/-! ## The stopped channel -/

/-- Where the named channel exists, it is the stopped one after steps 2 and 3 of R141. -/
theorem chan_lookedUp {s : State} {sid : BitVec 16} {ch : BitVec 8} (h : ch.toNat < s.ch.length) :
    chan (lookedUp s sid ch) ch.toNat = (chan s ch.toNat).stopped :=
  chan_of_getElem? (by rw [lookedUp_ch, List.getElem?_set_self h])

theorem startedChannel_count (s : State) (ch pitch : BitVec 8) (h : Hit) (hdr : LumpHeader) (fmt : Format) :
    (startedChannel s ch pitch h hdr fmt).decodedCount = (chan s ch.toNat).decodedCount := rfl

/-- A list element written with a value has that value. -/
theorem eq_of_set_getElem? {α : Type} {l : List α} {c : Nat} {x y : α} (h : (l.set c x)[c]? = some y) : y = x := by
  rw [List.getElem?_set, if_pos rfl] at h
  split_ifs at h
  · exact (Option.some.inj h).symm

/-- Settles O27: every outcome but a started channel leaves the stopped count. -/
theorem failedStartLeavesInactive : Obligations.FailedStartLeavesInactive := by
  intro s t sid ch vol sep pitch hfault hinit hch hexec hresp y hy
  rw [exec_startSound_of_gate_open hfault (gate_eq_true_iff.mpr ⟨hinit, hch⟩)] at hexec
  cases hexec
  have hout := startChannel_outcome s sid ch vol sep pitch
  generalize startChannel s sid ch vol sep pitch = t at hout hresp hy
  cases hout with
  | failed =>
    rw [respond_ch, lookedUp_ch] at hy
    rw [eq_of_set_getElem? hy, Channel.stopped]
  | headerBus =>
    rw [raiseFault_ch, lookedUp_ch] at hy
    rw [eq_of_set_getElem? hy, Channel.stopped]
  | pitchZero =>
    rw [raiseFault_ch, lookedUp_ch] at hy
    rw [eq_of_set_getElem? hy, Channel.stopped]
  | blockBus h hdr fmt =>
    rw [raiseFault_ch, setChan_ch] at hy
    have hlt : ch.toNat < s.ch.length := by
      simpa [lookedUp_ch] using (List.getElem?_eq_some_iff.mp hy).1
    rw [eq_of_set_getElem? hy, startedChannel_count, chan_lookedUp hlt, Channel.stopped]
  | started => exact absurd (respChannel_eq ch) hresp

/-! ## The gate closed (R140, R266) -/

/-- What `LOOKUP` leaves does not depend on `initialized`. -/
theorem afterLookup_initialized_irrelevant (s : State) (sid : BitVec 16) (v : Bool) :
    afterLookup { s with initialized := v } sid = { afterLookup s sid with initialized := v } := by
  cases hit : assetOf s.cfg sid with
  | none => rw [afterLookup_of_miss hit, afterLookup_of_miss (s := { s with initialized := v }) hit]
  | some h =>
    rw [afterLookup_of_hit hit, afterLookup_of_hit (s := { s with initialized := v }) hit, noteSpan_eq, noteSpan_eq]

theorem exec_lookup_of_not_faulted {s : State} (h : s.faulted = false) (sid : BitVec 16) :
    ∃ v, exec (.lookup sid) s = .next (respond (afterLookup s sid) v) ∧
      ∀ b, exec (.lookup sid) { s with initialized := b } =
        .next (respond (afterLookup { s with initialized := b } sid) v) := by
  have hb (b : Bool) : ({ s with initialized := b } : State).faulted = false := h
  simp only [exec, execLookup, preamble_of_not_faulted h, preamble_of_not_faulted (hb _)]
  exact ⟨_, rfl, fun _ => rfl⟩

/-- Settles O26: a closed gate leaves the answer alone, and the two ungated commands read neither `initialized` nor a
channel. -/
theorem gateClosedAnswersSentinel : Obligations.GateClosedAnswersSentinel := by
  refine ⟨fun s sid ch vol sep pitch hfault hclosed => ?_, fun s hfault hinit =>
    (execUpdateSound_cases s).2.1 hfault hinit, fun s t i v hi hexec => ?_⟩
  · have hgate := gate_eq_false_iff.mpr hclosed
    refine ⟨exec_startSound_of_gate_closed hfault hgate sid vol sep pitch, ?_, ?_, ?_⟩
    · rw [exec_updateParams_of_not_faulted hfault, hgate]
      rfl
    · rw [exec_stopSound_of_not_faulted hfault, hgate]
      rfl
    · rw [exec_isPlaying_of_not_faulted hfault, hgate]
      rfl
  obtain hfault | hfault := Bool.eq_false_or_eq_true s.faulted
  · rw [exec_of_faulted hfault] at hexec
    cases hexec
    exact ⟨rfl, exec_of_faulted (s := { s with initialized := v }) hfault i⟩
  · obtain ⟨sid, rfl⟩ | rfl := hi
    · obtain ⟨r, hthis, hother⟩ := exec_lookup_of_not_faulted hfault sid
      rw [hthis] at hexec
      cases hexec
      refine ⟨afterLookup_ch s sid, ?_⟩
      rw [hother, afterLookup_initialized_irrelevant]
      rfl
    · rw [exec_precache_of_not_faulted hfault] at hexec
      cases hexec
      exact ⟨rfl, exec_precache_of_not_faulted (s := { s with initialized := v }) hfault⟩

/-! ## A first block that is no audio (R146) -/

theorem startedChannel_srcPos (s : State) (ch pitch : BitVec 8) (h : Hit) (hdr : LumpHeader) (fmt : Format) :
    (startedChannel s ch pitch h hdr fmt).srcPos.toNat = h.base.toNat + 8 := by
  have hbase := h.base.isLt
  simp only [startedChannel, Channel.started, BitVec.toNat_ofNat]
  exact Nat.mod_eq_of_lt (by omega)

/-- The payload's end fits its field: base and length are under `2^32` and `2^31` (R25, R142). -/
theorem startedChannel_srcEnd (s : State) (ch pitch : BitVec 8) (h : Hit) (hdr : List Byte) (fmt : Format) :
    (startedChannel s ch pitch h (lumpHeader hdr) fmt).srcEnd.toNat =
      h.base.toNat + 8 + (payloadLength (lumpHeader hdr).declared h.len).toNat := by
  have hbase := h.base.isLt
  have hlen := payloadLength_toNat_lt hdr h.len
  simp only [startedChannel, Channel.started, BitVec.toNat_ofNat]
  exact Nat.mod_eq_of_lt (by omega)

theorem startedChannel_remaining (s : State) (ch pitch : BitVec 8) (h : Hit) (hdr : List Byte) (fmt : Format) :
    (startedChannel s ch pitch h (lumpHeader hdr) fmt).remaining =
      (payloadLength (lumpHeader hdr).declared h.len).toNat := by
  rw [Channel.remaining, startedChannel_srcEnd, startedChannel_srcPos, Nat.add_sub_cancel_left]

/-- The channel file does not matter to the spans a hit leaves named. -/
theorem noteSpan_stopChannel_named (s : State) (c : Nat) (h : Hit) :
    (noteSpan (stopChannel s c) h).named = (noteSpan s h).named := by
  rw [noteSpan_eq, noteSpan_eq]
  rfl

theorem memRead_noteSpan_stopChannel (s : State) (c : Nat) (h : Hit) (a n : Nat) :
    memRead (noteSpan (stopChannel s c) h) a n = memRead (noteSpan s h) a n :=
  memRead_congr (noteSpan_stopChannel_named s c h) (by simp) a n

/-- A block that is no audio decodes to nothing (R113, R114). -/
theorem decodeAdpcm_no_audio {tbl : Vector (BitVec 16) 89} {blk : List Byte}
    (h : blk.length < 4 ∨ 88 < (blk.getD 2 0).toNat ∨ blk.getD 3 0 ≠ 0) : decodeAdpcm tbl blk = [] :=
  h.elim decodeAdpcm_short decodeAdpcm_rejected

/-- Settles O28: the first block decodes to nothing, which is an answer with an inactive channel. -/
theorem rejectedFirstBlockIsNoFailure : Obligations.RejectedFirstBlockIsNoFailure := by
  intro s sid ch vol sep pitch h hdr blk hfault hinit hch hfile hpitch hit hlen hhdr htag hpayload hblk haudio
  have hgate : gate s ch = true := gate_eq_true_iff.mpr ⟨hinit, hch⟩
  rw [← memRead_noteSpan_stopChannel s ch.toNat] at hhdr hblk
  have hup : noteSpan (stopChannel s ch.toNat) h = lookedUp s sid ch :=
    (afterLookup_of_hit (s := stopChannel s ch.toNat) hit).symm
  rw [hup] at hhdr hblk
  have hfmt : formatOf (lookedUp s sid ch).cfg (lumpHeader hdr).tag = some .adpcm :=
    formatOf_eq_some_iff.mpr (.inl ⟨htag, rfl⟩)
  have hread : memRead (lookedUp s sid ch)
      (startedChannel (lookedUp s sid ch) ch pitch h (lumpHeader hdr) .adpcm).srcPos.toNat
      (min (blockBytes (lookedUp s sid ch).cfg .adpcm)
        (startedChannel (lookedUp s sid ch) ch pitch h (lumpHeader hdr) .adpcm).remaining) = some blk := by
    rw [startedChannel_srcPos, startedChannel_remaining, lookedUp_cfg]
    exact hblk
  obtain ⟨y, hnext, hcount⟩ : ∃ y, decodeNext (lookedUp s sid ch)
      (startedChannel (lookedUp s sid ch) ch pitch h (lumpHeader hdr) .adpcm) = some y ∧ y.decodedCount = 0 := by
    refine ⟨_, decodeNext_of_memRead_some hread, ?_⟩
    have hsilent : decodeBlock (lookedUp s sid ch).cfg .adpcm blk = [] := decodeAdpcm_no_audio haudio
    exact congrArg (fun smp => BitVec.ofNat 16 smp.length) hsilent
  have hexec : exec (.startSound sid ch vol sep pitch) s =
      .next (respond (setChan (lookedUp s sid ch) ch.toNat (y.withGains vol sep)) (respChannel ch)) := by
    rw [exec_startSound_of_gate_open hfault hgate, startChannel_of_hit hit, hup,
      startLump_begins hlen hhdr hfmt hpayload hpitch, beginPlayback_starts hnext]
  refine ⟨_, hexec, respChannel_eq ch, ?_⟩
  have hlt : ch.toNat < (lookedUp s sid ch).ch.length := by
    rw [lookedUp_ch, List.length_set]
    omega
  have hchan : chan (respond (setChan (lookedUp s sid ch) ch.toNat (y.withGains vol sep)) (respChannel ch)) ch.toNat =
      y.withGains vol sep := chan_of_getElem? (List.getElem?_set_self hlt)
  have hinactive : (y.withGains vol sep).active = false := (active_eq_false_iff _).mpr hcount
  rw [exec_isPlaying_of_not_faulted (by simpa using hfault), hchan, hinactive, Bool.and_false]
  rfl

end Sys2Proof.Machine
end

section
/-! Proofs about 44_scheduler.md §1, §2: the sink's moves as updates of the state, the loop of `UPDATE_SOUND` turn by
turn, and that every command ends (R231 to R236, R264, R301). -/

namespace Sys2Proof.Machine

/-! ## The sink's moves -/

/-- Some play steps, at most as many as the queue holds: so many buffers from its head played and emptied (R235). -/
theorem playSteps_eq (k : Nat) (s : State) (h : k ≤ s.filled.length) : playSteps k s = { s with
    filled := s.filled.drop k
    empty := s.empty ++ (s.filled.take k).map Filled.buffer
    played := s.played ++ (s.filled.take k).map (fun f => f.buffer.samples.take f.count) } := by
  induction k generalizing s with
  | zero => simp [playSteps]
  | succ k ih =>
    cases hfilled : s.filled with
    | nil => simp [hfilled] at h
    | cons f fs =>
      have hk : k ≤ fs.length := by simpa [hfilled] using h
      rw [playSteps, playOnce_of_filled hfilled, ih _ hk]
      simp

theorem sinkPoint_eq (s : State) : sinkPoint s = { s with
    filled := s.filled.drop (min (s.draws.plays.headD 0) s.filled.length)
    empty := s.empty ++ (s.filled.take (min (s.draws.plays.headD 0) s.filled.length)).map Filled.buffer
    played := s.played ++
      (s.filled.take (min (s.draws.plays.headD 0) s.filled.length)).map (fun f => f.buffer.samples.take f.count)
    draws := { s.draws with plays := s.draws.plays.tail } } :=
  playSteps_eq _ { s with draws := { s.draws with plays := s.draws.plays.tail } } (Nat.min_le_right _ _)

/-- A take, whole (R233): the buffer of the draw leaves the empty pool. -/
theorem sinkTake_eq_some {s t : State} {b : Buffer} (h : sinkTake s = some (b, t)) :
    s.empty[pickIndex s.draws s.empty.length]? = some b ∧
    t = { s with
      empty := s.empty.eraseIdx (pickIndex s.draws s.empty.length), core := some b, draws := s.draws.afterPick } := by
  unfold sinkTake at h
  dsimp only at h
  split at h
  · cases h
  · rename_i b' hb
    cases h
    exact ⟨hb, rfl⟩

theorem pickIndex_cons {d : Draws} {p : Nat} {ps : List Nat} (h : d.picks = p :: ps) (n : Nat) :
    pickIndex d n = p % n := by
  simp only [pickIndex, h]

theorem pickIndex_nil {d : Draws} (h : d.picks = []) (n : Nat) : pickIndex d n = Config.freePick d.next % n := by
  simp only [pickIndex, h]

theorem sinkGive_of_core {s : State} {b : Buffer} (h : s.core = some b) (n : Nat) :
    sinkGive s n = { s with core := none, filled := s.filled ++ [⟨b, n⟩] } := by
  simp only [sinkGive, h]

/-! ## A buffer filled, and a fill that faults -/

section
variable (s : State) (b : Buffer)

@[simp] theorem filledState_cfg : (filledState s b).cfg = s.cfg := by simp [filledState]
@[simp] theorem filledState_initialized : (filledState s b).initialized = s.initialized := by simp [filledState]
@[simp] theorem filledState_musicEnabled : (filledState s b).musicEnabled = s.musicEnabled := by simp [filledState]
@[simp] theorem filledState_faulted : (filledState s b).faulted = s.faulted := by simp [filledState]
@[simp] theorem filledState_faultReason : (filledState s b).faultReason = s.faultReason := by simp [filledState]
@[simp] theorem filledState_mem : (filledState s b).mem = s.mem := by simp [filledState]
@[simp] theorem filledState_named : (filledState s b).named = s.named := by simp [filledState]
@[simp] theorem filledState_inputs : (filledState s b).inputs = s.inputs := by simp [filledState]
@[simp] theorem filledState_played : (filledState s b).played = s.played := by simp [filledState]
@[simp] theorem filledState_responses : (filledState s b).responses = s.responses := by simp [filledState]

@[simp] theorem faultedFill_cfg : (faultedFill s b).cfg = s.cfg := by simp [faultedFill]
@[simp] theorem faultedFill_initialized : (faultedFill s b).initialized = s.initialized := by simp [faultedFill]
@[simp] theorem faultedFill_musicEnabled : (faultedFill s b).musicEnabled = s.musicEnabled := by simp [faultedFill]
@[simp] theorem faultedFill_fadeState : (faultedFill s b).fadeState = s.fadeState := by simp [faultedFill]
@[simp] theorem faultedFill_fadeLevel : (faultedFill s b).fadeLevel = s.fadeLevel := by simp [faultedFill]
@[simp] theorem faultedFill_faulted : (faultedFill s b).faulted = true := rfl
@[simp] theorem faultedFill_faultReason : (faultedFill s b).faultReason = .srcBus := rfl
@[simp] theorem faultedFill_resp : (faultedFill s b).resp = respFaulted := rfl
@[simp] theorem faultedFill_mem : (faultedFill s b).mem = s.mem := by simp [faultedFill]
@[simp] theorem faultedFill_named : (faultedFill s b).named = s.named := by simp [faultedFill]
@[simp] theorem faultedFill_empty : (faultedFill s b).empty = s.empty := by simp [faultedFill]
@[simp] theorem faultedFill_filled : (faultedFill s b).filled = s.filled := by simp [faultedFill]
@[simp] theorem faultedFill_inputs : (faultedFill s b).inputs = s.inputs := by simp [faultedFill]
@[simp] theorem faultedFill_played : (faultedFill s b).played = s.played := by simp [faultedFill]
@[simp] theorem faultedFill_responses : (faultedFill s b).responses = s.responses := by simp [faultedFill]

/-- The channels a faulted fill leaves are those of the mix so far (60_exceptions.md R264). -/
theorem faultedFill_ch : (faultedFill s b).ch = (mixChannels s s.ch (baseContent s)).chans := by
  simp only [faultedFill, mixChannels_afterBase, afterBase_ch, raiseFault_ch]

/-- The buffer of a faulted fill stays in `Core` with what was mixed so far (60_exceptions.md R264). -/
theorem faultedFill_core : (faultedFill s b).core = some ⟨b.id, (mixChannels s s.ch (baseContent s)).buf⟩ := by
  simp only [faultedFill, mixChannels_afterBase, afterBase_ch, raiseFault_core]

/-- A faulted fill, whole (60_exceptions.md R264). -/
theorem faultedFill_eq : faultedFill s b = { s with
    faulted := true, faultReason := .srcBus, resp := respFaulted
    ch := (mixChannels s s.ch (baseContent s)).chans
    core := some ⟨b.id, (mixChannels s s.ch (baseContent s)).buf⟩
    draws := if s.musicEnabled then s.draws.afterMusic else s.draws } := by
  rw [faultedFill, mixChannels_afterBase, afterBase_ch, afterBase]
  split_ifs <;> rfl

end

/-- How the mix of a fill from `s` ends. -/
def fillVerdict (s : State) : Verdict := (mixChannels s s.ch (baseContent s)).verdict

/-- Everything `fillBuffer` can do, by how the mix ends (R232, R264). -/
theorem fillBuffer_verdict_cases (s : State) (b : Buffer) :
    (fillVerdict s = .ok ∧ fillBuffer s b = .done (filledState s b)) ∨
    (fillVerdict s = .bus ∧ fillBuffer s b = .raised (faultedFill s b)) ∨
    (fillVerdict s = .noValue ∧ fillBuffer s b = .stuck .sampleNoValue) := by
  have h := fillBuffer_cases s b
  rwa [mixChannels_afterBase, afterBase_ch] at h

theorem fillBuffer_raised {s t : State} {b : Buffer} (h : fillBuffer s b = .raised t) :
    fillVerdict s = .bus ∧ t = faultedFill s b := by
  obtain ⟨-, e⟩ | ⟨hv, e⟩ | ⟨-, e⟩ := fillBuffer_verdict_cases s b <;> rw [e] at h <;> cases h
  exact ⟨hv, rfl⟩

/-! ## The loop of `UPDATE_SOUND` -/

/-- The state after a whole turn of the loop that took buffer `b` and left `s1`: filled, then given. -/
def turned (s1 : State) (b : Buffer) : State :=
  sinkGive (sinkPoint (filledState (sinkPoint s1) b)) (2 * s1.cfg.bufferFrames)

/-- What holds at the start of every turn and decides every end of the loop decides its result (R231). -/
theorem updateLoop_rule {I : State → Nat → Prop} {Post : Result → Prop}
    (stop : ∀ s n, I s n → (sinkPoint s).empty = [] → Post (.next (respond (sinkPoint s) (respCount n))))
    (turn : ∀ s n b s1, I s n → sinkTake (sinkPoint s) = some (b, s1) → fillVerdict (sinkPoint s1) = .ok →
      I (turned s1 b) (n + 1))
    (raise : ∀ s n b s1, I s n → sinkTake (sinkPoint s) = some (b, s1) → fillVerdict (sinkPoint s1) = .bus →
      Post (.next (faultedFill (sinkPoint s1) b)))
    (stuck : ∀ s n b s1, I s n → sinkTake (sinkPoint s) = some (b, s1) → fillVerdict (sinkPoint s1) = .noValue →
      Post (.fault .sampleNoValue))
    {k : Nat} {s : State} {n : Nat} (hk : turnsLeft s < k) (h : I s n) : Post (updateLoop k s n) := by
  induction k generalizing s n with
  | zero => omega
  | succ k ih =>
    cases htake : sinkTake (sinkPoint s) with
    | none =>
      rw [updateLoop_stop htake]
      exact stop s n h ((sinkTake_none _).mp htake)
    | some p =>
      obtain ⟨b, s1⟩ := p
      obtain ⟨hv, e⟩ | ⟨hv, e⟩ | ⟨hv, e⟩ := fillBuffer_verdict_cases (sinkPoint s1) b
      · have hless := turn_decreases (n := 2 * s1.cfg.bufferFrames) htake e
        rw [updateLoop_turn htake e, filledState_cfg, sinkPoint_cfg]
        exact ih (by omega) (turn s n b s1 h htake hv)
      · rw [updateLoop_raise htake e]
        exact raise s n b s1 h htake hv
      · rw [updateLoop_stuck htake e]
        exact stuck s n b s1 h htake hv

theorem turnsLeft_lt_updateBound (s : State) : turnsLeft s < updateBound s := Nat.lt_succ_self _

/-- Settles O32: the sink's three moves and one turn of the loop, whose bound never shows. -/
theorem updateSoundTurns : Obligations.UpdateSoundTurns := by
  refine ⟨sinkPoint_eq, fun s => ⟨sinkTake_none s, fun b t htake => ?_⟩, fun s b n hcore => sinkGive_of_core hcore n,
    fun s => (execUpdateSound_cases s).2.1, fun s => (execUpdateSound_cases s).2.2, fun s n hempty => ?_,
    fun s s1 s2 b n htake hfill => ?_, fun s s1 s2 b n htake hfill => ?_⟩
  · obtain ⟨hb, ht⟩ := sinkTake_eq_some htake
    exact ⟨_, (List.getElem?_eq_some_iff.mp hb).1, hb, fun p ps hp => pickIndex_cons hp _, fun hp => pickIndex_nil hp _, ht⟩
  · exact updateLoop_stop ((sinkTake_none _).mpr hempty)
  · have hless := turn_decreases (n := 2 * s2.cfg.bufferFrames) htake hfill
    rw [updateBound, updateLoop_turn htake hfill]
    exact updateLoop_bound _ _ _ _ hless (turnsLeft_lt_updateBound _)
  · obtain ⟨hbus, rfl⟩ := fillBuffer_raised hfill
    rw [fillVerdict, sinkPoint_ch] at hbus
    refine ⟨updateLoop_raise htake hfill, hbus, ?_⟩
    rw [faultedFill_eq]
    simp only [sinkPoint_ch, sinkPoint_musicEnabled, sinkPoint_draws, Draws.afterMusic]
    rfl

/-! ## Every command ends (R236, R301) -/

/-- Every command but `UPDATE_SOUND` answers a next state, in every state. -/
theorem exec_next_of_ne_updateSound {i : Instr} (h : i ≠ .updateSound) (s : State) : ∃ t, exec i s = .next t := by
  obtain hfault | hfault := Bool.eq_false_or_eq_true s.faulted
  · exact ⟨_, exec_of_faulted hfault i⟩
  cases i with
  | init => exact ⟨_, by rw [exec, execInit, preamble_of_not_faulted hfault]⟩
  | shutdown => exact ⟨_, exec_shutdown_of_not_faulted hfault⟩
  | lookup sid => exact ⟨_, by rw [exec, execLookup, preamble_of_not_faulted hfault]⟩
  | startSound sid ch vol sep pitch => exact ⟨_, by rw [exec, execStartSound, preamble_of_not_faulted hfault]⟩
  | updateParams ch vol sep => exact ⟨_, exec_updateParams_of_not_faulted hfault ch vol sep⟩
  | stopSound ch => exact ⟨_, exec_stopSound_of_not_faulted hfault ch⟩
  | isPlaying ch => exact ⟨_, exec_isPlaying_of_not_faulted hfault ch⟩
  | updateSound => exact absurd rfl h
  | precache => exact ⟨_, exec_precache_of_not_faulted hfault⟩
  | setMusic arg => exact ⟨_, exec_setMusic_of_not_faulted hfault arg⟩
  | fadeTo arg => exact ⟨_, exec_fadeTo_of_not_faulted hfault arg⟩
  | isFading => exact ⟨_, exec_isFading_of_not_faulted hfault⟩

/-- `UPDATE_SOUND` answers at once, or is its loop on an initialized block without fault (R231, R262, R266). -/
theorem exec_updateSound_cases (s : State) :
    (∃ v, exec .updateSound s = .next (respond s v)) ∨
    (s.faulted = false ∧ s.initialized = true ∧ exec .updateSound s = updateLoop (updateBound s) s 0) := by
  obtain ⟨hfaulted, hidle, hloop⟩ := execUpdateSound_cases s
  cases hfault : s.faulted with
  | true => exact .inl ⟨_, hfaulted hfault⟩
  | false =>
    cases hinit : s.initialized with
    | true => exact .inr ⟨rfl, rfl, hloop hfault hinit⟩
    | false => exact .inl ⟨_, hidle hfault hinit⟩

theorem updateLoop_not_refused {k : Nat} {s : State} (hk : turnsLeft s < k) (n : Nat) (x : Refusal) :
    updateLoop k s n ≠ .refused x :=
  updateLoop_rule (I := fun _ _ => True) (Post := fun r => r ≠ .refused x) (by simp) (by simp) (by simp) (by simp) hk
    trivial

/-- Settles O34: the turns left bound the loop's turns, and every command without the loop answers a next state. -/
theorem everyCommandEnds : Obligations.EveryCommandEnds := by
  intro i s
  by_cases hi : i = .updateSound
  · subst hi
    obtain ⟨v, h⟩ | ⟨-, -, h⟩ := exec_updateSound_cases s
    · simp [h]
    · rw [h]
      exact ⟨updateLoop_ends _ s 0 (turnsLeft_lt_updateBound s),
        fun m => updateLoop_not_refused (turnsLeft_lt_updateBound s) 0 _⟩
  · obtain ⟨t, h⟩ := exec_next_of_ne_updateSound hi s
    simp [h]

end Sys2Proof.Machine
end

section
/-! Proofs about who writes what (10_state.md §2 to §4, 20_memory.md §1, §4), which commands fault (60_exceptions.md §2),
and what stays through a step (70_reset_and_hazards.md §1, §3). -/

namespace Sys2Proof.Machine

/-! ## Everything a command can leave -/

/-- Everything `INIT` can do (R238, R262): answer, answer with the sink's draw consumed, or set the block up. -/
theorem exec_init_cases {s t : State} (h : exec .init s = .next t) :
    (∃ v, t = respond s v) ∨ (∃ v, t = respond { s with draws := s.draws.afterSetup } v) ∨
    t = respond { stopAll { s with draws := s.draws.afterSetup } with initialized := true } respOk := by
  obtain hfault | hfault := Bool.eq_false_or_eq_true s.faulted
  · rw [exec_of_faulted hfault] at h
    cases h
    exact .inl ⟨_, rfl⟩
  obtain hinit | hinit := Bool.eq_false_or_eq_true s.initialized
  · rw [exec_init_of_initialized hfault hinit] at h
    cases h
    exact .inl ⟨_, rfl⟩
  obtain hsetup | hsetup := Bool.eq_false_or_eq_true (setupAnswer s.draws)
  · rw [exec_init_of_setup hfault hinit hsetup] at h
    cases h
    exact .inr (.inr rfl)
  · rw [exec_init_of_setup_fails hfault hinit hsetup] at h
    cases h
    exact .inr (.inl ⟨_, rfl⟩)

/-- What a command other than `INIT`, `START_SOUND` and `UPDATE_SOUND` writes besides the response, past the preamble. -/
def simpleEffect : Instr → State → State
  | .shutdown, s => { stopAll s with initialized := false }
  | .lookup sid, s => afterLookup s sid
  | .updateParams ch vol sep, s =>
    if gate s ch then setChan s ch.toNat ((chan s ch.toNat).withGains vol sep) else s
  | .stopSound ch, s => if gate s ch then stopChannel s ch.toNat else s
  | .setMusic arg, s => { s with musicEnabled := arg }
  | .fadeTo arg, s => { s with fadeState := s.fadeState.request arg }
  | _, s => s

theorem simpleEffect_fault (i : Instr) (s : State) :
    (simpleEffect i s).faulted = s.faulted ∧ (simpleEffect i s).faultReason = s.faultReason := by
  cases i with
  | updateParams ch vol sep =>
    simp only [simpleEffect]
    split_ifs <;> simp
  | stopSound ch =>
    simp only [simpleEffect]
    split_ifs <;> simp
  | _ => simp [simpleEffect]

/-- Everything a command other than these three can do. -/
theorem exec_simple_cases {i : Instr} {s t : State} (h : exec i s = .next t) (hinit : i ≠ .init)
    (hupdate : i ≠ .updateSound) (hstart : ∀ sid ch vol sep pitch, i ≠ .startSound sid ch vol sep pitch) :
    (∃ v, t = respond s v) ∨ (s.faulted = false ∧ ∃ v, t = respond (simpleEffect i s) v) := by
  obtain hfault | hfault := Bool.eq_false_or_eq_true s.faulted
  · rw [exec_of_faulted hfault] at h
    cases h
    exact .inl ⟨_, rfl⟩
  refine .inr ⟨hfault, ?_⟩
  cases i with
  | init => exact absurd rfl hinit
  | updateSound => exact absurd rfl hupdate
  | startSound sid ch vol sep pitch => exact absurd rfl (hstart sid ch vol sep pitch)
  | shutdown =>
    rw [exec_shutdown_of_not_faulted hfault] at h
    cases h
    exact ⟨_, rfl⟩
  | lookup sid =>
    obtain ⟨v, e, -⟩ := exec_lookup_of_not_faulted hfault sid
    rw [e] at h
    cases h
    exact ⟨_, rfl⟩
  | updateParams ch vol sep =>
    rw [exec_updateParams_of_not_faulted hfault] at h
    cases h
    exact ⟨_, rfl⟩
  | stopSound ch =>
    rw [exec_stopSound_of_not_faulted hfault] at h
    cases h
    exact ⟨_, rfl⟩
  | isPlaying ch =>
    rw [exec_isPlaying_of_not_faulted hfault] at h
    cases h
    exact ⟨_, rfl⟩
  | precache =>
    rw [exec_precache_of_not_faulted hfault] at h
    cases h
    exact ⟨_, rfl⟩
  | setMusic arg =>
    rw [exec_setMusic_of_not_faulted hfault] at h
    cases h
    exact ⟨_, rfl⟩
  | fadeTo arg =>
    rw [exec_fadeTo_of_not_faulted hfault] at h
    cases h
    exact ⟨_, rfl⟩
  | isFading =>
    rw [exec_isFading_of_not_faulted hfault] at h
    cases h
    exact ⟨_, rfl⟩

/-- Everything a command can do. -/
inductive ExecOutcome (s : State) : Instr → State → Prop
  | answer (i : Instr) (v : RespWord) : ExecOutcome s i (respond s v)
  | simple (i : Instr) (hfault : s.faulted = false) (v : RespWord) : ExecOutcome s i (respond (simpleEffect i s) v)
  | setupFails (v : RespWord) : ExecOutcome s .init (respond { s with draws := s.draws.afterSetup } v)
  | setup : ExecOutcome s .init
      (respond { stopAll { s with draws := s.draws.afterSetup } with initialized := true } respOk)
  | start (sid : BitVec 16) (ch vol sep pitch : BitVec 8) (t : State) (hgate : gate s ch = true)
      (hfault : s.faulted = false) (h : StartOutcome s sid ch vol sep pitch t) :
      ExecOutcome s (.startSound sid ch vol sep pitch) t
  | update (t : State) (hfault : s.faulted = false) (h : updateLoop (updateBound s) s 0 = .next t) :
      ExecOutcome s .updateSound t

theorem exec_outcome {i : Instr} {s t : State} (h : exec i s = .next t) : ExecOutcome s i t := by
  by_cases hinit : i = .init
  · subst hinit
    obtain ⟨v, rfl⟩ | ⟨v, rfl⟩ | rfl := exec_init_cases h
    · exact .answer _ v
    · exact .setupFails v
    · exact .setup
  by_cases hupdate : i = .updateSound
  · subst hupdate
    obtain ⟨v, e⟩ | ⟨hfault, -, e⟩ := exec_updateSound_cases s
    · rw [e] at h
      cases h
      exact .answer _ v
    · rw [e] at h
      exact .update t hfault h
  by_cases hstart : ∃ sid ch vol sep pitch, i = .startSound sid ch vol sep pitch
  · obtain ⟨sid, ch, vol, sep, pitch, rfl⟩ := hstart
    obtain rfl | rfl | ⟨hgate, hfault, hout⟩ := exec_startSound_cases h
    · exact .answer _ _
    · exact .answer _ _
    · exact .start sid ch vol sep pitch t hgate hfault hout
  · obtain ⟨v, rfl⟩ | ⟨hfault, v, rfl⟩ := exec_simple_cases h hinit hupdate
      (fun sid ch vol sep pitch e => hstart ⟨sid, ch, vol, sep, pitch, e⟩)
    · exact .answer _ v
    · exact .simple _ hfault v

/-! ## What the loop and a start leave alone -/

/-- What the loop of `UPDATE_SOUND` never writes (R40). -/
structure LoopFrame (s t : State) : Prop where
  cfg : t.cfg = s.cfg
  mem : t.mem = s.mem
  inputs : t.inputs = s.inputs
  responses : t.responses = s.responses
  channels : t.ch.length = s.ch.length
  initialized : t.initialized = s.initialized
  musicEnabled : t.musicEnabled = s.musicEnabled
  named : t.named = s.named

/-- A take writes the pool, the core's buffer and the draws. -/
theorem sinkTake_frame {s t : State} {b : Buffer} (h : sinkTake s = some (b, t)) : LoopFrame s t := by
  obtain ⟨-, rfl⟩ := sinkTake_eq_some h
  exact ⟨rfl, rfl, rfl, rfl, rfl, rfl, rfl, rfl⟩

theorem LoopFrame.trans {s t u : State} (h : LoopFrame s t) (h' : LoopFrame t u) : LoopFrame s u :=
  ⟨h'.cfg.trans h.cfg, h'.mem.trans h.mem, h'.inputs.trans h.inputs, h'.responses.trans h.responses,
    h'.channels.trans h.channels, h'.initialized.trans h.initialized, h'.musicEnabled.trans h.musicEnabled,
    h'.named.trans h.named⟩

theorem filledState_frame (s : State) (b : Buffer) : LoopFrame s (filledState s b) :=
  ⟨by simp, by simp, by simp, by simp, by rw [filledState_ch, mixChannels_count], by simp, by simp, by simp⟩

theorem faultedFill_frame (s : State) (b : Buffer) : LoopFrame s (faultedFill s b) :=
  ⟨by simp, by simp, by simp, by simp, by rw [faultedFill_ch, mixChannels_count], by simp, by simp, by simp⟩

theorem updateLoop_frame {k : Nat} {s t : State} {n : Nat} (h : updateLoop k s n = .next t) : LoopFrame s t :=
  updateLoop_keeps (P := LoopFrame s)
    (fun u hu => hu.trans ⟨by simp, by simp, by simp, by simp, by simp, by simp, by simp, by simp⟩)
    (fun _ _ _ htake hu => hu.trans (sinkTake_frame htake))
    (fun u b hu => hu.trans (filledState_frame u b))
    (fun u b hu => hu.trans (faultedFill_frame u b))
    (fun u m hu => hu.trans ⟨by simp, by simp, by simp, by simp, by simp, by simp, by simp, by simp⟩)
    (fun u v hu => hu.trans ⟨by simp, by simp, by simp, by simp, by simp, by simp, by simp, by simp⟩)
    k s n t h ⟨rfl, rfl, rfl, rfl, rfl, rfl, rfl, rfl⟩

/-- A start writes the channel file at one index, the spans named, the fault and the response (R141). -/
structure StartFrame (s : State) (ch : BitVec 8) (t : State) : Prop where
  cfg : t.cfg = s.cfg
  mem : t.mem = s.mem
  inputs : t.inputs = s.inputs
  responses : t.responses = s.responses
  channels : ∃ x, t.ch = s.ch.set ch.toNat x
  initialized : t.initialized = s.initialized
  musicEnabled : t.musicEnabled = s.musicEnabled
  fadeState : t.fadeState = s.fadeState
  fadeLevel : t.fadeLevel = s.fadeLevel
  empty : t.empty = s.empty
  core : t.core = s.core
  filled : t.filled = s.filled
  played : t.played = s.played
  draws : t.draws = s.draws

theorem StartOutcome.frame {s t : State} {sid : BitVec 16} {ch vol sep pitch : BitVec 8}
    (h : StartOutcome s sid ch vol sep pitch t) : StartFrame s ch t := by
  cases h with
  | failed => constructor <;> simp
  | headerBus => constructor <;> simp
  | pitchZero => constructor <;> simp
  | blockBus => constructor <;> simp
  | started => constructor <;> simp

/-! ## Global fields -/

/-- Settles O36, outcome by outcome: each names the fields it writes, and the loop and a start have their frames. -/
theorem globalFieldWriters : Obligations.GlobalFieldWriters := by
  intro i s t h
  cases exec_outcome h with
  | answer _ v => simp
  | setupFails v => simp
  | setup => simp
  | start sid ch vol sep pitch _ hgate hfault hout =>
    obtain ⟨cfg, mem, inputs, responses, ⟨x, channels⟩, initialized, musicEnabled, fadeState, fadeLevel, empty, core,
      filled, played, draws⟩ := hout.frame
    simp [*]
  | update _ hfault hloop =>
    obtain ⟨cfg, mem, inputs, responses, channels, initialized, musicEnabled, named⟩ := updateLoop_frame hloop
    simp [*]
  | simple _ hfault v =>
    cases i with
    | updateParams ch vol sep =>
      simp only [simpleEffect]
      split_ifs <;> simp
    | stopSound ch =>
      simp only [simpleEffect]
      split_ifs <;> simp
    | _ => simp [simpleEffect]

/-! ## Fields of a channel -/

/-- What a pass over the channels leaves at an index: the same voice, and the channel itself where it was inactive. -/
theorem mixChannels_getElem? (s : State) {xs : List Channel} (buf : List Pcm) {c : Nat} {x : Channel}
    (h : xs[c]? = some x) :
    ∃ y, (mixChannels s xs buf).chans[c]? = some y ∧ x.SameVoice y ∧ (x.decodedCount = 0 → y = x) := by
  obtain ⟨hlt, -⟩ := List.getElem?_eq_some_iff.mp h
  have hlt' : c < (mixChannels s xs buf).chans.length := by rwa [mixChannels_count]
  have hy := List.getElem?_eq_getElem hlt'
  obtain ⟨x', hx', hcase⟩ := mixChannels_at s xs buf c _ hy
  obtain rfl : x = x' := Option.some.inj (h.symm.trans hx')
  refine ⟨_, hy, ?_⟩
  obtain e | ⟨hactive, b, e⟩ := hcase
  · rw [e]
    exact ⟨.refl x, fun _ => rfl⟩
  · rw [e]
    exact ⟨mixChannel_sameVoice s x b, fun h0 => absurd h0 hactive⟩

/-- Channel `c` of `t` is what mixing passes can make of `x`. -/
def MixedFrom (c : Nat) (x : Channel) (t : State) : Prop :=
  ∃ y, t.ch[c]? = some y ∧ x.SameVoice y ∧ (x.decodedCount = 0 → y = x)

/-- A pass over the channels goes on from what passes have made so far. -/
theorem MixedFrom.mix {c : Nat} {x : Channel} {s t : State} (h : MixedFrom c x s) (s' : State) (buf : List Pcm)
    (ht : t.ch = (mixChannels s' s.ch buf).chans) : MixedFrom c x t := by
  obtain ⟨y, hy, hvoice, hsame⟩ := h
  obtain ⟨z, hz, hvoice', hsame'⟩ := mixChannels_getElem? s' buf hy
  refine ⟨z, ht ▸ hz, hvoice.trans hvoice', fun h0 => ?_⟩
  have hyx := hsame h0
  exact (hsame' (hyx ▸ h0)).trans hyx

theorem updateLoop_mixedFrom {k : Nat} {s t : State} {n c : Nat} {x : Channel} (h : updateLoop k s n = .next t)
    (hx : s.ch[c]? = some x) : MixedFrom c x t :=
  updateLoop_keeps (P := MixedFrom c x)
    (fun u hu => by unfold MixedFrom; rwa [sinkPoint_ch])
    (fun _ _ _ htake hu => by
      obtain ⟨-, rfl⟩ := sinkTake_eq_some htake
      exact hu)
    (fun u b hu => hu.mix u (baseContent u) (filledState_ch u b))
    (fun u b hu => hu.mix u (baseContent u) (faultedFill_ch u b))
    (fun u m hu => by unfold MixedFrom; rwa [sinkGive_ch])
    (fun _ _ hu => hu) k s n t h ⟨x, hx, .refl x, fun _ => rfl⟩

/-- Stopping a channel writes its count alone. -/
theorem exists_map_stopped {xs : List Channel} {c : Nat} {x : Channel} (h : xs[c]? = some x) :
    (xs.map Channel.stopped)[c]? = some x.stopped := by
  rw [List.getElem?_map, h]
  rfl

/-- A write at an index is seen at that index alone. -/
theorem getElem?_set_cases {xs : List Channel} {c d : Nat} {x y : Channel} (h : xs[c]? = some x) :
    (d = c ∧ (xs.set d y)[c]? = some y) ∨ (d ≠ c ∧ (xs.set d y)[c]? = some x) := by
  by_cases hd : d = c
  · subst hd
    exact .inl ⟨rfl, List.getElem?_set_self (List.getElem?_eq_some_iff.mp h).1⟩
  · exact .inr ⟨hd, by rw [List.getElem?_set_ne hd, h]⟩

/-- Settles O37, outcome by outcome: the loop keeps a channel's voice and leaves an inactive one alone, a start writes
one index, and the other commands write the gains or the count. -/
theorem channelFieldWriters : Obligations.ChannelFieldWriters := by
  intro i s t c x h hx
  cases exec_outcome h with
  | answer _ v => exact ⟨x, hx, by simp⟩
  | setupFails v => exact ⟨x, hx, by simp⟩
  | setup => exact ⟨x.stopped, exists_map_stopped hx, by simp [Channel.stopped]⟩
  | start sid ch vol sep pitch _ hgate hfault hout =>
    obtain ⟨y, hy⟩ := hout.frame.channels
    rw [hy]
    obtain ⟨hch, e⟩ | ⟨hch, e⟩ := getElem?_set_cases (y := y) (d := ch.toNat) hx
    · exact ⟨y, e, fun hother => absurd hch (hother sid ch vol sep pitch rfl)⟩
    · exact ⟨x, e, by simp⟩
  | update _ hfault hloop =>
    obtain ⟨y, hy, ⟨hformat, hend, hstep, hleft, hright, hcoef⟩, hsame⟩ := updateLoop_mixedFrom hloop hx
    refine ⟨y, hy, fun _ => ⟨⟨hformat, hend, hstep, hcoef⟩, fun _ => ⟨hleft, hright⟩, fun hinactive => ?_⟩⟩
    rw [hsame (hinactive rfl)]
    simp
  | simple _ hfault v =>
    cases i with
    | shutdown => exact ⟨x.stopped, exists_map_stopped hx, by simp [Channel.stopped]⟩
    | updateParams ch vol sep =>
      simp only [simpleEffect]
      split_ifs
      · obtain ⟨hch, e⟩ | ⟨hch, e⟩ :=
          getElem?_set_cases (y := (chan s ch.toNat).withGains vol sep) (d := ch.toNat) hx
        · rw [hch, chan_of_getElem? hx] at e
          exact ⟨_, by simpa [hch, chan_of_getElem? hx] using e, by simp [Channel.withGains, hch]⟩
        · exact ⟨x, e, by simp⟩
      · exact ⟨x, hx, by simp⟩
    | stopSound ch =>
      simp only [simpleEffect]
      split_ifs
      · obtain ⟨hch, e⟩ | ⟨hch, e⟩ := getElem?_set_cases (y := (chan s ch.toNat).stopped) (d := ch.toNat) hx
        · rw [hch, chan_of_getElem? hx] at e
          exact ⟨_, by simpa [hch, chan_of_getElem? hx] using e, by simp [Channel.stopped]⟩
        · exact ⟨x, e, by simp⟩
      · exact ⟨x, hx, by simp⟩
    | _ => exact ⟨x, by simpa [simpleEffect] using hx, by simp⟩

/-! ## Faults (R263) -/

/-- A faulted state that the loop answers faulted inside a fill (R264). -/
def FaultedByFill (r : Result) : Prop :=
  ∀ t, r = .next t → t.faulted = true → t.resp = respFaulted ∧ t.faultReason = .srcBus

theorem turned_faulted (s1 : State) (b : Buffer) : (turned s1 b).faulted = s1.faulted := by
  simp [turned]

/-- From a state without fault the loop faults inside a fill alone. -/
theorem updateLoop_faultedByFill {k : Nat} {s : State} {n : Nat} (hk : turnsLeft s < k) (h : s.faulted = false) :
    FaultedByFill (updateLoop k s n) := by
  refine updateLoop_rule (I := fun u _ => u.faulted = false) (Post := FaultedByFill) ?_ ?_ ?_ ?_ hk h
  · rintro u m hu - t ⟨⟩ ht
    rw [respond_faulted, sinkPoint_faulted, hu] at ht
    cases ht
  · intro u m b s1 hu htake _
    obtain ⟨-, rfl⟩ := sinkTake_eq_some htake
    rw [turned_faulted]
    exact (sinkPoint_faulted u).trans hu
  · rintro u m b s1 - - - t ⟨⟩ -
    exact ⟨rfl, rfl⟩
  · rintro u m b s1 - - - t ⟨⟩

/-- Settles O15: of the outcomes only a start's three faults and a fill's leave a block faulted that was not. -/
theorem faultCauses : Obligations.FaultCauses := by
  intro i s t h hno hfaulted
  have hkept {u : State} (hu : u.faulted = s.faulted) : u.faulted ≠ true := by simp [hu, hno]
  cases exec_outcome h with
  | answer _ v => exact absurd hfaulted (hkept rfl)
  | setupFails v => exact absurd hfaulted (hkept rfl)
  | setup => exact absurd hfaulted (hkept rfl)
  | start sid ch vol sep pitch _ hgate hfault hout =>
    cases hout with
    | failed => exact absurd hfaulted (hkept (by simp))
    | started => exact absurd hfaulted (hkept (by simp))
    | headerBus => exact ⟨rfl, .inr ⟨rfl, .inr ⟨sid, ch, vol, sep, pitch, rfl⟩⟩⟩
    | blockBus => exact ⟨rfl, .inr ⟨rfl, .inr ⟨sid, ch, vol, sep, pitch, rfl⟩⟩⟩
    | pitchZero hpitch => exact ⟨rfl, .inl ⟨rfl, sid, ch, vol, sep, by rw [hpitch]⟩⟩
  | update _ hfault hloop =>
    obtain ⟨hresp, hreason⟩ :=
      updateLoop_faultedByFill (turnsLeft_lt_updateBound s) hfault t hloop hfaulted
    exact ⟨hresp, .inr ⟨hreason, .inl rfl⟩⟩
  | simple _ hfault v =>
    exact absurd hfaulted (hkept (simpleEffect_fault i s).1)

end Sys2Proof.Machine
end

section
/-! Proofs about single steps, whatever the event: what a step can leave, the sticky fault (60_exceptions.md §2), source
memory and parameters (20_memory.md §1, 10_state.md §1), and the buffers in give order (70_reset_and_hazards.md §3). -/

namespace Sys2Proof.Machine

/-! ## Everything a step can leave -/

/-- The state after the host's read of the response (00_scope.md R8). -/
def heard (s : State) : State := { s with responses := s.responses ++ [s.resp] }

/-- Everything a step can do: nothing, answer an illegal word, run a command, play a buffer, reset. -/
inductive StepOutcome (s : State) : State → Prop
  | idle (hin : s.inputs = []) : StepOutcome s s
  | illegal (w : CmdWord) (rest : List Event) (hin : s.inputs = .command w :: rest) (v : RespWord) :
      StepOutcome s (heard (respond { s with inputs := rest } v))
  | command (w : CmdWord) (rest : List Event) (i : Instr) (t : State) (hin : s.inputs = .command w :: rest)
      (h : exec i { s with inputs := rest } = .next t) : StepOutcome s (heard t)
  | sinkPlay (rest : List Event) (hin : s.inputs = .sinkPlay :: rest) : StepOutcome s (playOnce { s with inputs := rest })
  | reset (rest : List Event) (hin : s.inputs = .reset :: rest) : StepOutcome s (applyReset { s with inputs := rest })

/-- What an illegal word leaves (R262, R265). -/
theorem exists_illegalWord_eq (s : State) : ∃ v, illegalWord s = .next (respond s v) := by
  unfold illegalWord preamble
  split_ifs
  · exact ⟨_, rfl⟩
  · exact ⟨_, rfl⟩

theorem answered_eq_next {r : Result} {t : State} (h : answered r = .next t) : ∃ u, r = .next u ∧ t = heard u := by
  cases r with
  | next u =>
    cases h
    exact ⟨u, rfl, rfl⟩
  | fault f => cases h
  | refused x => cases h

theorem step_outcome {s t : State} (h : step s = .next t) : StepOutcome s t := by
  cases hin : s.inputs with
  | nil =>
    rw [step_idle hin] at h
    cases h
    exact .idle hin
  | cons e rest =>
    rw [step_serves hin] at h
    cases e with
    | sinkPlay =>
      cases h
      exact .sinkPlay rest hin
    | reset =>
      cases h
      exact .reset rest hin
    | command w =>
      rw [serve_command] at h
      obtain ⟨u, hu, rfl⟩ := answered_eq_next h
      cases hw : decode w with
      | ok i =>
        rw [serveWord_of_decode_ok hw] at hu
        exact .command w rest i u hin hu
      | error r =>
        obtain ⟨v, hv⟩ := exists_illegalWord_eq { s with inputs := rest }
        rw [serveWord_of_decode_error hw, hv] at hu
        cases hu
        exact .illegal w rest hin v

/-! ## The sticky fault (R262) -/

/-- Settles O14: a faulted block's commands answer alone, and a play does not touch the fault. -/
theorem faultStaysUntilReset : Obligations.FaultStaysUntilReset := by
  intro s t hfault hevent h
  cases step_outcome h with
  | idle => exact ⟨hfault, rfl⟩
  | illegal w rest hin v => exact ⟨hfault, rfl⟩
  | command w rest i u hin hexec =>
    rw [exec_of_faulted (s := { s with inputs := rest }) hfault] at hexec
    cases hexec
    exact ⟨hfault, rfl⟩
  | sinkPlay rest =>
    rw [playOnce_faulted, playOnce_faultReason]
    exact ⟨hfault, rfl⟩
  | reset rest hin => exact absurd (by rw [hin, List.head?_cons]) hevent

/-! ## Source memory and parameters (R52, R56) -/

theorem step_cfg_mem {s t : State} (h : step s = .next t) : t.cfg = s.cfg ∧ t.mem = s.mem := by
  cases step_outcome h with
  | idle => exact ⟨rfl, rfl⟩
  | illegal w rest hin v => exact ⟨rfl, rfl⟩
  | command w rest i u hin hexec =>
    obtain ⟨hcfg, hmem, -⟩ := globalFieldWriters i _ u hexec
    exact ⟨hcfg, hmem⟩
  | sinkPlay rest => simp
  | reset rest hin => exact ⟨rfl, rfl⟩

/-- Settles O38: no event of a step writes the configuration or source memory. -/
theorem sourceMemoryConstant : Obligations.SourceMemoryConstant := by
  intro s t h
  obtain ⟨hcfg, hmem⟩ := step_cfg_mem h
  exact ⟨hcfg, fun a => by rw [hmem]⟩

/-! ## The buffers in give order (R298) -/

/-- The samples of a queued buffer that the sink will play (R234, R235). -/
def Filled.content (f : Filled) : List Pcm := f.buffer.samples.take f.count

/-- What has been played and what is queued, in give order. -/
def given (s : State) : List (List Pcm) := s.played ++ s.filled.map Filled.content

/-- A play moves the oldest queued buffer to the end of what was played. -/
theorem given_playOnce (s : State) : given (playOnce s) = given s := by
  cases hfilled : s.filled with
  | nil => rw [playOnce_of_none_filled hfilled]
  | cons f fs => simp [playOnce_of_filled hfilled, given, hfilled, Filled.content]

theorem given_playSteps (k : Nat) (s : State) : given (playSteps k s) = given s := by
  induction k generalizing s with
  | zero => rfl
  | succ k ih => rw [playSteps, ih, given_playOnce]

theorem given_sinkPoint (s : State) : given (sinkPoint s) = given s :=
  given_playSteps _ { s with draws := { s.draws with plays := s.draws.plays.tail } }

theorem given_sinkTake {s t : State} {b : Buffer} (h : sinkTake s = some (b, t)) : given t = given s := by
  obtain ⟨-, rfl⟩ := sinkTake_eq_some h
  rfl

theorem given_filledState (s : State) (b : Buffer) : given (filledState s b) = given s := by
  rw [given, filledState_played, filledState_filled, given]

theorem given_faultedFill (s : State) (b : Buffer) : given (faultedFill s b) = given s := by
  rw [given, faultedFill_played, faultedFill_filled, given]

/-- A give appends the core's buffer (R234). -/
theorem given_sinkGive {s : State} {b : Buffer} (h : s.core = some b) (n : Nat) :
    given (sinkGive s n) = given s ++ [b.samples.take n] := by
  simp [sinkGive_of_core h, given, Filled.content]

theorem given_prefix_sinkGive (s : State) (n : Nat) : given s <+: given (sinkGive s n) := by
  cases hcore : s.core with
  | none => simp [sinkGive, hcore]
  | some b => simp [given_sinkGive hcore]

theorem updateLoop_given {k : Nat} {s t : State} {n : Nat} (h : updateLoop k s n = .next t) : given s <+: given t :=
  updateLoop_keeps (P := fun u => given s <+: given u)
    (fun u hu => by rwa [given_sinkPoint])
    (fun _ _ _ htake hu => by rwa [given_sinkTake htake])
    (fun u b hu => by rwa [given_filledState])
    (fun u b hu => by rwa [given_faultedFill])
    (fun u m hu => hu.trans (given_prefix_sinkGive u m))
    (fun _ _ hu => hu) k s n t h (List.prefix_refl _)

/-- No command takes back what was given. -/
theorem exec_given {i : Instr} {s t : State} (h : exec i s = .next t) : given s <+: given t := by
  obtain ⟨-, -, -, -, -, -, -, -, -, -, -, hbuffers, -⟩ := globalFieldWriters i s t h
  by_cases hi : i = .updateSound
  · subst hi
    obtain ⟨v, e⟩ | ⟨-, -, e⟩ := exec_updateSound_cases s
    · rw [e] at h
      cases h
      exact List.prefix_refl _
    · exact updateLoop_given (e ▸ h)
  · have hsame := mt hbuffers hi
    simp only [ne_eq, not_or, not_not] at hsame
    obtain ⟨-, -, hfilled, hplayed⟩ := hsame
    rw [given, given, hfilled, hplayed]

/-- Settles O33: a play moves within the give order, a give appends to it, and nothing but a reset takes from it. -/
theorem filledBuffersKeepTheirMix : Obligations.FilledBuffersKeepTheirMix := by
  intro s t hevent h
  have hprefix : given s <+: given t := by
    cases step_outcome h with
    | idle => exact List.prefix_refl _
    | illegal w rest hin v => exact List.prefix_refl _
    | command w rest i u hin hexec => exact exec_given (s := { s with inputs := rest }) (t := u) hexec
    | sinkPlay rest =>
      rw [given_playOnce]
      exact List.prefix_refl _
    | reset rest hin => exact absurd (by rw [hin, List.head?_cons]) hevent
  obtain ⟨new, hnew⟩ := hprefix
  exact ⟨new, hnew.symm⟩

end Sys2Proof.Machine
end

section
/-! Proofs about the machine's invariant (10_state.md §2, §3, §5, 20_memory.md §4, 60_exceptions.md §2): reset meets it,
and every step from a state that meets it answers a next state that does. -/

namespace Sys2Proof.Machine

/-! ## Channels that keep the invariant -/

theorem stopped_inRange {c : Config} {x : Channel} (h : x.InRange c) : x.stopped.InRange c := by
  obtain ⟨hblock, -, hrest⟩ := h
  exact ⟨hblock, Nat.zero_le _, hrest⟩

theorem positioned_of_inactive {x : Channel} (h : x.decodedCount = 0) : x.Positioned :=
  fun hne => absurd h hne

theorem stopped_positioned (x : Channel) : x.stopped.Positioned := positioned_of_inactive rfl

/-- A gain from 0 to 128 fits its byte. -/
theorem toNat_ofInt_gain {g bound : Int} (h : 0 ≤ g) (hle : g ≤ bound) (hbound : bound ≤ 128) :
    ((BitVec.ofInt 8 g).toNat : Int) ≤ bound := by
  rw [BitVec.toNat_ofInt]
  omega

/-- The gains of a setting are in range, whatever the channel's were (R145). -/
theorem withGains_inRange {c : Config} {x : Channel} (h : x.InRange c) (vol sep : BitVec 8) :
    (x.withGains vol sep).InRange c := by
  obtain ⟨hblock, hcount, hcursor, hcoef, -, -⟩ := h
  have hleft := toNat_ofInt_gain (leftGain_nonneg vol.toNat sep.toNat) (leftGain_le vol sep) (by decide)
  have hright := toNat_ofInt_gain (rightGain_nonneg vol.toNat sep.toNat) (rightGain_le vol sep) (by decide)
  exact ⟨hblock, hcount, hcursor, hcoef, Int.ofNat_le.mp hleft, Int.ofNat_le.mp hright⟩

/-- The channel a start sets up is in range: the cursor at the payload's first byte, the coefficient within R144. -/
theorem startedChannel_inRange {s : State} (hc : s.cfg.Legal) {ch : BitVec 8} (h : (chan s ch.toNat).InRange s.cfg)
    (pitch : BitVec 8) (hit : Hit) (hdr : List Byte) (fmt : Format) :
    (startedChannel s ch pitch hit (lumpHeader hdr) fmt).InRange s.cfg := by
  obtain ⟨hblock, hcount, -, -, hgains⟩ := h
  have hcoef := smoothCoefOf_le s.cfg (lumpHeader hdr).rate hc.2.1.1
  refine ⟨hblock, hcount, ?_, ?_, hgains⟩
  · rw [startedChannel_srcPos, startedChannel_srcEnd]
    omega
  · exact (Nat.mod_le _ _).trans hcoef

/-- A channel just decoded from its start is positioned at its first sample. -/
theorem positioned_of_offset_zero {x : Channel} (h : x.offset = 0) : x.Positioned := by
  intro hne
  have hpos : x.decodedCount.toNat ≠ 0 := fun h0 => hne (BitVec.eq_of_toNat_eq h0)
  rw [h, BitVec.ofNat_eq_ofNat, BitVec.toNat_zero]
  omega

theorem chan_mem {s : State} {c : Nat} (h : c < s.ch.length) : chan s c ∈ s.ch := by
  rw [chan, List.getD_eq_getElem _ _ h]
  exact List.getElem_mem h

/-! ## The invariant of a state, in parts -/

/-- The buffers of a state: each in exactly one ownership state, all elements there, the filled ones full. -/
def State.PoolOk (s : State) : Prop :=
  (s.buffers.map Buffer.id).Perm (List.range s.cfg.numBuffers) ∧
  (∀ b ∈ s.buffers, b.samples.length = 2 * s.cfg.bufferFrames) ∧ ∀ f ∈ s.filled, f.count = 2 * s.cfg.bufferFrames

/-- The invariant but for the buffer in `Core`, which holds within the loop of `UPDATE_SOUND` too. -/
structure State.LoopOk (s : State) : Prop where
  legal : s.cfg.Legal
  channels : s.ChannelsOk
  fade : s.FadeOk
  pool : s.PoolOk
  fault : s.FaultOk
  mem : Memory.wf s.mem

theorem inv_iff {s : State} : s.Inv ↔ s.LoopOk ∧ (s.faulted = false → s.core = none) := by
  constructor
  · rintro ⟨hlegal, hchannels, hfade, ⟨hids, hlengths, hcounts, hcore⟩, hfault, hmem⟩
    exact ⟨⟨hlegal, hchannels, hfade, ⟨hids, hlengths, hcounts⟩, hfault, hmem⟩, hcore⟩
  · rintro ⟨⟨hlegal, hchannels, hfade, ⟨hids, hlengths, hcounts⟩, hfault, hmem⟩, hcore⟩
    exact ⟨hlegal, hchannels, hfade, ⟨hids, hlengths, hcounts, hcore⟩, hfault, hmem⟩

theorem State.Inv.loopOk {s : State} (h : s.Inv) : s.LoopOk := (inv_iff.mp h).1

theorem State.Inv.core_eq_none {s : State} (h : s.Inv) (hfault : s.faulted = false) : s.core = none :=
  (inv_iff.mp h).2 hfault

/-- A state that differs in channels in range and positioned keeps the invariant. -/
theorem State.Inv.with_channels {s : State} (h : s.Inv) {chs : List Channel} (hlen : chs.length = s.ch.length)
    (hrange : ∀ x ∈ chs, x.InRange s.cfg) (hpos : s.faulted = false → ∀ x ∈ chs, x.Positioned) :
    State.Inv { s with ch := chs } := by
  obtain ⟨hlegal, ⟨hcount, -, -⟩, hrest⟩ := h
  exact ⟨hlegal, ⟨hlen.trans hcount, hrange, hpos⟩, hrest⟩

theorem setChan_inv {s : State} (h : s.Inv) (c : Nat) {x : Channel} (hrange : x.InRange s.cfg)
    (hpos : s.faulted = false → x.Positioned) : (setChan s c x).Inv := by
  obtain ⟨-, hranges, hpositions⟩ := h.loopOk.channels
  refine h.with_channels List.length_set (fun y hy => ?_) (fun hfault y hy => ?_)
  · obtain hy | rfl := List.mem_or_eq_of_mem_set hy
    · exact hranges y hy
    · exact hrange
  · obtain hy | rfl := List.mem_or_eq_of_mem_set hy
    · exact hpositions hfault y hy
    · exact hpos hfault

theorem stopAll_inv {s : State} (h : s.Inv) : (stopAll s).Inv := by
  obtain ⟨-, hranges, -⟩ := h.loopOk.channels
  refine h.with_channels (List.length_map _) (fun y hy => ?_) (fun _ y hy => ?_)
  · obtain ⟨x, hx, rfl⟩ := List.mem_map.mp hy
    exact stopped_inRange (hranges x hx)
  · obtain ⟨x, hx, rfl⟩ := List.mem_map.mp hy
    exact stopped_positioned x

theorem State.Inv.chan_inRange {s : State} (h : s.Inv) {c : Nat} (hc : c < s.cfg.numChannels) :
    (chan s c).InRange s.cfg ∧ (s.faulted = false → (chan s c).Positioned) := by
  obtain ⟨hcount, hranges, hpositions⟩ := h.loopOk.channels
  have hmem : chan s c ∈ s.ch := chan_mem (hcount ▸ hc)
  exact ⟨hranges _ hmem, fun hfault => hpositions hfault _ hmem⟩

theorem stopChannel_inv {s : State} (h : s.Inv) {c : Nat} (hc : c < s.cfg.numChannels) : (stopChannel s c).Inv :=
  setChan_inv h c (stopped_inRange (h.chan_inRange hc).1) fun _ => stopped_positioned _

theorem afterLookup_inv {s : State} (h : s.Inv) (sid : BitVec 16) : (afterLookup s sid).Inv := by
  cases hit : assetOf s.cfg sid with
  | none => rwa [afterLookup_of_miss hit]
  | some hit' =>
    rw [afterLookup_of_hit hit, noteSpan_eq]
    exact h

/-- A fault with a reason keeps the invariant: a faulted block owes no position and no free core (R262, R263). -/
theorem raiseFault_inv {s : State} (h : s.Inv) {r : FaultReason} (hr : r ≠ .none) : (raiseFault s r).Inv := by
  obtain ⟨hlegal, ⟨hcount, hranges, -⟩, hfade, ⟨hids, hlengths, hcounts, -⟩, -, hmem⟩ := h
  exact ⟨hlegal, ⟨hcount, hranges, by simp⟩, hfade, ⟨hids, hlengths, hcounts, by simp⟩, by simpa [State.FaultOk] using hr, hmem⟩

/-! ## Commands other than `UPDATE_SOUND` -/

theorem simpleEffect_inv {s : State} (h : s.Inv) (i : Instr) : (simpleEffect i s).Inv := by
  cases i with
  | shutdown => exact stopAll_inv h
  | lookup sid => exact afterLookup_inv h sid
  | updateParams ch vol sep =>
    unfold simpleEffect
    dsimp only
    split_ifs with hgate
    · obtain ⟨hrange, hpos⟩ := h.chan_inRange (gate_eq_true_iff.mp hgate).2
      exact setChan_inv h _ (withGains_inRange hrange vol sep) hpos
    · exact h
  | stopSound ch =>
    unfold simpleEffect
    dsimp only
    split_ifs with hgate
    · exact stopChannel_inv h (gate_eq_true_iff.mp hgate).2
    · exact h
  | setMusic arg => exact h
  | fadeTo arg =>
    obtain ⟨hlegal, hchannels, hfade, hrest⟩ := h
    exact ⟨hlegal, hchannels, request_ok arg (f := ⟨s.fadeState, s.fadeLevel⟩) hfade, hrest⟩
  | _ => exact h

theorem lookedUp_inv {s : State} (h : s.Inv) {sid : BitVec 16} {ch : BitVec 8} (hgate : gate s ch = true) :
    (lookedUp s sid ch).Inv :=
  afterLookup_inv (stopChannel_inv h (gate_eq_true_iff.mp hgate).2) sid

/-- The channel a start sets up is in range and, being stopped, positioned. -/
theorem startedChannel_of_inv {s : State} (h : s.Inv) {ch : BitVec 8} (hgate : gate s ch = true) (sid : BitVec 16)
    (pitch : BitVec 8) (hit : Hit) (hdr : List Byte) (fmt : Format) :
    (startedChannel (lookedUp s sid ch) ch pitch hit (lumpHeader hdr) fmt).InRange s.cfg ∧
    (startedChannel (lookedUp s sid ch) ch pitch hit (lumpHeader hdr) fmt).decodedCount = 0 := by
  have hch := (gate_eq_true_iff.mp hgate).2
  have hup := lookedUp_inv h (sid := sid) hgate
  have hlt : ch.toNat < s.ch.length := h.loopOk.channels.1 ▸ hch
  have hrange := (hup.chan_inRange (c := ch.toNat) (by simpa using hch)).1
  refine ⟨?_, ?_⟩
  · simpa using startedChannel_inRange hup.loopOk.legal hrange pitch hit hdr fmt
  · rw [startedChannel_count, chan_lookedUp hlt, Channel.stopped]

theorem StartOutcome.inv {s t : State} {sid : BitVec 16} {ch vol sep pitch : BitVec 8}
    (h : StartOutcome s sid ch vol sep pitch t) (hs : s.Inv) (hgate : gate s ch = true) : t.Inv := by
  have hup := lookedUp_inv hs (sid := sid) hgate
  cases h with
  | failed => exact hup
  | headerBus => exact raiseFault_inv hup (by decide)
  | pitchZero => exact raiseFault_inv hup (by decide)
  | blockBus hit hdr fmt =>
    obtain ⟨hrange, hcount⟩ := startedChannel_of_inv hs hgate sid pitch hit hdr fmt
    exact raiseFault_inv (setChan_inv hup _ (by simpa using hrange) fun _ => positioned_of_inactive hcount) (by decide)
  | started hit hdr fmt y _ _ hnext =>
    obtain ⟨hrange, -⟩ := startedChannel_of_inv hs hgate sid pitch hit hdr fmt
    have hy : y.InRange (lookedUp s sid ch).cfg :=
      decodeNext_inRange hup.loopOk.legal hnext (by simpa using hrange)
    have hoffset : y.offset = 0 := decodeNext_offset hnext
    exact setChan_inv hup _ (withGains_inRange hy vol sep) fun _ => positioned_of_offset_zero hoffset

/-! ## Buffers within the loop -/

theorem State.PoolOk.of_perm {s t : State} (h : s.PoolOk) (hcfg : t.cfg = s.cfg) (hperm : t.buffers.Perm s.buffers)
    (hfilled : ∀ f ∈ t.filled, f ∈ s.filled ∨ f.count = 2 * s.cfg.bufferFrames) : t.PoolOk := by
  obtain ⟨hids, hlengths, hcounts⟩ := h
  rw [State.PoolOk, hcfg]
  refine ⟨(hperm.map Buffer.id).trans hids, fun b hb => hlengths b (hperm.mem_iff.mp hb), fun f hf => ?_⟩
  exact (hfilled f hf).elim (hcounts f) id

theorem sinkPoint_poolOk {s : State} (h : s.PoolOk) : (sinkPoint s).PoolOk :=
  h.of_perm (sinkPoint_cfg s) (sinkPoint_buffers s) fun _ hf => .inl (sinkPoint_filled_sub s hf)

/-- A take from a state with nothing in `Core` moves a buffer there. -/
theorem sinkTake_poolOk {s t : State} {b : Buffer} (h : s.PoolOk) (hcore : s.core = none)
    (htake : sinkTake s = some (b, t)) : t.PoolOk := by
  obtain ⟨-, hperm, e⟩ := sinkTake_cases htake
  have hcore' : t.core = some b := by rw [e]
  have hfilled : t.filled = s.filled := by rw [e]
  refine h.of_perm (by rw [e]) ?_ fun f hf => .inl (hfilled ▸ hf)
  rw [State.buffers, State.buffers, hcore, hcore', hfilled, Option.toList_some, Option.toList_none, List.append_nil]
  exact (((List.perm_append_singleton b t.empty).trans hperm.symm).append_right _)

/-- New samples in the core's buffer leave every buffer where it is. -/
theorem State.PoolOk.of_core_samples {s t : State} {b : Buffer} {xs : List Pcm} (h : s.PoolOk) (hcore : s.core = some b)
    (hcore' : t.core = some ⟨b.id, xs⟩) (hcfg : t.cfg = s.cfg) (hempty : t.empty = s.empty)
    (hfilled : t.filled = s.filled) (hxs : xs.length = 2 * s.cfg.bufferFrames) : t.PoolOk := by
  obtain ⟨hids, hlengths, hcounts⟩ := h
  simp only [State.buffers, hcore, Option.toList_some, List.mem_append, List.mem_singleton] at hids hlengths
  rw [State.PoolOk, hcfg, hfilled]
  simp only [State.buffers, hcore', hempty, hfilled, Option.toList_some, List.mem_append, List.mem_singleton]
  refine ⟨by simpa using hids, ?_, hcounts⟩
  rintro b' ((hb | rfl) | hb)
  · exact hlengths b' (.inl (.inl hb))
  · exact hxs
  · exact hlengths b' (.inr hb)

theorem fadedMix_length (s : State) : (fadedMix s).buf.length = 2 * s.cfg.bufferFrames := by
  rw [fadedMix, fadeBuffer_length, mixChannels_length, baseContent_length]

theorem filledState_poolOk {s : State} {b : Buffer} (h : s.PoolOk) (hcore : s.core = some b) :
    (filledState s b).PoolOk :=
  h.of_core_samples hcore (filledState_fade s b).1 (by simp) (filledState_empty s b) (filledState_filled s b)
    (fadedMix_length s)

theorem faultedFill_poolOk {s : State} {b : Buffer} (h : s.PoolOk) (hcore : s.core = some b) :
    (faultedFill s b).PoolOk :=
  h.of_core_samples hcore (faultedFill_core s b) (by simp) (by simp) (by simp)
    (by rw [mixChannels_length, baseContent_length])

/-- A give moves the core's buffer to the queue. -/
theorem sinkGive_poolOk {s : State} (h : s.PoolOk) : (sinkGive s (2 * s.cfg.bufferFrames)).PoolOk := by
  cases hcore : s.core with
  | none => rwa [sinkGive, hcore]
  | some b =>
    rw [sinkGive_of_core hcore]
    refine h.of_perm rfl ?_ fun f hf => ?_
    · simp only [State.buffers, hcore, Option.toList_some, Option.toList_none, List.append_nil, List.map_append,
        List.map_cons, List.map_nil, List.append_assoc]
      exact List.Perm.append_left _ List.perm_append_comm
    · obtain hf | hf := List.mem_append.mp hf
      · exact .inl hf
      · rw [List.mem_singleton.mp hf]
        exact .inr rfl

/-! ## The invariant within the loop -/

/-- A state that differs in its buffers, draws and observations alone keeps all but the pool's part. -/
theorem State.LoopOk.with_pool {s t : State} (h : s.LoopOk) (ht : t = { s with
    empty := t.empty, core := t.core, filled := t.filled, draws := t.draws, played := t.played })
    (hpool : t.PoolOk) : t.LoopOk := by
  obtain ⟨hlegal, hchannels, hfade, -, hfault, hmem⟩ := h
  rw [ht] at hpool ⊢
  exact ⟨hlegal, hchannels, hfade, hpool, hfault, hmem⟩

theorem respond_loopOk {s : State} (h : s.LoopOk) (v : RespWord) : (respond s v).LoopOk :=
  ⟨h.legal, h.channels, h.fade, h.pool, h.fault, h.mem⟩

theorem sinkPoint_loopOk {s : State} (h : s.LoopOk) : (sinkPoint s).LoopOk :=
  h.with_pool (by rw [sinkPoint_eq]) (sinkPoint_poolOk h.pool)

theorem sinkTake_loopOk {s t : State} {b : Buffer} (h : s.LoopOk) (hcore : s.core = none)
    (htake : sinkTake s = some (b, t)) : t.LoopOk := by
  obtain ⟨-, e⟩ := sinkTake_eq_some htake
  exact h.with_pool (by rw [e]) (sinkTake_poolOk h.pool hcore htake)

theorem sinkGive_loopOk {s : State} (h : s.LoopOk) : (sinkGive s (2 * s.cfg.bufferFrames)).LoopOk := by
  refine h.with_pool ?_ (sinkGive_poolOk h.pool)
  unfold sinkGive
  split <;> rfl

/-- On a state without fault that keeps the invariant, a fill completes or faults on the bus, and no other way. -/
theorem State.LoopOk.fillVerdict_cases {s : State} (h : s.LoopOk) (hfault : s.faulted = false) :
    fillVerdict s = .bus ∨
    (fillVerdict s = .ok ∧ ∀ y ∈ (mixChannels s s.ch (baseContent s)).chans, y.Positioned) :=
  mixChannels_cases s h.legal s.ch (baseContent s) h.channels.2.1 (h.channels.2.2 hfault)

theorem filledState_loopOk {s : State} {b : Buffer} (h : s.LoopOk) (hcore : s.core = some b)
    (hfault : s.faulted = false) (hok : fillVerdict s = .ok) : (filledState s b).LoopOk := by
  obtain ⟨hcount, hranges, -⟩ := h.channels
  have hpos : ∀ y ∈ (mixChannels s s.ch (baseContent s)).chans, y.Positioned := by
    obtain hbus | ⟨-, hpos⟩ := h.fillVerdict_cases hfault
    · rw [hok] at hbus
      cases hbus
    · exact hpos
  obtain ⟨-, hstate, hlevel⟩ := filledState_fade s b
  refine ⟨by simpa using h.legal, ⟨?_, ?_, fun _ => ?_⟩, ?_, filledState_poolOk h.pool hcore, by simpa [State.FaultOk] using h.fault,
    by simpa using h.mem⟩
  · rw [filledState_ch, mixChannels_count, filledState_cfg, hcount]
  · rw [filledState_ch, filledState_cfg]
    exact mixChannels_inRange s h.legal s.ch _ hranges
  · rwa [filledState_ch]
  · rw [State.FadeOk, hstate, hlevel]
    exact fadeBuffer_ok s.cfg ⟨s.fadeState, s.fadeLevel⟩ _ h.fade

theorem faultedFill_inv {s : State} {b : Buffer} (h : s.LoopOk) (hcore : s.core = some b) :
    (faultedFill s b).Inv := by
  obtain ⟨hcount, hranges, -⟩ := h.channels
  refine inv_iff.mpr ⟨⟨by simpa using h.legal, ⟨?_, ?_, by simp⟩, by simpa [State.FadeOk] using h.fade,
    faultedFill_poolOk h.pool hcore, by simp [State.FaultOk], by simpa using h.mem⟩, by simp⟩
  · rw [faultedFill_ch, mixChannels_count, faultedFill_cfg, hcount]
  · rw [faultedFill_ch, faultedFill_cfg]
    exact mixChannels_inRange s h.legal s.ch _ hranges

/-- From a turn's start to its fill: the invariant's parts, with the taken buffer in `Core`. -/
theorem State.Inv.taken {s s1 : State} {b : Buffer} (h : s.Inv) (hfault : s.faulted = false)
    (htake : sinkTake (sinkPoint s) = some (b, s1)) :
    (sinkPoint s1).LoopOk ∧ (sinkPoint s1).core = some b ∧ (sinkPoint s1).faulted = false := by
  have hcore : (sinkPoint s).core = none := by rw [sinkPoint_core, h.core_eq_none hfault]
  obtain ⟨-, e⟩ := sinkTake_eq_some htake
  refine ⟨sinkPoint_loopOk (sinkTake_loopOk (sinkPoint_loopOk h.loopOk) hcore htake), ?_, ?_⟩
  · rw [sinkPoint_core, e]
  · rw [sinkPoint_faulted, e, sinkPoint_faulted, hfault]

/-- A whole turn keeps the invariant. -/
theorem turned_inv {s s1 : State} {b : Buffer} (h : s.Inv) (hfault : s.faulted = false)
    (htake : sinkTake (sinkPoint s) = some (b, s1)) (hok : fillVerdict (sinkPoint s1) = .ok) :
    (turned s1 b).Inv ∧ (turned s1 b).faulted = false := by
  obtain ⟨htaken, hcore, hfault'⟩ := h.taken hfault htake
  have hfilled := sinkPoint_loopOk (filledState_loopOk htaken hcore hfault' hok)
  have hcfg : s1.cfg = (sinkPoint (filledState (sinkPoint s1) b)).cfg := by simp
  refine ⟨inv_iff.mpr ⟨?_, fun _ => by rw [turned, sinkGive_core]⟩, ?_⟩
  · rw [turned, hcfg]
    exact sinkGive_loopOk hfilled
  · rw [turned_faulted, ← sinkPoint_faulted, hfault']

/-- The loop from a state without fault that meets the invariant answers a next state that meets it. -/
theorem updateLoop_inv {k : Nat} {s : State} {n : Nat} (h : s.Inv) (hfault : s.faulted = false) (hk : turnsLeft s < k) :
    ∃ t, updateLoop k s n = .next t ∧ t.Inv := by
  refine updateLoop_rule (I := fun u _ => u.Inv ∧ u.faulted = false) (Post := fun r => ∃ t, r = .next t ∧ t.Inv)
    ?_ ?_ ?_ ?_ hk ⟨h, hfault⟩
  · rintro u m ⟨hu, hufault⟩ -
    refine ⟨_, rfl, inv_iff.mpr ⟨?_, fun _ => ?_⟩⟩
    · exact respond_loopOk (sinkPoint_loopOk hu.loopOk) _
    · rw [respond_core, sinkPoint_core, hu.core_eq_none hufault]
  · rintro u m b s1 ⟨hu, hufault⟩ htake hok
    exact turned_inv hu hufault htake hok
  · rintro u m b s1 ⟨hu, hufault⟩ htake -
    obtain ⟨htaken, hcore, -⟩ := hu.taken hufault htake
    exact ⟨_, rfl, faultedFill_inv htaken hcore⟩
  · rintro u m b s1 ⟨hu, hufault⟩ htake hnone
    obtain ⟨htaken, -, hfault'⟩ := hu.taken hufault htake
    obtain hbus | ⟨hok, -⟩ := htaken.fillVerdict_cases hfault'
    · rw [hnone] at hbus
      cases hbus
    · rw [hnone] at hok
      cases hok

/-! ## Every step -/

theorem exec_inv {i : Instr} {s t : State} (h : s.Inv) (hexec : exec i s = .next t) : t.Inv := by
  cases exec_outcome hexec with
  | answer _ v => exact h
  | setupFails v => exact h
  | setup => exact stopAll_inv h
  | start sid ch vol sep pitch _ hgate _ hout => exact hout.inv h hgate
  | simple _ _ v => exact simpleEffect_inv h i
  | update _ hfault hloop =>
    obtain ⟨u, hu, hinv⟩ := updateLoop_inv h (n := 0) hfault (turnsLeft_lt_updateBound s)
    rw [hloop] at hu
    cases hu
    exact hinv

/-- From a state that meets the invariant every command answers a next state. -/
theorem State.Inv.exec_next {s : State} (h : s.Inv) (i : Instr) : ∃ t, exec i s = .next t := by
  by_cases hi : i = .updateSound
  · subst hi
    obtain ⟨v, e⟩ | ⟨hfault, -, e⟩ := exec_updateSound_cases s
    · exact ⟨_, e⟩
    · obtain ⟨t, ht, -⟩ := updateLoop_inv h (n := 0) hfault (turnsLeft_lt_updateBound s)
      exact ⟨t, e.trans ht⟩
  · exact exec_next_of_ne_updateSound hi s

theorem playOnce_inv {s : State} (h : s.Inv) : (playOnce s).Inv := by
  refine inv_iff.mpr ⟨State.LoopOk.with_pool h.loopOk ?_ ?_, fun hfault => ?_⟩
  · unfold playOnce
    split <;> rfl
  · exact State.PoolOk.of_perm h.loopOk.pool (playOnce_cfg s) (playOnce_buffers s)
      fun f hf => .inl (playOnce_filled_sub s hf)
  · rw [playOnce_faulted] at hfault
    rw [playOnce_core, h.core_eq_none hfault]

theorem resetChannel_inRange (c : Config) : (Channel.reset c).InRange c := by
  simp [Channel.reset, Channel.InRange]

/-- The reset state of a legal configuration meets the invariant, whatever canonical source memory stands around it. -/
theorem applyReset_inv {s : State} (hlegal : s.cfg.Legal) (hmem : Memory.wf s.mem) : (applyReset s).Inv := by
  have hchannel {x : Channel} (hx : x ∈ (applyReset s).ch) : x = Channel.reset s.cfg := List.eq_of_mem_replicate hx
  have hbuffers : (applyReset s).buffers = (List.range s.cfg.numBuffers).map (Buffer.reset s.cfg) := by
    simp [State.buffers, State.resetWith]
  refine ⟨hlegal, ⟨List.length_replicate, fun x hx => ?_, fun _ x hx => ?_⟩, ?_, ⟨?_, fun b hb => ?_, ?_, ?_⟩, ?_, hmem⟩
  · rw [hchannel hx]
    exact resetChannel_inRange s.cfg
  · exact positioned_of_inactive (by rw [hchannel hx]; rfl)
  · simp [State.FadeOk, State.resetWith]
  · rw [hbuffers, List.map_map]
    exact (List.map_id _) ▸ .refl _
  · rw [hbuffers] at hb
    obtain ⟨id, -, rfl⟩ := List.mem_map.mp hb
    exact List.length_replicate
  · simp [State.resetWith]
  · simp [State.resetWith]
  · simp [State.FaultOk, State.resetWith]

/-- Settles O59: the reset state is its own reset. -/
theorem resetMeetsInvariant : Obligations.ResetMeetsInvariant := by
  have hreset : ∀ c : Config, c.Legal → (State.resetWith c).Inv := fun c hc =>
    applyReset_inv (s := State.resetWith c) hc (reset_mem_wf c)
  exact ⟨hreset, hreset defaultConfig (by decide)⟩

/-- What a step leaves meets the invariant where the state before did. -/
theorem StepOutcome.inv {s t : State} (h : StepOutcome s t) (hs : s.Inv) : t.Inv := by
  cases h with
  | idle => exact hs
  | illegal w rest hin v => exact hs
  | command w rest i u hin hexec => exact exec_inv (s := { s with inputs := rest }) (t := u) hs hexec
  | sinkPlay rest => exact playOnce_inv (s := { s with inputs := rest }) hs
  | reset rest => exact applyReset_inv (s := { s with inputs := rest }) hs.loopOk.legal hs.loopOk.mem

/-- A step from a state that meets the invariant answers a next state. -/
theorem State.Inv.step_next {s : State} (h : s.Inv) : ∃ t, step s = .next t := by
  cases hin : s.inputs with
  | nil => exact ⟨s, step_idle hin⟩
  | cons e rest =>
    rw [step_serves hin]
    cases e with
    | sinkPlay => exact ⟨_, serve_sinkPlay _⟩
    | reset => exact ⟨_, serve_reset _⟩
    | command w =>
      rw [serve_command]
      cases hw : decode w with
      | ok i =>
        obtain ⟨t, ht⟩ := State.Inv.exec_next (s := { s with inputs := rest }) h i
        exact ⟨_, by rw [serveWord_of_decode_ok hw, ht, answered_next]⟩
      | error r =>
        obtain ⟨v, hv⟩ := exists_illegalWord_eq { s with inputs := rest }
        exact ⟨_, by rw [serveWord_of_decode_error hw, hv, answered_next]⟩

/-- Settles O60: every event's outcome keeps the invariant, under which the loop of `UPDATE_SOUND` never stops. -/
theorem stepKeepsInvariant : Obligations.StepKeepsInvariant := by
  intro s h
  obtain ⟨t, ht⟩ := State.Inv.step_next h
  exact ⟨t, ht, (step_outcome ht).inv h⟩

end Sys2Proof.Machine
end

section
/-! Proofs about payloads that can be read (20_memory.md §1, 41_channel_manager.md §2, 44_scheduler.md §1): mixing them
never meets the bus, so `UPDATE_SOUND` fills every empty buffer; and an honest asset port names no other payload. -/

namespace Sys2Proof.Machine

/-! ## A channel whose payload can be read -/

/-- What is left of the channel's payload can be read in `s`, active or not (R51). -/
structure Channel.Readable (s : State) (x : Channel) : Prop where
  cursor : x.srcPos.toNat ≤ x.srcEnd.toNat
  space : x.srcEnd.toNat ≤ 2 ^ 32
  bytes : ∀ a, x.srcPos.toNat ≤ a → a < x.srcEnd.toNat → (byteAt s a).isSome = true

/-- A part of a readable payload from its cursor on is admitted (R51). -/
theorem Channel.Readable.memRead {s : State} {x : Channel} (h : x.Readable s) {n : Nat} (hn : n ≤ x.remaining) :
    (memRead s x.srcPos.toNat n).isSome = true := by
  obtain ⟨hcursor, hspace, hbytes⟩ := h
  unfold Channel.remaining at hn
  exact memRead_isSome.mpr (.inr ⟨by omega, fun k hk hk' => hbytes k hk (by omega)⟩)

theorem Channel.Readable.decodeNext_ne_none {s : State} {x : Channel} (h : x.Readable s) : decodeNext s x ≠ none := by
  obtain ⟨bs, hbs⟩ := Option.isSome_iff_exists.mp (h.memRead (Nat.min_le_right (blockBytes s.cfg x.format) x.remaining))
  rw [decodeNext_of_memRead_some hbs]
  simp

/-- A decode moves the cursor within the payload. -/
theorem decodeNext_readable {s : State} {x y : Channel} (hy : decodeNext s x = some y) (h : x.Readable s) :
    y.Readable s := by
  obtain ⟨hcursor, hspace, hbytes⟩ := h
  obtain ⟨bs, -, -, rfl⟩ := decodeNext_cases hy
  have hle := Nat.min_le_right (blockBytes s.cfg x.format) x.remaining
  have hpos := take_srcPos x hle (decodeBlock s.cfg x.format bs)
  have hrem : x.srcPos.toNat + x.remaining = x.srcEnd.toNat := Nat.add_sub_cancel' hcursor
  refine ⟨?_, hspace, fun a ha => hbytes a ?_⟩
  · rw [hpos]
    exact (Nat.add_le_add_left hle _).trans_eq hrem
  · rw [hpos] at ha
    omega

theorem played_readable {s : State} {x : Channel} (h : x.Readable s) (c : Config) (raw : Sample) :
    (x.played c raw).Readable s := by
  rw [played_eq]
  exact ⟨h.cursor, h.space, h.bytes⟩

theorem wrapBlock_readable {s : State} {x : Channel} (h : x.Readable s) : x.wrapBlock.Readable s :=
  ⟨h.cursor, h.space, h.bytes⟩

theorem crossFrame_readable {s : State} {x : Channel} (h : x.Readable s) : (crossFrame s x).chan.Readable s :=
  crossBlocks_keeps (P := Channel.Readable s) s (fun _ => wrapBlock_readable) (fun _ _ => decodeNext_readable) _ x h

theorem mixChannel_readable {s : State} {x : Channel} (h : x.Readable s) (buf : List Pcm) :
    (mixChannel s x buf).chan.Readable s :=
  mixChannel_keeps (P := Channel.Readable s) s (fun _ raw hx => played_readable hx s.cfg raw)
    (fun _ => crossFrame_readable) x buf h

theorem mixChannel_readable_not_bus {s : State} {x : Channel} (h : x.Readable s) (buf : List Pcm) :
    (mixChannel s x buf).verdict ≠ .bus :=
  mixChannel_not_bus (P := Channel.Readable s) s (fun _ raw hx => played_readable hx s.cfg raw)
    (fun _ => wrapBlock_readable) (fun _ _ => decodeNext_readable) (fun _ hx => hx.decodeNext_ne_none) x buf h

/-- A pass over channels whose active ones are readable does not meet the bus. -/
theorem mixChannels_readable_not_bus {s : State} {xs : List Channel}
    (h : ∀ x ∈ xs, x.decodedCount ≠ 0 → x.Readable s) (buf : List Pcm) : (mixChannels s xs buf).verdict ≠ .bus := by
  induction xs generalizing buf with
  | nil => simp [mixChannels]
  | cons x xs ih =>
    obtain ⟨hx, hxs⟩ := List.forall_mem_cons.mp h
    cases hactive : x.active with
    | false =>
      rw [mixChannels_inactive hactive]
      exact ih hxs buf
    | true =>
      by_cases hok : (mixChannel s x buf).verdict = .ok
      · rw [mixChannels_mixed hactive hok]
        exact ih hxs _
      · rw [mixChannels_failed hactive hok]
        exact mixChannel_readable_not_bus (hx ((active_iff x).mp hactive)) buf

theorem mixChannels_readable {s : State} {xs : List Channel} (h : ∀ x ∈ xs, x.decodedCount ≠ 0 → x.Readable s)
    (buf : List Pcm) : ∀ y ∈ (mixChannels s xs buf).chans, y.decodedCount ≠ 0 → y.Readable s := by
  intro y hy hactive
  obtain ⟨c, hc⟩ := List.mem_iff_getElem?.mp hy
  obtain ⟨x, hx, rfl | ⟨hne, b, rfl⟩⟩ := mixChannels_at s xs buf c y hc
  · exact h y (List.mem_of_getElem? hx) hactive
  · exact mixChannel_readable (h x (List.mem_of_getElem? hx) hne) b

/-! ## A state whose payloads can be read -/

theorem State.PayloadReadable.channel {s : State} (h : s.PayloadReadable) (hinv : s.Inv) {x : Channel} (hx : x ∈ s.ch)
    (hactive : x.decodedCount ≠ 0) : x.Readable s := by
  obtain ⟨hspace, hbytes⟩ := h x hx hactive
  obtain ⟨-, -, hcursor, -⟩ := hinv.loopOk.channels.2.1 x hx
  exact ⟨hcursor, hspace, hbytes⟩

/-- What can be read of a payload can be read where more spans are named. -/
theorem Channel.Readable.mono {s t : State} {x : Channel} (h : x.Readable s) (hn : ∀ r ∈ s.named, r ∈ t.named)
    (hm : t.mem = s.mem) : x.Readable t :=
  ⟨h.cursor, h.space, fun a ha ha' => byteAt_mono hn hm (h.bytes a ha ha')⟩

/-- The payloads of a state can be read where those of its active channels can, in a state with no more spans named. -/
theorem payloadReadable_of {s t : State} (hn : ∀ r ∈ s.named, r ∈ t.named) (hm : t.mem = s.mem)
    (h : ∀ x ∈ t.ch, x.decodedCount ≠ 0 → x.Readable s) : t.PayloadReadable := by
  intro x hx hactive
  obtain ⟨-, hspace, hbytes⟩ := (h x hx hactive).mono hn hm
  exact ⟨hspace, hbytes⟩

theorem State.PayloadReadable.congr {s t : State} (h : s.PayloadReadable) (hch : t.ch = s.ch) (hn : t.named = s.named)
    (hm : t.mem = s.mem) : t.PayloadReadable := by
  intro x hx hactive
  obtain ⟨hspace, hbytes⟩ := h x (hch ▸ hx) hactive
  exact ⟨hspace, fun a ha ha' => by rw [byteAt_congr hn hm]; exact hbytes a ha ha'⟩

/-- A taken buffer changes nothing about payloads. -/
theorem sinkTake_payloadReadable {s s1 : State} {b : Buffer} (h : s.PayloadReadable)
    (htake : sinkTake (sinkPoint s) = some (b, s1)) : (sinkPoint s1).PayloadReadable := by
  obtain ⟨-, rfl⟩ := sinkTake_eq_some htake
  exact h.congr (by simp) (by simp) (by simp)

/-! ## The loop of `UPDATE_SOUND` on readable payloads -/

/-- What holds at the start of the turn after `n` turns of `UPDATE_SOUND` from `s`: nothing failed, and `n` full buffers
were given. -/
structure FillsFrom (s u : State) (n : Nat) : Prop where
  inv : u.Inv
  fault : u.faulted = false
  payload : u.PayloadReadable
  cfg : u.cfg = s.cfg
  given : ∃ new : List (List Pcm), new.length = n ∧ given u = given s ++ new ∧
    ∀ b ∈ new, b.length = 2 * s.cfg.bufferFrames

/-- Before a fill on readable payloads: the channels that are active can be read. -/
theorem FillsFrom.readable {s u s1 : State} {n : Nat} {b : Buffer} (h : FillsFrom s u n)
    (htake : sinkTake (sinkPoint u) = some (b, s1)) :
    ∀ x ∈ (sinkPoint s1).ch, x.decodedCount ≠ 0 → x.Readable (sinkPoint s1) := by
  obtain ⟨htaken, -, -⟩ := h.inv.taken h.fault htake
  have hpayload := sinkTake_payloadReadable h.payload htake
  intro x hx hactive
  obtain ⟨hspace, hbytes⟩ := hpayload x hx hactive
  obtain ⟨-, -, hcursor, -⟩ := htaken.channels.2.1 x hx
  exact ⟨hcursor, hspace, hbytes⟩

theorem FillsFrom.fillVerdict_eq_ok {s u s1 : State} {n : Nat} {b : Buffer} (h : FillsFrom s u n)
    (htake : sinkTake (sinkPoint u) = some (b, s1)) : fillVerdict (sinkPoint s1) = .ok := by
  obtain ⟨htaken, -, hfault⟩ := h.inv.taken h.fault htake
  obtain hbus | ⟨hok, -⟩ := htaken.fillVerdict_cases hfault
  · exact absurd hbus (mixChannels_readable_not_bus (h.readable htake) _)
  · exact hok

/-- A whole turn gives the filled buffer (R232, R234). -/
theorem given_turned (s1 : State) (b : Buffer) :
    given (turned s1 b) = given s1 ++ [(fadedMix (sinkPoint s1)).buf.take (2 * s1.cfg.bufferFrames)] := by
  have hcore : (sinkPoint (filledState (sinkPoint s1) b)).core = some ⟨b.id, (fadedMix (sinkPoint s1)).buf⟩ := by
    rw [sinkPoint_core]
    exact (filledState_fade (sinkPoint s1) b).1
  rw [turned, given_sinkGive hcore, given_sinkPoint, given_filledState, given_sinkPoint]

theorem turned_cfg (s1 : State) (b : Buffer) : (turned s1 b).cfg = s1.cfg := by simp [turned]

theorem turned_payloadReadable {s1 : State} {b : Buffer}
    (h : ∀ x ∈ (sinkPoint s1).ch, x.decodedCount ≠ 0 → x.Readable (sinkPoint s1)) : (turned s1 b).PayloadReadable := by
  have hch : (turned s1 b).ch = (mixChannels (sinkPoint s1) (sinkPoint s1).ch (baseContent (sinkPoint s1))).chans := by
    rw [turned, sinkGive_ch, sinkPoint_ch, filledState_ch]
  refine payloadReadable_of (s := sinkPoint s1) (by simp [turned]) (by simp [turned]) ?_
  rw [hch]
  exact mixChannels_readable h _

theorem FillsFrom.turned {s u s1 : State} {n : Nat} {b : Buffer} (h : FillsFrom s u n)
    (htake : sinkTake (sinkPoint u) = some (b, s1)) : FillsFrom s (turned s1 b) (n + 1) := by
  obtain ⟨hinv, hfault⟩ := turned_inv h.inv h.fault htake (h.fillVerdict_eq_ok htake)
  obtain ⟨new, hcount, hgiven, hfull⟩ := h.given
  have hcfg : s1.cfg = s.cfg := by
    obtain ⟨-, rfl⟩ := sinkTake_eq_some htake
    exact (sinkPoint_cfg u).trans h.cfg
  refine ⟨hinv, hfault, turned_payloadReadable (h.readable htake), (turned_cfg s1 b).trans hcfg,
    new ++ [(fadedMix (sinkPoint s1)).buf.take (2 * s1.cfg.bufferFrames)], ?_, ?_, ?_⟩
  · simp [hcount]
  · rw [given_turned, given_sinkTake htake, given_sinkPoint, hgiven, List.append_assoc]
  · intro buf hbuf
    obtain hbuf | hbuf := List.mem_append.mp hbuf
    · exact hfull buf hbuf
    · rw [List.mem_singleton.mp hbuf, List.length_take, fadedMix_length, sinkPoint_cfg, hcfg, Nat.min_self]

/-- What `UPDATE_SOUND` leaves on readable payloads: the state at the start of the last turn, after the sink's last plays,
with nothing left to take. -/
theorem updateLoop_fills {s : State} (h : s.Inv) (hpayload : s.PayloadReadable) (hfault : s.faulted = false) :
    ∃ u n, updateLoop (updateBound s) s 0 = .next (respond (sinkPoint u) (respCount n)) ∧ FillsFrom s u n ∧
      (sinkPoint u).empty = [] := by
  refine updateLoop_rule (I := FillsFrom s) (Post := fun r => ∃ u n,
    r = .next (respond (sinkPoint u) (respCount n)) ∧ FillsFrom s u n ∧ (sinkPoint u).empty = [])
    (fun u n hu hempty => ⟨u, n, rfl, hu, hempty⟩) (fun u n b s1 hu htake _ => hu.turned htake) ?_ ?_
    (turnsLeft_lt_updateBound s) ⟨h, hfault, hpayload, rfl, [], by simp⟩
  · intro u n b s1 hu htake hbus
    rw [hu.fillVerdict_eq_ok htake] at hbus
    cases hbus
  · intro u n b s1 hu htake hnone
    rw [hu.fillVerdict_eq_ok htake] at hnone
    cases hnone

/-- Settles O31: no fill fails on readable payloads, so the loop goes on until nothing is empty, and every turn gives one
full buffer. -/
theorem updateSoundFillsEveryEmptyBuffer : Obligations.UpdateSoundFillsEveryEmptyBuffer := by
  intro s hinv hpayload hfault hinit
  obtain ⟨u, n, hloop, hu, hempty⟩ := updateLoop_fills hinv hpayload hfault
  obtain ⟨new, hcount, hgiven, hfull⟩ := hu.given
  refine ⟨_, new, ((execUpdateSound_cases s).2.2 hfault hinit).trans hloop, ?_, hempty, ?_, ?_, ?_, hfull⟩
  · rw [respond_faulted, sinkPoint_faulted, hu.fault]
  · rw [respond_core, sinkPoint_core, hu.inv.core_eq_none hu.fault]
  · rw [hcount]
    rfl
  · exact (given_sinkPoint u).trans hgiven

/-! ## An honest asset port -/

theorem assetOf_mem {c : Config} {sid : BitVec 16} {h : Hit} (hit : assetOf c sid = some h) :
    ∃ e ∈ c.assets, e.hit = h := by
  unfold assetOf at hit
  split at hit
  · rename_i e he
    cases hit
    exact ⟨e, List.mem_of_find?_eq_some he, rfl⟩
  · cases hit

/-- A byte of a named span that is resident can be read. -/
theorem byteAt_of_resident {s : State} {h : Hit} (hn : (⟨h.base.toNat, h.len⟩ : Span) ∈ s.named)
    (hres : Resident s.mem h.base.toNat h.len) {a : Nat} (ha : h.base.toNat ≤ a) (ha' : a < h.base.toNat + h.len) :
    (byteAt s a).isSome = true :=
  byteAt_isSome.mpr ⟨⟨_, hn, ha, ha'⟩, Option.ne_none_iff_isSome.mpr (hres.2 a ha ha')⟩

/-- The hit of an honest port, once looked up: its span is named and resident. -/
theorem State.PortHonest.lookedUp {s : State} (h : s.PortHonest) {sid : BitVec 16} {ch : BitVec 8} {hit : Hit}
    (hhit : assetOf s.cfg sid = some hit) :
    (⟨hit.base.toNat, hit.len⟩ : Span) ∈ (Machine.lookedUp s sid ch).named ∧
    Resident (Machine.lookedUp s sid ch).mem hit.base.toNat hit.len := by
  obtain ⟨e, he, rfl⟩ := assetOf_mem hhit
  have hup : Machine.lookedUp s sid ch = noteSpan (stopChannel s ch.toNat) e.hit :=
    afterLookup_of_hit (s := stopChannel s ch.toNat) hhit
  obtain ⟨hres, -⟩ := h e he
  refine ⟨hup ▸ noteSpan_named_self _ _, ?_⟩
  rwa [lookedUp_mem]

/-- The channel a start sets up on an honest port has a payload that can be read (R142). -/
theorem startedChannel_readable {s : State} {h : Hit} (hn : (⟨h.base.toNat, h.len⟩ : Span) ∈ s.named)
    (hres : Resident s.mem h.base.toNat h.len) (hlen : 8 ≤ h.len) (ch pitch : BitVec 8) (hdr : List Byte)
    (fmt : Format) : (startedChannel s ch pitch h (lumpHeader hdr) fmt).Readable s := by
  have hend := payloadLength_toNat_le (declared := (lumpHeader hdr).declared) hlen
  have hspace := hres.1
  refine ⟨?_, ?_, fun a ha ha' => byteAt_of_resident hn hres ?_ ?_⟩
  · rw [startedChannel_srcPos, startedChannel_srcEnd]
    omega
  · rw [startedChannel_srcEnd]
    omega
  · rw [startedChannel_srcPos] at ha
    omega
  · rw [startedChannel_srcEnd] at ha'
    omega

/-- Every channel but the one written keeps a payload that can be read. -/
theorem setChan_payloadReadable {s t : State} (hpayload : s.PayloadReadable) (hinv : s.Inv) {c : Nat} {x : Channel}
    (hch : t.ch = s.ch.set c x) (hn : ∀ r ∈ s.named, r ∈ t.named) (hm : t.mem = s.mem)
    (hx : x.decodedCount ≠ 0 → x.Readable t) : t.PayloadReadable := by
  refine payloadReadable_of (s := t) (fun _ hr => hr) rfl fun y hy hactive => ?_
  rw [hch] at hy
  obtain hy | rfl := List.mem_or_eq_of_mem_set hy
  · exact (hpayload.channel hinv hy hactive).mono hn hm
  · exact hx hactive

theorem lookedUp_named_mono (s : State) (sid : BitVec 16) (ch : BitVec 8) :
    ∀ r ∈ s.named, r ∈ (Machine.lookedUp s sid ch).named :=
  fun _ hr => afterLookup_named_mono (stopChannel s ch.toNat) sid hr

/-- A start on an honest port leaves payloads that can be read and no bus fault. -/
theorem StartOutcome.honest {s t : State} {sid : BitVec 16} {ch vol sep pitch : BitVec 8}
    (h : StartOutcome s sid ch vol sep pitch t) (hinv : s.Inv) (hport : s.PortHonest) (hpayload : s.PayloadReadable)
    (hfault : s.faultReason = .none) : t.PayloadReadable ∧ t.faultReason ≠ .srcBus := by
  have hup : (Machine.lookedUp s sid ch).PayloadReadable :=
    setChan_payloadReadable hpayload hinv (lookedUp_ch s sid ch) (lookedUp_named_mono s sid ch) (lookedUp_mem s sid ch)
      fun hactive => absurd rfl hactive
  cases h with
  | failed => exact ⟨hup, by simp [hfault]⟩
  | pitchZero => exact ⟨hup, by simp⟩
  | headerBus hit hhit hlen hread =>
    obtain ⟨hn, hres⟩ := hport.lookedUp (ch := ch) hhit
    have hadmitted := memRead_isSome.mpr (.inr ⟨(Nat.add_le_add_left hlen hit.base.toNat).trans hres.1,
      fun k hk hk' => byteAt_of_resident hn hres hk (by omega)⟩)
    rw [hread] at hadmitted
    cases hadmitted
  | blockBus hit hdr fmt hhit hlen hnext =>
    obtain ⟨hn, hres⟩ := hport.lookedUp (ch := ch) hhit
    exact absurd hnext (startedChannel_readable hn hres hlen ch pitch hdr fmt).decodeNext_ne_none
  | started hit hdr fmt y hhit hlen hnext =>
    obtain ⟨hn, hres⟩ := hport.lookedUp (ch := ch) hhit
    obtain ⟨hcursor, hspace, hbytes⟩ :=
      decodeNext_readable hnext (startedChannel_readable hn hres hlen ch pitch hdr fmt)
    refine ⟨?_, by simp [hfault]⟩
    refine setChan_payloadReadable hpayload hinv (c := ch.toNat) (x := y.withGains vol sep) (by simp)
      (lookedUp_named_mono s sid ch) (by simp) fun _ => ⟨hcursor, hspace, hbytes⟩

/-- A command without a start or a loop leaves payloads that can be read. -/
theorem simpleEffect_payloadReadable {s : State} (hinv : s.Inv) (hpayload : s.PayloadReadable) (i : Instr) :
    (simpleEffect i s).PayloadReadable := by
  cases i with
  | shutdown =>
    intro x hx hactive
    obtain ⟨y, -, rfl⟩ := List.mem_map.mp hx
    exact absurd rfl hactive
  | lookup sid =>
    refine payloadReadable_of (s := s) (fun _ => afterLookup_named_mono s sid) (afterLookup_mem s sid) ?_
    rw [simpleEffect, afterLookup_ch]
    exact fun x hx => hpayload.channel hinv hx
  | updateParams ch vol sep =>
    unfold simpleEffect
    dsimp only
    split_ifs with hgate
    · have hlt : ch.toNat < s.ch.length := hinv.loopOk.channels.1 ▸ (gate_eq_true_iff.mp hgate).2
      refine setChan_payloadReadable hpayload hinv (setChan_ch _ _ _) (fun _ hr => hr) rfl fun hactive => ?_
      obtain ⟨hcursor, hspace, hbytes⟩ := hpayload.channel hinv (chan_mem hlt) hactive
      exact ⟨hcursor, hspace, hbytes⟩
    · exact hpayload
  | stopSound ch =>
    unfold simpleEffect
    dsimp only
    split_ifs
    · exact setChan_payloadReadable hpayload hinv (stopChannel_ch _ _) (fun _ hr => hr) rfl
        fun hactive => absurd rfl hactive
    · exact hpayload
  | _ => exact hpayload

theorem faultReason_eq_none {s : State} (hinv : s.Inv) (hfault : s.faulted = false) : s.faultReason = .none := by
  by_contra hne
  have hfaulted := hinv.loopOk.fault.mpr hne
  rw [hfault] at hfaulted
  cases hfaulted

/-- A command on an honest port leaves payloads that can be read, and a bus fault only where there was one. -/
theorem exec_honest {i : Instr} {s t : State} (h : exec i s = .next t) (hinv : s.Inv) (hport : s.PortHonest)
    (hpayload : s.PayloadReadable) : t.PayloadReadable ∧ (t.faultReason = .srcBus → s.faultReason = .srcBus) := by
  cases exec_outcome h with
  | answer _ v => exact ⟨hpayload, id⟩
  | setupFails v => exact ⟨hpayload, id⟩
  | setup => exact ⟨simpleEffect_payloadReadable hinv hpayload .shutdown, id⟩
  | start sid ch vol sep pitch _ _ hfault hout =>
    obtain ⟨hpayload', hreason⟩ := hout.honest hinv hport hpayload (faultReason_eq_none hinv hfault)
    exact ⟨hpayload', fun hbus => absurd hbus hreason⟩
  | simple _ hfault v =>
    obtain ⟨-, hreason⟩ := simpleEffect_fault i s
    refine ⟨simpleEffect_payloadReadable hinv hpayload i, fun hbus => ?_⟩
    rwa [respond_faultReason, hreason] at hbus
  | update _ hfault hloop =>
    obtain ⟨u, n, e, hu, -⟩ := updateLoop_fills hinv hpayload hfault
    rw [hloop] at e
    cases e
    refine ⟨hu.payload.congr (by simp) (by simp) (by simp), fun hbus => ?_⟩
    rw [respond_faultReason, sinkPoint_faultReason, faultReason_eq_none hu.inv hu.fault] at hbus
    cases hbus

/-- Settles O16: a start on an honest port reads named, resident bytes alone, and reset leaves no channel active. -/
theorem honestPortNoBusFault : Obligations.HonestPortNoBusFault := by
  intro s t hinv hport hpayload h
  obtain ⟨hcfg, hmem⟩ := step_cfg_mem h
  refine ⟨by rwa [State.PortHonest, hcfg, hmem], ?_⟩
  cases step_outcome h with
  | idle => exact ⟨hpayload, id⟩
  | illegal w rest hin v => exact ⟨hpayload, id⟩
  | command w rest i u hin hexec => exact exec_honest (s := { s with inputs := rest }) (t := u) hexec hinv hport hpayload
  | sinkPlay rest => exact ⟨hpayload.congr (by simp) (by simp) (by simp), by simp⟩
  | reset rest =>
    refine ⟨fun x hx hactive => ?_, fun hbus => by cases hbus⟩
    rw [List.eq_of_mem_replicate hx] at hactive
    exact absurd rfl hactive

end Sys2Proof.Machine
end

section
/-! Proofs that the sink's choice of a buffer cannot be observed (44_scheduler.md §2, R233): a simulation between two runs
that differ in which buffer is which, operation by operation. -/

namespace Sys2Proof.Machine

/-! ## Two states that differ in their buffers -/

/-- The state with other buffers and other choices of the sink to come. -/
def withPool (s : State) (e : List Buffer) (c : Option Buffer) (f : List Filled) (p : List Nat) : State :=
  { s with empty := e, core := c, filled := f, draws := { s.draws with picks := p } }

/-- What a queued buffer holds, whichever buffer it is. -/
def Filled.holds (f : Filled) : List Pcm × Nat := (f.buffer.samples, f.count)

/-- The states differ at most in which buffer is which, in the sink's choices to come, and in what buffers in `Empty` and
in `Core` hold: so it stands between a take and the end of the fill, which overwrites the taken buffer. -/
def SameButPool (s t : State) : Prop :=
  ∃ e c f p, t = withPool s e c f p ∧ e.length = s.empty.length ∧ f.map Filled.holds = s.filled.map Filled.holds

/-- The relation of the statement, with the buffers and choices named. -/
theorem sameButBuffers_iff {s t : State} : s.SameButBuffers t ↔ ∃ e c f p, t = withPool s e c f p ∧
    e.length = s.empty.length ∧ f.map Filled.holds = s.filled.map Filled.holds ∧
    c.map Buffer.samples = s.core.map Buffer.samples := by
  constructor
  · rintro ⟨heq, hempty, hcore, hfilled⟩
    exact ⟨t.empty, t.core, t.filled, t.draws.picks, heq, hempty, hfilled, hcore⟩
  · rintro ⟨e, c, f, p, rfl, hempty, hfilled, hcore⟩
    exact ⟨rfl, hempty, hcore, hfilled⟩

/-- Two results that are the same but for buffers. -/
inductive SameResult : Result → Result → Prop
  | next {s t : State} (h : s.SameButBuffers t) : SameResult (.next s) (.next t)
  | fault (f : Fault) : SameResult (.fault f) (.fault f)
  | refused (x : Refusal) : SameResult (.refused x) (.refused x)

/-! ## Operations that do not look at the buffers -/

section
variable (s : State) (e : List Buffer) (c : Option Buffer) (f : List Filled) (p : List Nat)

theorem memRead_withPool (a n : Nat) : memRead (withPool s e c f p) a n = memRead s a n :=
  memRead_congr (s := s) (t := withPool s e c f p) rfl rfl a n

theorem decodeNext_withPool (x : Channel) : decodeNext (withPool s e c f p) x = decodeNext s x :=
  decodeNext_congr (s := s) (t := withPool s e c f p) rfl rfl rfl x

theorem mixChannels_withPool (xs : List Channel) (buf : List Pcm) :
    mixChannels (withPool s e c f p) xs buf = mixChannels s xs buf :=
  mixChannels_congr (s := s) (t := withPool s e c f p) rfl rfl rfl xs buf

theorem noteSpan_withPool (h : Hit) : noteSpan (withPool s e c f p) h = withPool (noteSpan s h) e c f p := by
  rw [noteSpan_eq, noteSpan_eq]
  rfl

theorem beginPlayback_withPool (ch vol sep pitch : BitVec 8) (fmt : Format) (h : Hit) (hdr : LumpHeader) :
    beginPlayback (withPool s e c f p) ch vol sep pitch fmt h.base.toNat (payloadLength hdr.declared h.len).toNat
      hdr.rate =
    withPool (beginPlayback s ch vol sep pitch fmt h.base.toNat (payloadLength hdr.declared h.len).toNat hdr.rate)
      e c f p := by
  have hsame := decodeNext_withPool s e c f p (startedChannel s ch pitch h hdr fmt)
  cases hnext : decodeNext s (startedChannel s ch pitch h hdr fmt) with
  | none =>
    rw [beginPlayback_bus hnext, beginPlayback_bus (s := withPool s e c f p) (hsame.trans hnext)]
    rfl
  | some y =>
    rw [beginPlayback_starts hnext, beginPlayback_starts (s := withPool s e c f p) (hsame.trans hnext)]
    rfl

theorem checkHeader_withPool (ch vol sep pitch : BitVec 8) (h : Hit) (hdr : LumpHeader) :
    checkHeader (withPool s e c f p) ch vol sep pitch h hdr =
      withPool (checkHeader s ch vol sep pitch h hdr) e c f p := by
  cases htag : formatOf s.cfg hdr.tag with
  | none => rw [checkHeader_unknownTag htag, checkHeader_unknownTag (s := withPool s e c f p) htag]; rfl
  | some fmt =>
    rcases le_or_gt (payloadLength hdr.declared h.len) 0 with hpayload | hpayload
    · rw [checkHeader_noPayload htag hpayload, checkHeader_noPayload (s := withPool s e c f p) htag hpayload]
      rfl
    by_cases hpitch : pitch = 0
    · rw [checkHeader_pitchZero htag hpayload hpitch,
        checkHeader_pitchZero (s := withPool s e c f p) htag hpayload hpitch]
      rfl
    · rw [checkHeader_begins htag hpayload hpitch, checkHeader_begins (s := withPool s e c f p) htag hpayload hpitch,
        beginPlayback_withPool]

theorem startLump_withPool (ch vol sep pitch : BitVec 8) (h : Hit) :
    startLump (withPool s e c f p) ch vol sep pitch h = withPool (startLump s ch vol sep pitch h) e c f p := by
  rcases Nat.lt_or_ge h.len 8 with hlen | hlen
  · rw [startLump_short hlen, startLump_short hlen]
    rfl
  have hsame := memRead_withPool s e c f p h.base.toNat 8
  cases hread : memRead s h.base.toNat 8 with
  | none =>
    rw [startLump_unreadable hlen hread, startLump_unreadable hlen (hsame.trans hread)]
    rfl
  | some hdr => rw [startLump_header hlen hread, startLump_header hlen (hsame.trans hread), checkHeader_withPool]

theorem startChannel_withPool (sid : BitVec 16) (ch vol sep pitch : BitVec 8) :
    startChannel (withPool s e c f p) sid ch vol sep pitch =
      withPool (startChannel s sid ch vol sep pitch) e c f p := by
  have hstop : stopChannel (withPool s e c f p) ch.toNat = withPool (stopChannel s ch.toNat) e c f p := rfl
  cases hit : assetOf s.cfg sid with
  | none =>
    rw [startChannel_of_miss hit, startChannel_of_miss (s := withPool s e c f p) hit]
    rfl
  | some h =>
    rw [startChannel_of_hit hit, startChannel_of_hit (s := withPool s e c f p) hit, hstop, noteSpan_withPool,
      startLump_withPool]

end

/-- Every command without the loop does the same to a state with other buffers. -/
theorem exec_withPool {i : Instr} {s t : State} (h : exec i s = .next t) (hi : i ≠ .updateSound) (e : List Buffer)
    (c : Option Buffer) (f : List Filled) (p : List Nat) :
    exec i (withPool s e c f p) = .next (withPool t e c f p) := by
  obtain hfault | hfault := Bool.eq_false_or_eq_true s.faulted
  · rw [exec_of_faulted hfault] at h
    cases h
    exact exec_of_faulted (s := withPool s e c f p) hfault i
  have hfault' : (withPool s e c f p).faulted = false := hfault
  cases i with
  | updateSound => exact absurd rfl hi
  | init =>
    obtain hinit | hinit := Bool.eq_false_or_eq_true s.initialized
    · rw [exec_init_of_initialized hfault hinit] at h
      cases h
      exact exec_init_of_initialized hfault' hinit
    obtain hsetup | hsetup := Bool.eq_false_or_eq_true (setupAnswer s.draws)
    · rw [exec_init_of_setup hfault hinit hsetup] at h
      cases h
      exact exec_init_of_setup hfault' hinit hsetup
    · rw [exec_init_of_setup_fails hfault hinit hsetup] at h
      cases h
      exact exec_init_of_setup_fails hfault' hinit hsetup
  | shutdown =>
    rw [exec_shutdown_of_not_faulted hfault] at h
    cases h
    exact exec_shutdown_of_not_faulted hfault'
  | lookup sid =>
    cases hit : assetOf s.cfg sid with
    | none =>
      rw [exec_lookup_of_miss hfault hit] at h
      cases h
      exact exec_lookup_of_miss hfault' hit
    | some hit' =>
      rw [exec_lookup_of_hit hfault hit] at h
      cases h
      rw [exec_lookup_of_hit hfault' hit, noteSpan_withPool]
      rfl
  | startSound sid ch vol sep pitch =>
    cases hgate : gate s ch with
    | false =>
      rw [exec_startSound_of_gate_closed hfault hgate] at h
      cases h
      exact exec_startSound_of_gate_closed hfault' hgate sid vol sep pitch
    | true =>
      rw [exec_startSound_of_gate_open hfault hgate] at h
      cases h
      rw [exec_startSound_of_gate_open hfault' hgate, startChannel_withPool]
  | updateParams ch vol sep =>
    have hgate : gate (withPool s e c f p) ch = gate s ch := rfl
    rw [exec_updateParams_of_not_faulted hfault] at h
    cases h
    rw [exec_updateParams_of_not_faulted hfault', hgate]
    split_ifs <;> rfl
  | stopSound ch =>
    have hgate : gate (withPool s e c f p) ch = gate s ch := rfl
    rw [exec_stopSound_of_not_faulted hfault] at h
    cases h
    rw [exec_stopSound_of_not_faulted hfault', hgate]
    split_ifs <;> rfl
  | isPlaying ch =>
    rw [exec_isPlaying_of_not_faulted hfault] at h
    cases h
    exact exec_isPlaying_of_not_faulted hfault' ch
  | precache =>
    rw [exec_precache_of_not_faulted hfault] at h
    cases h
    exact exec_precache_of_not_faulted hfault'
  | setMusic arg =>
    rw [exec_setMusic_of_not_faulted hfault] at h
    cases h
    exact exec_setMusic_of_not_faulted hfault' arg
  | fadeTo arg =>
    rw [exec_fadeTo_of_not_faulted hfault] at h
    cases h
    exact exec_fadeTo_of_not_faulted hfault' arg
  | isFading =>
    rw [exec_isFading_of_not_faulted hfault] at h
    cases h
    exact exec_isFading_of_not_faulted hfault'

/-- No command without the loop moves a buffer. -/
theorem exec_pool {i : Instr} {s t : State} (h : exec i s = .next t) (hi : i ≠ .updateSound) :
    t.empty = s.empty ∧ t.core = s.core ∧ t.filled = s.filled := by
  obtain ⟨-, -, -, -, -, -, -, -, -, -, -, hbuffers, -⟩ := globalFieldWriters i s t h
  have hkept := mt hbuffers hi
  simp only [ne_eq, not_or, not_not] at hkept
  obtain ⟨hempty, hcore, hfilled, -⟩ := hkept
  exact ⟨hempty, hcore, hfilled⟩

theorem exec_same_of_ne_updateSound {s t : State} (h : s.SameButBuffers t) {i : Instr} (hi : i ≠ .updateSound) :
    SameResult (exec i s) (exec i t) := by
  obtain ⟨u, hu⟩ := exec_next_of_ne_updateSound hi s
  obtain ⟨hempty, hcore, hfilled⟩ := exec_pool hu hi
  obtain ⟨e, c, f, p, rfl, he, hf, hc⟩ := sameButBuffers_iff.mp h
  rw [hu, exec_withPool hu hi]
  exact .next (sameButBuffers_iff.mpr
    ⟨e, c, f, p, rfl, by rw [hempty, he], by rw [hfilled, hf], by rw [hcore, hc]⟩)

/-! ## The sink's moves -/

/-- What was queued is played with the same content, whichever buffers hold it. -/
theorem map_content_of_holds {f f' : List Filled} (h : f.map Filled.holds = f'.map Filled.holds) :
    f.map Filled.content = f'.map Filled.content := by
  have hmap (l : List Filled) : l.map Filled.content = (l.map Filled.holds).map (fun q => q.1.take q.2) := by
    rw [List.map_map]
    rfl
  rw [hmap, hmap, h]

/-- The states play the same buffers at a point between two core steps (R235; log 9). -/
theorem sinkPoint_withPool {s : State} {f : List Filled} (hf : f.map Filled.holds = s.filled.map Filled.holds)
    (e : List Buffer) (c : Option Buffer) (p : List Nat) :
    sinkPoint (withPool s e c f p) = withPool (sinkPoint s)
      (e ++ (f.take (min (s.draws.plays.headD 0) s.filled.length)).map Filled.buffer) c
      (f.drop (min (s.draws.plays.headD 0) s.filled.length)) p := by
  have hlen : f.length = s.filled.length := by simpa using congrArg List.length hf
  have htake : (f.take (min (s.draws.plays.headD 0) s.filled.length)).map Filled.content =
      (s.filled.take (min (s.draws.plays.headD 0) s.filled.length)).map Filled.content :=
    map_content_of_holds (by rw [List.map_take, List.map_take, hf])
  rw [sinkPoint_eq, sinkPoint_eq]
  simp only [withPool, hlen]
  exact congrArg (fun l => ({ withPool s (e ++ (f.take _).map Filled.buffer) c (f.drop _) p with
    played := s.played ++ l, draws := { s.draws with plays := s.draws.plays.tail, picks := p } } : State)) htake

theorem sameButPool_sinkPoint {s t : State} (h : SameButPool s t) : SameButPool (sinkPoint s) (sinkPoint t) := by
  obtain ⟨e, c, f, p, rfl, he, hf⟩ := h
  have hlen : f.length = s.filled.length := by simpa using congrArg List.length hf
  refine ⟨_, c, _, p, sinkPoint_withPool hf e c p, ?_, ?_⟩
  · rw [sinkPoint_eq]
    simp [he, hlen]
  · rw [sinkPoint_eq, List.map_drop, List.map_drop, hf]

theorem sameButBuffers_sinkPoint {s t : State} (h : s.SameButBuffers t) : (sinkPoint s).SameButBuffers (sinkPoint t) := by
  obtain ⟨e, c, f, p, rfl, he, hf, hc⟩ := sameButBuffers_iff.mp h
  have hlen : f.length = s.filled.length := by simpa using congrArg List.length hf
  refine sameButBuffers_iff.mpr ⟨_, c, _, p, sinkPoint_withPool hf e c p, ?_, ?_, by rw [hc, sinkPoint_core]⟩
  · rw [sinkPoint_eq]
    simp [he, hlen]
  · rw [sinkPoint_eq, List.map_drop, List.map_drop, hf]

/-- The states find a buffer to take alike; which one, and what it holds, may differ (R233; log 10). -/
theorem sinkTake_same {s t : State} (h : s.SameButBuffers t) :
    (sinkTake s = none ∧ sinkTake t = none) ∨
    ∃ b b' s1 t1, sinkTake s = some (b, s1) ∧ sinkTake t = some (b', t1) ∧ SameButPool s1 t1 := by
  obtain ⟨e, c, f, p, rfl, he, hf, -⟩ := sameButBuffers_iff.mp h
  have hnone : sinkTake (withPool s e c f p) = none ↔ sinkTake s = none := by
    rw [sinkTake_none, sinkTake_none, ← List.length_eq_zero_iff, ← List.length_eq_zero_iff, ← he]
    rfl
  cases htake : sinkTake s with
  | none => exact .inl ⟨rfl, hnone.mpr htake⟩
  | some q =>
    obtain ⟨b, s1⟩ := q
    cases htake' : sinkTake (withPool s e c f p) with
    | none => exact absurd (hnone.mp htake') (by simp [htake])
    | some q' =>
      obtain ⟨b', t1⟩ := q'
      obtain ⟨hb, rfl⟩ := sinkTake_eq_some htake
      obtain ⟨hb', rfl⟩ := sinkTake_eq_some htake'
      obtain ⟨hlt, -⟩ := List.getElem?_eq_some_iff.mp hb
      obtain ⟨hlt', -⟩ := List.getElem?_eq_some_iff.mp hb'
      refine .inr ⟨b, b', _, _, rfl, rfl, _, some b', f, p.tail, rfl, ?_, hf⟩
      rw [List.length_eraseIdx_of_lt hlt, List.length_eraseIdx_of_lt hlt']
      exact congrArg (· - 1) he

/-- A give queues the core's buffer, whose content is the same in both states. -/
theorem sameButBuffers_sinkGive {s t : State} (h : s.SameButBuffers t) (n : Nat) :
    (sinkGive s n).SameButBuffers (sinkGive t n) := by
  obtain ⟨e, c, f, p, rfl, he, hf, hc⟩ := sameButBuffers_iff.mp h
  cases hcore : s.core with
  | none =>
    obtain rfl : c = none := by simpa [hcore] using hc
    have hs : sinkGive s n = s := by simp only [sinkGive, hcore]
    rw [hs]
    exact h
  | some b =>
    obtain ⟨b', rfl, hb⟩ : ∃ b', c = some b' ∧ b'.samples = b.samples := by simpa [hcore] using hc
    rw [sinkGive_of_core hcore, sinkGive_of_core (s := withPool s e (some b') f p) rfl]
    refine sameButBuffers_iff.mpr ⟨e, none, f ++ [⟨b', n⟩], p, rfl, he, ?_, rfl⟩
    simp [hf, Filled.holds, hb]

/-! ## The fill -/

/-- A filled state, whole (R232). -/
theorem filledState_eq (s : State) (b : Buffer) : filledState s b = { s with
    ch := (mixChannels s s.ch (baseContent s)).chans
    fadeState := (fadedMix s).fade.state, fadeLevel := (fadedMix s).fade.level
    core := some ⟨b.id, (fadedMix s).buf⟩
    draws := if s.musicEnabled then s.draws.afterMusic else s.draws } := by
  simp only [filledState, mixChannels_afterBase, afterBase_ch, afterBase_cfg, afterBase_fadeState, afterBase_fadeLevel,
    fadedMix]
  unfold afterBase
  split_ifs <;> rfl

section
variable (s : State) (e : List Buffer) (c : Option Buffer) (f : List Filled) (p : List Nat)

theorem fillMix_withPool : mixChannels (withPool s e c f p) (withPool s e c f p).ch (baseContent (withPool s e c f p)) =
    mixChannels s s.ch (baseContent s) :=
  mixChannels_withPool s e c f p s.ch (baseContent s)

theorem fadedMix_withPool : fadedMix (withPool s e c f p) = fadedMix s := by
  rw [fadedMix, fillMix_withPool]
  rfl

/-- The fill overwrites the taken buffer, whatever it held. -/
theorem filledState_withPool (b : Buffer) : filledState (withPool s e c f p) b =
    withPool (filledState s b) e (some ⟨b.id, (fadedMix s).buf⟩) f p := by
  rw [filledState_eq, filledState_eq, fillMix_withPool, fadedMix_withPool]
  cases hmusic : s.musicEnabled <;> simp [withPool, hmusic, Draws.afterMusic]

theorem faultedFill_withPool (b : Buffer) : faultedFill (withPool s e c f p) b =
    withPool (faultedFill s b) e (some ⟨b.id, (mixChannels s s.ch (baseContent s)).buf⟩) f p := by
  rw [faultedFill_eq, faultedFill_eq, fillMix_withPool]
  cases hmusic : s.musicEnabled <;> simp [withPool, hmusic, Draws.afterMusic]

end

theorem sameButBuffers_filledState {s t : State} (h : SameButPool s t) (b b' : Buffer) :
    (filledState s b).SameButBuffers (filledState t b') := by
  obtain ⟨e, c, f, p, rfl, he, hf⟩ := h
  refine sameButBuffers_iff.mpr ⟨e, _, f, p, filledState_withPool s e c f p b', ?_, ?_, ?_⟩
  · rw [filledState_empty, he]
  · rw [filledState_filled, hf]
  · rw [(filledState_fade s b).1]
    rfl

theorem sameButBuffers_faultedFill {s t : State} (h : SameButPool s t) (b b' : Buffer) :
    (faultedFill s b).SameButBuffers (faultedFill t b') := by
  obtain ⟨e, c, f, p, rfl, he, hf⟩ := h
  refine sameButBuffers_iff.mpr ⟨e, _, f, p, faultedFill_withPool s e c f p b', ?_, ?_, ?_⟩
  · rw [faultedFill_empty, he]
  · rw [faultedFill_filled, hf]
  · rw [faultedFill_core]
    rfl

/-- The states fill, fault or stop alike. -/
theorem fillVerdict_same {s t : State} (h : SameButPool s t) : fillVerdict t = fillVerdict s := by
  obtain ⟨e, c, f, p, rfl, -, -⟩ := h
  exact congrArg MixedAll.verdict (fillMix_withPool s e c f p)

/-! ## The loop, and a whole step -/

theorem respond_same {s t : State} (h : s.SameButBuffers t) (v : RespWord) :
    (respond s v).SameButBuffers (respond t v) := by
  obtain ⟨e, c, f, p, rfl, hrest⟩ := sameButBuffers_iff.mp h
  exact sameButBuffers_iff.mpr ⟨e, c, f, p, rfl, hrest⟩

theorem fillBuffer_of_verdict (s : State) (b : Buffer) :
    (fillVerdict s = .ok → fillBuffer s b = .done (filledState s b)) ∧
    (fillVerdict s = .bus → fillBuffer s b = .raised (faultedFill s b)) ∧
    (fillVerdict s = .noValue → fillBuffer s b = .stuck .sampleNoValue) := by
  obtain ⟨hv, e⟩ | ⟨hv, e⟩ | ⟨hv, e⟩ := fillBuffer_verdict_cases s b <;> simp [hv, e]

/-- Turn by turn the loop does the same to both states. -/
theorem updateLoop_same {k : Nat} {s t : State} (h : s.SameButBuffers t) (n : Nat) :
    SameResult (updateLoop k s n) (updateLoop k t n) := by
  induction k generalizing s t n with
  | zero => exact .fault .endless
  | succ k ih =>
    have hpoint := sameButBuffers_sinkPoint h
    obtain ⟨hnone, hnone'⟩ | ⟨b, b', s1, t1, htake, htake', hpool⟩ := sinkTake_same hpoint
    · rw [updateLoop_stop hnone, updateLoop_stop hnone']
      exact .next (respond_same hpoint _)
    have hpool' := sameButPool_sinkPoint hpool
    have hverdict := fillVerdict_same hpool'
    obtain ⟨hdone, hraised, hstuck⟩ := fillBuffer_of_verdict (sinkPoint t1) b'
    obtain ⟨hv, e⟩ | ⟨hv, e⟩ | ⟨hv, e⟩ := fillBuffer_verdict_cases (sinkPoint s1) b
    · have hfilled := sameButBuffers_filledState hpool' b b'
      have hcfg : (filledState (sinkPoint t1) b').cfg = (filledState (sinkPoint s1) b).cfg := by
        rw [hfilled.1]
      rw [updateLoop_turn htake e, updateLoop_turn htake' (hdone (hverdict.trans hv)), hcfg]
      exact ih (sameButBuffers_sinkGive (sameButBuffers_sinkPoint hfilled) _) _
    · rw [updateLoop_raise htake e, updateLoop_raise htake' (hraised (hverdict.trans hv))]
      exact .next (sameButBuffers_faultedFill hpool' b b')
    · rw [updateLoop_stuck htake e, updateLoop_stuck htake' (hstuck (hverdict.trans hv))]
      exact .fault _

theorem exec_updateSound_same {s t : State} (h : s.SameButBuffers t) :
    SameResult (exec .updateSound s) (exec .updateSound t) := by
  obtain ⟨e, c, f, p, rfl, he, -⟩ := sameButBuffers_iff.mp h
  obtain ⟨hfaulted, hidle, hloop⟩ := execUpdateSound_cases s
  obtain ⟨hfaulted', hidle', hloop'⟩ := execUpdateSound_cases (withPool s e c f p)
  have hbound : updateBound (withPool s e c f p) = updateBound s := by
    rw [updateBound, updateBound, ← he]
    rfl
  rw [exec, exec]
  obtain hfault | hfault := Bool.eq_false_or_eq_true s.faulted
  · rw [hfaulted hfault, hfaulted' hfault]
    exact .next (respond_same h _)
  obtain hinit | hinit := Bool.eq_false_or_eq_true s.initialized
  · rw [hloop hfault hinit, hloop' hfault hinit, hbound]
    exact updateLoop_same h 0
  · rw [hidle hfault hinit, hidle' hfault hinit]
    exact .next (respond_same h _)

theorem exec_same {s t : State} (h : s.SameButBuffers t) (i : Instr) : SameResult (exec i s) (exec i t) := by
  by_cases hi : i = .updateSound
  · subst hi
    exact exec_updateSound_same h
  · exact exec_same_of_ne_updateSound h hi

theorem illegalWord_same {s t : State} (h : s.SameButBuffers t) : SameResult (illegalWord s) (illegalWord t) := by
  have hfault : t.faulted = s.faulted := by rw [h.1]
  unfold illegalWord preamble
  rw [hfault]
  split_ifs
  · exact .next (respond_same h _)
  · exact .next (respond_same h _)

theorem SameResult.answered {r r' : Result} (h : SameResult r r') :
    SameResult (Machine.answered r) (Machine.answered r') := by
  cases h with
  | next h =>
    obtain ⟨e, c, f, p, rfl, hrest⟩ := sameButBuffers_iff.mp h
    exact .next (sameButBuffers_iff.mpr ⟨e, c, f, p, rfl, hrest⟩)
  | fault f => exact .fault f
  | refused x => exact .refused x

/-- A play moves buffers of the same content. -/
theorem playOnce_same {s t : State} (h : s.SameButBuffers t) : (playOnce s).SameButBuffers (playOnce t) := by
  obtain ⟨e, c, f, p, rfl, he, hf, hc⟩ := sameButBuffers_iff.mp h
  cases hfilled : s.filled with
  | nil =>
    obtain rfl : f = [] := by simpa [hfilled] using hf
    rw [playOnce_of_none_filled hfilled, playOnce_of_none_filled (s := withPool s e c [] p) rfl]
    exact h
  | cons g gs =>
    cases f with
    | nil => simp [hfilled] at hf
    | cons g' gs' =>
      rw [hfilled, List.map_cons, List.map_cons, List.cons.injEq] at hf
      obtain ⟨hg, hgs⟩ := hf
      have hcontent : g'.content = g.content := congrArg (fun q => q.1.take q.2) hg
      rw [playOnce_of_filled hfilled, playOnce_of_filled (s := withPool s e c (g' :: gs') p) rfl]
      refine sameButBuffers_iff.mpr ⟨e ++ [g'.buffer], c, gs', p, ?_, ?_, hgs, hc⟩
      · exact congrArg (fun l => ({ withPool s (e ++ [g'.buffer]) c gs' p with played := s.played ++ [l] } : State))
          hcontent
      · simp [he]

/-- Reset gives both states the same buffers. -/
theorem applyReset_same {s t : State} (h : s.SameButBuffers t) : (applyReset s).SameButBuffers (applyReset t) := by
  obtain ⟨e, c, f, p, rfl, -⟩ := sameButBuffers_iff.mp h
  exact sameButBuffers_iff.mpr ⟨(applyReset s).empty, none, [], p, rfl, rfl, rfl, rfl⟩

theorem serve_same {s t : State} (h : s.SameButBuffers t) (ev : Event) : SameResult (serve ev s) (serve ev t) := by
  cases ev with
  | sinkPlay => exact .next (playOnce_same h)
  | reset => exact .next (applyReset_same h)
  | command w =>
    rw [serve_command, serve_command]
    cases hw : decode w with
    | ok i =>
      rw [serveWord_of_decode_ok hw, serveWord_of_decode_ok hw]
      exact (exec_same h i).answered
    | error r =>
      rw [serveWord_of_decode_error hw, serveWord_of_decode_error hw]
      exact (illegalWord_same h).answered

theorem step_same {s t : State} (h : s.SameButBuffers t) : SameResult (step s) (step t) := by
  obtain ⟨e, c, f, p, rfl, hrest⟩ := sameButBuffers_iff.mp h
  cases hin : s.inputs with
  | nil =>
    rw [step_idle hin, step_idle (s := withPool s e c f p) hin]
    exact .next h
  | cons ev rest =>
    rw [step_serves hin, step_serves (s := withPool s e c f p) hin]
    exact serve_same (s := { s with inputs := rest }) (sameButBuffers_iff.mpr ⟨e, c, f, p, rfl, hrest⟩) ev

/-- Settles O35: the steps simulate each other, and the relation holds what was played and answered equal. -/
theorem bufferChoiceUnobservable : Obligations.BufferChoiceUnobservable := by
  intro s s' h
  have hstep := step_same h
  refine ⟨fun t ht => ?_, fun f hf => ?_⟩
  · rw [ht] at hstep
    generalize step s' = r at hstep
    cases hstep with
    | next hsame => exact ⟨_, rfl, hsame, by rw [hsame.1], by rw [hsame.1]⟩
  · rw [hf] at hstep
    generalize step s' = r at hstep
    cases hstep with
    | fault => rfl

end Sys2Proof.Machine
end
